-- ==== Sys2Proof/Word.lean ====
section
/-! DEFINITION. The plain values of uart_bit_decoder: bytes, sample words, numbers of a floating-point format. -/

namespace Sys2Proof

/-- A DecodedByte, 8 bits (30_encoding R85). -/
abbrev Byte := BitVec 8

/-- A SampleWord (30_encoding R81): "an unsigned integer of fixed bit-width". The width `W` is a
parameter of the instance (00_scope R7, D4), so a word is the unsigned integer itself; that it fits
`W` bits is a check of `WellFormed` and part of the invariant, and every bit test is on the integer
as R9 writes it. -/
abbrev SampleWord := Nat

/-- A value of `FLOAT_FMT` (40_timing_model R116): NaN, an infinity, or plus or minus `num / den`.
Which finite numbers a format holds is `Number.isValueOf`. -/
inductive Number where
  | nan
  | infinite (negative : Bool)
  | finite (negative : Bool) (num den : Nat)
  deriving DecidableEq, Repr, Inhabited

/-- The natural number `n` as a value. -/
def Number.ofNat (n : Nat) : Number := .finite false n 1

end Sys2Proof
end

