-- ==== Sys2Proof/Config.lean ====
section
/-! DEFINITION. The parameters of an instance (00_scope R7) and the model's free values. -/

namespace Sys2Proof

/-- `FLOAT_FMT` (00_scope R7, 92 D7: OPEN). Log entry 7. -/
inductive FloatFmt where
  /-- A binary format of precision `prec` and largest exponent `emax`, every operation rounded once
  to nearest, ties to even (40_timing_model R116). -/
  | binary (prec emax : Nat)
  /-- Exact rational arithmetic, the other evaluation the spec's tables give (R116, R121). -/
  | exact
  /-- Any other format: its two operations are the free values `Config.otherDiv`, `Config.otherMul`. -/
  | other
  deriving DecidableEq, Repr

/-- IEEE 754 binary64, the decided default (92 D7). -/
def FloatFmt.binary64 : FloatFmt := .binary 53 1023

/-- The parameters of one instance (00_scope R7). `none` is "no bound" or "unbounded". No step
changes them. -/
structure Params where
  /-- `W`, the width in bits of a SampleWord. -/
  w : Nat
  /-- `CHUNK_MAX`, the largest number of words in a chunk; the host's duty, the block does not check it. -/
  chunkMax : Option Nat
  /-- `IDX_BITS`, the width of a local index and of a TimingTable register. -/
  idxBits : Option Nat
  /-- `CUR_BITS`, the width of CURSOR and of an event index. -/
  curBits : Option Nat
  /-- `FLOAT_FMT`, the format BUILD computes in. -/
  fmt : FloatFmt
  deriving DecidableEq, Repr

/-- `fdiv` of a format the model does not name: a free value (log entry 7). -/
opaque Config.otherDiv : Number → Number → Number

/-- `fmul` of a format the model does not name: a free value (log entry 7). -/
opaque Config.otherMul : Number → Number → Number

/-- A natural number fits a register of that many bits; an unbounded register holds any
(92 D6: "refuse ... and never wrap"). -/
def fitsBits (bits : Option Nat) (n : Nat) : Bool :=
  match bits with
  | none => true
  | some b => decide (n < 2 ^ b)

/-- `n` fits a TimingTable register or a local index (00_scope R7, `IDX_BITS`). -/
def Params.fitsIdx (p : Params) (n : Nat) : Bool := fitsBits p.idxBits n

/-- `n` fits CURSOR (00_scope R7, `CUR_BITS`). -/
def Params.fitsCur (p : Params) (n : Nat) : Bool := fitsBits p.curBits n

/-- What the model fixes for the instance after reset (log entry 3): `W = 8`, no bound on a chunk, the
unbounded reference model (92 D6), binary64 (92 D7). -/
def Params.reference : Params :=
  { w := 8, chunkMax := none, idxBits := none, curBits := none, fmt := .binary64 }

end Sys2Proof
end

