-- ==== Sys2Proof/Syntax.lean ====
section
/-! DEFINITION. The operations of the block: one constructor per row of spec/opcode_table.json, the
TimingTable they carry, and the three formats a row is written in (CMD, SEL, SF). -/

namespace Sys2Proof

/-- A TimingTable, format TT (30_encoding R84): ten natural numbers, in this order. -/
structure TimingTable where
  o0 : Nat
  o1 : Nat
  o2 : Nat
  o3 : Nat
  o4 : Nat
  o5 : Nat
  o6 : Nat
  o7 : Nat
  stop : Nat
  spare : Nat
  deriving DecidableEq, Repr

/-- `OFF[k]`, the sample point of data bit `k` (10_state R21). -/
def TimingTable.off (t : TimingTable) : Fin 8 → Nat
  | 0 => t.o0 | 1 => t.o1 | 2 => t.o2 | 3 => t.o3
  | 4 => t.o4 | 5 => t.o5 | 6 => t.o6 | 7 => t.o7

/-- The rows of spec/opcode_table.json (30_encoding R95). -/
inductive Instr where
  /-- BUILD, CMD 000 (40_timing_model R110). -/
  | build (samplerate baudrate : Number)
  /-- ISHIGH, CMD 001 (41_channel_extractor R130). -/
  | ishigh (word : SampleWord) (channel : Nat)
  /-- START, CMD 010 (42_session_control R140). -/
  | start (timing : TimingTable) (channel : Nat)
  /-- FEED, CMD 011 (43_feed_decoder R160). -/
  | feed (chunk : List SampleWord)
  /-- FINISH, CMD 100 (42_session_control R145). -/
  | finish
  /-- SCAN.SKIP, SEL 0011 (43_feed_decoder R163). -/
  | scanSkip
  /-- SCAN.START, SEL 0010 (R164). -/
  | scanStart
  /-- SCAN.EXIT, SEL 000x (R165). -/
  | scanExit
  /-- SAMPLE, SEL 01xx (R166). -/
  | sample
  /-- STOPCHK.OK, SEL 10x1 (R167). -/
  | stopchkOk
  /-- STOPCHK.ERR, SEL 10x0 (R168). -/
  | stopchkErr
  /-- RESYNC.HOLD, SEL 1110 (R169). -/
  | resyncHold
  /-- RESYNC.DONE, SEL 1111 (R170). -/
  | resyncDone
  /-- RESYNC.EXIT, SEL 110x (R171). -/
  | resyncExit
  /-- FRAME.OK, SF 0abcdefgh1 (30_encoding R83, R95; 43_feed_decoder R167). -/
  | frameOk (byte : Byte)
  /-- FRAME.ERR, SF 0abcdefgh0 (30_encoding R83, R95; 43_feed_decoder R168). -/
  | frameErr (byte : Byte)
  deriving DecidableEq, Repr

/-- An operand of an operation as the host hands it over: a value (30_encoding R93). -/
inductive Operand where
  | rate (x : Number)
  | word (w : SampleWord)
  | natural (n : Nat)
  | table (t : TimingTable)
  | chunk (ws : List SampleWord)
  deriving DecidableEq, Repr

/-- An operation as issued: "its CMD code followed by its operands as values" (30_encoding R93). -/
structure Command where
  code : BitVec 3
  operands : List Operand
  deriving DecidableEq, Repr

/-- A coded row: an issued command, a micro-step selector (R88), or the ten levels of a frame as
sampled, the first sample at bit 9 (R82, R83). -/
inductive Encoded where
  | cmd (c : Command)
  | sel (v : BitVec 4)
  | sf (v : BitVec 10)
  deriving DecidableEq, Repr

end Sys2Proof
end

