-- ==== Sys2Proof/Machine/State.lean ====
section
/-! DEFINITION. The state of one block instance (10_state R20), the results it hands over, the reasons a step can
stop, and the state after reset. Plain data throughout. -/

namespace Sys2Proof.Machine

/-- PHASE (10_state R27). BYTE (R28) lives from SAMPLE to the end of its frame, so it is the argument of
the two phases in which it holds a value (log entry 2). -/
inductive Phase where
  | scan
  | sample
  | stopchk (byte : Byte)
  | resync (byte : Byte)
  deriving DecidableEq, Repr

/-- The FEED-local and output state of a running FEED (10_state R26 to R29); `N` is the length of `buf`. -/
structure Run where
  /-- `BUF`, formed at FEED entry and never changed (R26). -/
  buf : List SampleWord
  /-- `PHASE`, with BYTE where it holds a value (R27, R28). -/
  phase : Phase
  /-- `I`, the local index (R27). -/
  i : Nat
  /-- `BYTES` (R29). -/
  bytes : List Byte
  /-- `FERRS`, one absolute index per FramingErrorEvent (R29, 30_encoding R86). -/
  ferrs : List Nat
  deriving DecidableEq, Repr

/-- `BYTE` where it holds a value (10_state R28). -/
def Run.byte (r : Run) : Option Byte :=
  match r.phase with
  | .scan => none
  | .sample => none
  | .stopchk b => some b
  | .resync b => some b

/-- The session state (10_state R21, R22, R24, R25). -/
structure Session where
  /-- `OFF[0..7]`, `STOPOFF`, `SPARE` (R21). -/
  timing : TimingTable
  /-- `CHAN` (R22). -/
  chan : Nat
  /-- `CURSOR` (R24). -/
  cursor : Nat
  /-- `RUMP` (R25). -/
  rump : List SampleWord
  /-- The FEED in progress, if one runs (R20: "exists only while one FEED runs"). -/
  run : Option Run
  deriving DecidableEq, Repr

/-- The numbered causes (60_exceptions R201, R202, R205; 92 D15). -/
inductive ErrorCode where
  | samplerateInvalid
  | baudrateInvalid
  | channelOutOfRange
  | timingMalformed
  | noSession
  | framing
  deriving DecidableEq, Repr

/-- What an operation hands the host when it returns (60_exceptions R206, 30_encoding R87). -/
inductive Reply where
  /-- BUILD's TimingTable. -/
  | table (t : TimingTable)
  /-- ISHIGH's Boolean. -/
  | level (high : Bool)
  /-- START's success. -/
  | started
  /-- FEED's BYTES and FERRS. -/
  | fed (bytes : List Byte) (ferrs : List Nat)
  /-- FINISH's success. -/
  | finished
  /-- ConfigError or SequenceError, the only result of the operation that raised it. -/
  | error (code : ErrorCode)
  deriving DecidableEq, Repr

/-- How much of a FEED one step performs (00_scope R4; the model's own field, log entry 5): one micro-step,
or, where a frame starts in bounds, the whole frame as sampled (rows FRAME.OK and FRAME.ERR). -/
inductive Grain where
  | micro
  | frame
  deriving DecidableEq, Repr

/-- One block instance with its host side. -/
structure State where
  /-- The parameters of the instance (00_scope R7); no step changes them. -/
  params : Params
  /-- The model's own field: how much of a FEED one step performs. -/
  grain : Grain
  /-- The session, if there is one; its presence is `ACTIVE` (10_state R23, 93 U10). -/
  session : Option Session
  /-- Operations the host has issued and the block has not yet taken, oldest first (42_session_control R147). -/
  inbox : List Command
  /-- Results handed to the host, oldest first (60_exceptions R206). -/
  outbox : List Reply
  deriving DecidableEq, Repr

/-- Why the model stops although no rule of the spec does (both unreachable under the invariant of
10_state R37). -/
inductive Fault where
  /-- Raised by a micro-step or frame issued while no FEED runs: it would read a register that holds no
  value (10_state R35: "a read of it is a model fault, never a number"). Safe. -/
  | noValue
  /-- Raised by a read outside BUF (20_memory R58, 93 U4: "a fault, never a value"). Safe. -/
  | readOutsideBuffer
  deriving DecidableEq, Repr

/-- Why an instruction has no meaning where it stands. -/
inductive Refusal where
  /-- Raised by `exec` for an instruction without a meaning; none is left. Safe. -/
  | notModelled (mnemonic : String)
  /-- Raised by START, FEED and FINISH while a FEED runs: overlapping operations have "no meaning"
  (70_reset_and_hazards R244, 93 U7). Safe. -/
  | overlappingOperation
  /-- Raised by a micro-step or frame whose condition does not hold in the running FEED: there are no
  transitions but those of the table (43_feed_decoder R182). Safe. -/
  | notSelected
  /-- Raised by ISHIGH with `channel ≥ W`: "a model refuses it and never returns a value for it"
  (41_channel_extractor R131, 93 U5). Safe. -/
  | channelOutsideWord
  /-- Raised by FEED in a sized build whose index bits do not hold `N + SPARE`, or whose cursor bits do not hold
  CURSOR at the exit or an event index: "must refuse the FEED rather than wrap" (43_feed_decoder R177, 92 D6,
  93 U14; log entry 9). Safe. -/
  | feedDoesNotFit
  /-- Raised by the fetch of a command with code 101, 110 or 111 (30_encoding R87, 93 U11). Safe. -/
  | noSuchOperation (code : BitVec 3)
  /-- Raised by the fetch of a command whose operands are not values of the operation's operand types
  (30_encoding R87, R93). Safe. -/
  | malformedOperands (code : BitVec 3)
  deriving DecidableEq, Repr

/-- The answer of an instruction or a step. -/
abbrev Answer := Host.Outcome State Fault Refusal

/-- Power-on (70_reset_and_hazards R240, 10_state R35): `ACTIVE = 0` and no register holds a value; no
operation issued, no result handed over. -/
def State.reset : State :=
  { params := .reference, grain := .micro, session := none, inbox := [], outbox := [] }

end Sys2Proof.Machine
end

