-- ==== Sys2Proof/Machine/Flags.lean ====
section
/-! DEFINITION. The tests of the block: ACTIVE, ISHIGH, MemRead, Level, InBound, and the selector of the next
micro-step (10_state R32: the Boolean results are consumed inside one micro-step and not stored). -/

namespace Sys2Proof.Machine

/-- `ACTIVE` (10_state R23). -/
def State.active (s : State) : Bool := s.session.isSome

/-- A FEED is running. -/
def State.feeding (s : State) : Bool :=
  match s.session with
  | some ses => ses.run.isSome
  | none => false

/-- `(word & (1 << channel)) != 0` (41_channel_extractor R130, R132). -/
def isHigh (word : SampleWord) (channel : Nat) : Bool := (word &&& (1 <<< channel)) != 0

/-- `MemRead(j, 1)`: the word `BUF[j]`; nothing outside `0 ≤ j < N` (00_scope R10, 93 U4). -/
def memRead (buf : List SampleWord) (j : Nat) : Option SampleWord := buf[j]?

/-- `Level(j)` (43_feed_decoder R162). -/
def level (chan : Nat) (buf : List SampleWord) (j : Nat) : Option Bool :=
  (memRead buf j).map (isHigh · chan)

/-- `InBound(j)`: `j + SPARE ≤ N`, the form without subtraction (43_feed_decoder R162, 90 C9). -/
def inBound (t : TimingTable) (buf : List SampleWord) (j : Nat) : Bool :=
  decide (j + t.spare ≤ buf.length)

/-- The code of PHASE (30_encoding R88). -/
def Phase.code : Phase → BitVec 2
  | .scan => 0b00
  | .sample => 0b01
  | .stopchk _ => 0b10
  | .resync _ => 0b11

/-- The selector with an in-bound bit and a level bit (30_encoding R88). -/
def selectorBits (ph : Phase) (b l : Bool) : BitVec 4 :=
  ph.code ++ BitVec.ofBool b ++ BitVec.ofBool l

/-- The selector where the bound of the probe index is tested before its level (30_encoding R88): out of
bounds the level is not read. -/
def probedSelector (ses : Session) (r : Run) (probe : Nat) : Option (BitVec 4) :=
  if inBound ses.timing r.buf probe then
    (level ses.chan r.buf probe).map (selectorBits r.phase true)
  else some (selectorBits r.phase false false)

/-- The selector of the micro-step a running FEED performs next (30_encoding R88, 43_feed_decoder R182); a
bit that is not evaluated is 0. `none` where the probe lies outside BUF. -/
def selector (ses : Session) (r : Run) : Option (BitVec 4) :=
  match r.phase with
  | .scan => probedSelector ses r r.i
  | .sample => some (selectorBits r.phase false false)
  | .stopchk _ => (level ses.chan r.buf (r.i + ses.timing.stop)).map (selectorBits r.phase false)
  | .resync _ => probedSelector ses r (r.i + 1)

end Sys2Proof.Machine
end

