-- ==== Sys2Proof/Machine/Float.lean ====
section
/-! DEFINITION. The arithmetic of BUILD (40_timing_model R116): rounding to a binary format, `fdiv`, `fmul`,
`floor`, the test for a finite positive rate, and which numbers a format holds. -/

namespace Sys2Proof

/-- `num / den` to the nearest natural number, ties to even (R116). -/
def roundEven (num den : Nat) : Nat :=
  let q := num / den
  let r := num % den
  if 2 * r < den then q else if den < 2 * r then q + 1 else q + q % 2

/-- `num / den` measured in units of `2 ^ e`, rounded to nearest, ties to even. -/
def roundAt (num den : Nat) (e : Int) : Nat :=
  roundEven (num * 2 ^ (-e).toNat) (den * 2 ^ e.toNat)

/-- The exponent of `num / den > 0`: the integer `e` with `2 ^ e ≤ num / den < 2 ^ (e + 1)`. -/
def exponentOf (num den : Nat) : Int :=
  let e : Int := (Nat.log2 num : Int) - (Nat.log2 den : Int)
  if num * 2 ^ (-e).toNat < den * 2 ^ e.toNat then e - 1 else e

/-- The exponent of the last place a binary format keeps of `num / den > 0`; below the smallest normal
exponent `1 - emax` it no longer shrinks (subnormal numbers). -/
def lastPlace (prec emax num den : Nat) : Int :=
  max (exponentOf num den) (1 - emax) - ((prec : Int) - 1)

/-- The value of a binary format nearest to `num / den ≥ 0`, ties to even; past the largest finite
number it is infinite (R116, D7). -/
def roundBinary (prec emax : Nat) (num den : Nat) : Number :=
  if num = 0 then .finite false 0 1
  else
    let e := lastPlace prec emax num den
    let m := roundAt num den e
    if 2 ^ (emax + 1) * 2 ^ (-e).toNat ≤ m * 2 ^ e.toNat then .infinite false
    else .finite false (m * 2 ^ e.toNat) (2 ^ (-e).toNat)

/-- `x` with its sign turned when `negative`. -/
def Number.signed (negative : Bool) : Number → Number
  | .nan => .nan
  | .infinite n => .infinite (n != negative)
  | .finite n a b => .finite (n != negative) a b

/-- The value of the format for the quotient or product whose size is `num / den`. -/
def FloatFmt.round (fmt : FloatFmt) (negative : Bool) (num den : Nat) : Number :=
  match fmt with
  | .binary prec emax => Number.signed negative (roundBinary prec emax num den)
  | .exact => .finite negative num den
  | .other => .finite negative num den

/-- The quotient of two numbers, rounded once by `fmt`. -/
def divide (fmt : FloatFmt) : Number → Number → Number
  | .nan, _ => .nan
  | _, .nan => .nan
  | .infinite _, .infinite _ => .nan
  | .infinite s, .finite t _ _ => .infinite (s != t)
  | .finite s _ _, .infinite t => .finite (s != t) 0 1
  | .finite s a b, .finite t c d =>
    if c = 0 then (if a = 0 then .nan else .infinite (s != t))
    else FloatFmt.round fmt (s != t) (a * d) (b * c)

/-- The product of two numbers, rounded once by `fmt`. -/
def multiply (fmt : FloatFmt) : Number → Number → Number
  | .nan, _ => .nan
  | _, .nan => .nan
  | .infinite s, .infinite t => .infinite (s != t)
  | .infinite s, .finite t c _ => if c = 0 then .nan else .infinite (s != t)
  | .finite s a _, .infinite t => if a = 0 then .nan else .infinite (s != t)
  | .finite s a b, .finite t c d => FloatFmt.round fmt (s != t) (a * c) (b * d)

/-- `fdiv` (40_timing_model R112, R116). -/
def fdiv (fmt : FloatFmt) (x y : Number) : Number :=
  match fmt with
  | .other => Config.otherDiv x y
  | f => divide f x y

/-- `fmul` (40_timing_model R113, R116). -/
def fmul (fmt : FloatFmt) (x y : Number) : Number :=
  match fmt with
  | .other => Config.otherMul x y
  | f => multiply f x y

/-- "finite and > 0", the test of both rates (40_timing_model R110, R111). -/
def Number.isPositive : Number → Bool
  | .finite false a _ => decide (0 < a)
  | _ => false

/-- "is finite" (40_timing_model R110). -/
def Number.isFinite : Number → Bool
  | .finite _ _ _ => true
  | _ => false

/-- `floor` of a finite number `≥ 0` (00_scope R9, R116: exact); nothing else has one. -/
def Number.floor : Number → Option Nat
  | .finite false a b => some (a / b)
  | .finite true 0 _ => some 0
  | _ => none

/-- The number is a value of the format (40_timing_model R110: the rates are "two values of the
floating-point format `FLOAT_FMT`"). -/
def Number.isValueOf (fmt : FloatFmt) : Number → Bool
  | .finite _ a b =>
    decide (b ≠ 0) &&
      match fmt with
      | .binary prec emax =>
        match roundBinary prec emax a b with
        | .finite _ c d => decide (a * d = c * b)
        | _ => false
      | .exact => true
      | .other => true
  | _ => true

end Sys2Proof
end

