-- ==== Sys2Proof/Machine/Operands.lean ====
section
/-! DEFINITION. Assembly of operands: a byte from eight levels, a TimingTable from two rates, START's test of a
table, the size tests of a sized build, the zero operands of a bare code. -/

namespace Sys2Proof

/-- Bit `k` of a byte holding one level: `zext_8(level) << k` (43_feed_decoder R166). -/
def levelAt (l : Bool) (k : Nat) : Byte := if l then 1#8 <<< k else 0#8

/-- BYTE from the eight data levels in time order, the first at bit 0 (30_encoding R89, 20_memory R56). -/
def byteOfLevels (l0 l1 l2 l3 l4 l5 l6 l7 : Bool) : Byte :=
  levelAt l0 0 ||| levelAt l1 1 ||| levelAt l2 2 ||| levelAt l3 3
    ||| levelAt l4 4 ||| levelAt l5 5 ||| levelAt l6 6 ||| levelAt l7 7

/-- The multiplier `halves / 2` of a sample point: `1.5 + k` is `(2k + 3) / 2`, then 9.5 and 10
(40_timing_model R113 to R115). -/
def multiplier (halves : Nat) : Number := .finite false halves 2

/-- `floor` of one product of `skip`, where it is finite and fits a register (40_timing_model R110,
R113; R119 for a sized build). -/
def samplePoint (p : Params) (skip : Number) (halves : Nat) : Option Nat :=
  match (fmul p.fmt (multiplier halves) skip).floor with
  | some n => if p.fitsIdx n then some n else none
  | none => none

/-- The TimingTable of `skip` (30_encoding R90, 40_timing_model R113 to R115), if every entry exists. -/
def tableOfSkip (p : Params) (skip : Number) : Option TimingTable := do
  let o0 ← samplePoint p skip 3
  let o1 ← samplePoint p skip 5
  let o2 ← samplePoint p skip 7
  let o3 ← samplePoint p skip 9
  let o4 ← samplePoint p skip 11
  let o5 ← samplePoint p skip 13
  let o6 ← samplePoint p skip 15
  let o7 ← samplePoint p skip 17
  let stop ← samplePoint p skip 19
  let spare ← samplePoint p skip 20
  return { o0, o1, o2, o3, o4, o5, o6, o7, stop, spare }

/-- `WellFormed(timing)` of START (42_session_control R142): every offset is below `spareRoom`. -/
def TimingTable.wellFormed (t : TimingTable) : Bool :=
  decide (t.o0 < t.spare) && decide (t.o1 < t.spare) && decide (t.o2 < t.spare)
    && decide (t.o3 < t.spare) && decide (t.o4 < t.spare) && decide (t.o5 < t.spare)
    && decide (t.o6 < t.spare) && decide (t.o7 < t.spare) && decide (t.stop < t.spare)

/-- Every entry of the table fits its register (92 D6). -/
def TimingTable.fits (p : Params) (t : TimingTable) : Bool :=
  p.fitsIdx t.o0 && p.fitsIdx t.o1 && p.fitsIdx t.o2 && p.fitsIdx t.o3 && p.fitsIdx t.o4
    && p.fitsIdx t.o5 && p.fitsIdx t.o6 && p.fitsIdx t.o7 && p.fitsIdx t.stop && p.fitsIdx t.spare

/-- The table of zeros (95 V43). -/
def TimingTable.zero : TimingTable := ⟨0, 0, 0, 0, 0, 0, 0, 0, 0, 0⟩

/-- The operands of a bare CMD code: each operand of that operation at zero, a chunk empty
(30_encoding R87 gives the operands of each code). -/
def zeroOperands (code : BitVec 3) : List Operand :=
  match code.toNat with
  | 0 => [.rate (.ofNat 0), .rate (.ofNat 0)]
  | 1 => [.word 0, .natural 0]
  | 2 => [.table .zero, .natural 0]
  | 3 => [.chunk []]
  | _ => []

end Sys2Proof
end

