-- ==== Sys2Proof/Machine/Ops.lean ====
section
/-! DEFINITION. The operations every meaning is built from: handing over a result, raising an error, opening and
closing a session, entering and leaving a FEED, reading levels, taking a framing error and returning from it. -/

namespace Sys2Proof.Machine

/-- The number of a cause (60_exceptions R201, R202, R205; 92 D15). -/
def ErrorCode.number : ErrorCode → Nat
  | .samplerateInvalid => 1
  | .baudrateInvalid => 2
  | .channelOutOfRange => 3
  | .timingMalformed => 4
  | .noSession => 5
  | .framing => 6

/-- The events of a reply for the diagnostic channel: number and absolute index (60_exceptions R202, R215). -/
def Reply.diagnostics : Reply → List (Nat × Nat)
  | .fed _ ferrs => ferrs.map fun a => (ErrorCode.framing.number, a)
  | .table _ => []
  | .level _ => []
  | .started => []
  | .finished => []
  | .error _ => []

/-- The operation returns with this result (60_exceptions R206). -/
def State.deliver (s : State) (r : Reply) : State := { s with outbox := s.outbox ++ [r] }

/-- `raise ConfigError(code)` and `raise SequenceError(code)`: the operation ends with the code as its only
result (60_exceptions R206, R209; 00_scope R10). The one way an error is taken. -/
def State.raise (s : State) (c : ErrorCode) : Answer := .next (s.deliver (.error c))

/-- No session: `ACTIVE <- 0` and every other register holds no value (10_state R35). -/
def State.closeSession (s : State) : State := { s with session := none }

/-- What START latches (42_session_control R140): the table and channel, RUMP empty, CURSOR 0. -/
def Session.fresh (t : TimingTable) (channel : Nat) : Session :=
  { timing := t, chan := channel, cursor := 0, rump := [], run := none }

/-- `ACTIVE <- 1` with these registers. -/
def State.openSession (s : State) (ses : Session) : State := { s with session := some ses }

/-- START, FEED and FINISH have no meaning while a FEED runs (70_reset_and_hazards R244). -/
def State.betweenOperations (s : State) (k : Answer) : Answer :=
  if s.feeding then .refused .overlappingOperation else k

/-- FEED and FINISH test ACTIVE before anything else (60_exceptions R205, R207). -/
def State.inSession (s : State) (k : Session → Answer) : Answer :=
  match s.session with
  | none => s.raise .noSession
  | some ses => k ses

/-- The buffer FEED forms (43_feed_decoder R161, 20_memory R51). -/
def Session.feedBuffer (ses : Session) (chunk : List SampleWord) : List SampleWord := ses.rump ++ chunk

/-- FEED entry (43_feed_decoder R161). -/
def Session.enterFeed (ses : Session) (chunk : List SampleWord) : Session :=
  { ses with run := some { buf := ses.feedBuffer chunk, phase := .scan, i := 0, bytes := [], ferrs := [] } }

/-- FEED exit with the final `I` (43_feed_decoder R172, 20_memory R60). -/
def State.exitFeed (s : State) (ses : Session) (r : Run) (i : Nat) : State :=
  { s with
    session := some { ses with rump := r.buf.drop i, cursor := ses.cursor + i, run := none }
    outbox := s.outbox ++ [.fed r.bytes r.ferrs] }

/-- The running FEED goes on as `r`. -/
def State.setRun (s : State) (ses : Session) (r : Run) : State :=
  { s with session := some { ses with run := some r } }

/-- A micro-step reads the FEED-local registers: a fault where they hold no value (10_state R35). -/
def State.onFeed (s : State) (k : Session → Run → Answer) : Answer :=
  match s.session with
  | none => .fault .noValue
  | some ses =>
    match ses.run with
    | none => .fault .noValue
    | some r => k ses r

/-- The condition of a micro-step. -/
def require (c : Bool) (k : Answer) : Answer := if c then k else .refused .notSelected

/-- A value read from BUF: a fault where an index lies outside (93 U4). -/
def withRead {α : Type} (v : Option α) (k : α → Answer) : Answer :=
  match v with
  | none => .fault .readOutsideBuffer
  | some x => k x

/-- The condition on the level at `j` (43_feed_decoder R163 to R171). -/
def requireLevel (ses : Session) (r : Run) (j : Nat) (high : Bool) (k : Answer) : Answer :=
  withRead (level ses.chan r.buf j) fun l => require (l == high) k

/-- The eight reads of SAMPLE at start index `i` and the byte they make (43_feed_decoder R166, 30_encoding R89). -/
def sampleByte (t : TimingTable) (chan : Nat) (buf : List SampleWord) (i : Nat) : Option Byte := do
  let l0 ← level chan buf (i + t.off 0)
  let l1 ← level chan buf (i + t.off 1)
  let l2 ← level chan buf (i + t.off 2)
  let l3 ← level chan buf (i + t.off 3)
  let l4 ← level chan buf (i + t.off 4)
  let l5 ← level chan buf (i + t.off 5)
  let l6 ← level chan buf (i + t.off 6)
  let l7 ← level chan buf (i + t.off 7)
  return byteOfLevels l0 l1 l2 l3 l4 l5 l6 l7

/-- `PHASE = SCAN`. -/
def Phase.isScan : Phase → Bool
  | .scan => true
  | _ => false

/-- `PHASE = SAMPLE`. -/
def Phase.isSample : Phase → Bool
  | .sample => true
  | _ => false

/-- `I <- I + STOPOFF; BYTES.append(BYTE); PHASE <- SCAN`: a valid stop bit (43_feed_decoder R167). -/
def Run.keepByte (r : Run) (byte : Byte) (i : Nat) : Run :=
  { r with i := i, bytes := r.bytes ++ [byte], phase := .scan }

/-- Taking a framing error at the stop sample, local index `i` (43_feed_decoder R168, 60_exceptions R202,
R208): the absolute index `CURSOR + i` goes to FERRS, BYTE stays, PHASE becomes RESYNC. -/
def Run.takeFramingError (r : Run) (cursor : Nat) (byte : Byte) (i : Nat) : Run :=
  { r with i := i, ferrs := r.ferrs ++ [cursor + i], phase := .resync byte }

/-- The return from a framing error, the line high again at `i` (43_feed_decoder R170, 60_exceptions R210):
the byte sampled before the error is kept and SCAN goes on at `i`. -/
def Run.returnFromFramingError (r : Run) (byte : Byte) (i : Nat) : Run := r.keepByte byte i

end Sys2Proof.Machine
end

