-- ==== Sys2Proof/Machine/Channel.lean ====
section
/-! DEFINITION. The Channel Extractor: ISHIGH (41_channel_extractor). -/

namespace Sys2Proof.Machine

/-- ISHIGH, CMD 001 (41_channel_extractor R130, R133); for `channel ≥ W` it is refused and has no value
(R131, 93 U5). -/
def execIshigh (word : SampleWord) (channel : Nat) (s : State) : Answer :=
  if channel < s.params.w then .next (s.deliver (.level (isHigh word channel)))
  else .refused .channelOutsideWord

end Sys2Proof.Machine
end

