-- ==== Sys2Proof/Machine/Control.lean ====
section
/-! DEFINITION. Session control: START and FINISH (42_session_control). -/

namespace Sys2Proof.Machine

/-- The checks of START and what it latches (42_session_control R140 to R142): the channel is tested before
the table (60_exceptions R207); a table that does not fit a sized build is malformed too (92 D6). -/
def startSession (p : Params) (timing : TimingTable) (channel : Nat) : Except ErrorCode Session :=
  if channel < p.w then
    if timing.wellFormed && timing.fits p then .ok (.fresh timing channel)
    else .error .timingMalformed
  else .error .channelOutOfRange

/-- START, CMD 010 (42_session_control R140, R143, R144): any earlier session ends first, so a failing
START leaves none. -/
def execStart (timing : TimingTable) (channel : Nat) (s : State) : Answer :=
  s.betweenOperations <|
    match startSession s.params timing channel with
    | .ok ses => .next ((s.openSession ses).deliver .started)
    | .error c => s.closeSession.raise c

/-- What FINISH makes of the session (42_session_control R145; 60_exceptions R205): it is dropped with its RUMP;
without one the cause is NO_SESSION. -/
def finishSession : Option Session → Except ErrorCode (Option Session)
  | none => .error .noSession
  | some _ => .ok none

/-- FINISH, CMD 100 (42_session_control R145, R146): the session ends, RUMP is dropped, nothing is output. -/
def execFinish (s : State) : Answer :=
  s.betweenOperations <|
    match finishSession s.session with
    | .ok left => .next ({ s with session := left }.deliver .finished)
    | .error c => s.raise c

end Sys2Proof.Machine
end

