-- ==== Sys2Proof/Machine/Loops.lean ====
section
/-! DEFINITION. The loops of FEED as one procedure (43_feed_decoder R173), where they end from any state of a running
FEED, and with them the size test of a sized build. -/

namespace Sys2Proof.Machine

/-- How RESYNC ends: the line high at an index in bounds, byte kept (RESYNC.DONE), or the bound passed at an
index, byte dropped (RESYNC.EXIT). The third name of the source is never produced (43_feed_decoder R180). -/
inductive ResyncEnd where
  | kept (i : Nat)
  | exhausted (i : Nat)
  deriving DecidableEq, Repr

/-- The `resync:` loop of R173 from local index `i`, where the line is low. `none` is a read outside BUF or no
fuel. -/
def resyncLoop (t : TimingTable) (chan : Nat) (buf : List SampleWord) : Nat → Nat → Option ResyncEnd
  | 0, _ => none
  | fuel + 1, i =>
    if inBound t buf (i + 1) then
      match level chan buf (i + 1) with
      | none => none
      | some true => some (.kept (i + 1))
      | some false => resyncLoop t chan buf fuel (i + 1)
    else some (.exhausted (i + 1))

/-- What a FEED leaves with: the final `I`, BYTES, FERRS, and whether through RESYNC.EXIT. -/
structure FeedEnd where
  i : Nat
  bytes : List Byte
  ferrs : List Nat
  resyncExit : Bool
  deriving DecidableEq, Repr

/-- The `loop:` of R173 at local index `i` with the outputs so far. -/
def scanLoop (t : TimingTable) (chan cursor : Nat) (buf : List SampleWord) :
    Nat → Nat → List Byte → List Nat → Option FeedEnd
  | 0, _, _, _ => none
  | fuel + 1, i, bytes, ferrs =>
    if inBound t buf i then
      match level chan buf i with
      | none => none
      | some true => scanLoop t chan cursor buf fuel (i + 1) bytes ferrs
      | some false =>
        match sampleByte t chan buf i, level chan buf (i + t.stop) with
        | some byte, some true =>
          scanLoop t chan cursor buf fuel (i + t.stop) (bytes ++ [byte]) ferrs
        | some byte, some false =>
          match resyncLoop t chan buf (buf.length + 1) (i + t.stop) with
          | some (.kept j) =>
            scanLoop t chan cursor buf fuel j (bytes ++ [byte]) (ferrs ++ [cursor + (i + t.stop)])
          | some (.exhausted j) => some ⟨j, bytes, ferrs ++ [cursor + (i + t.stop)], true⟩
          | none => none
        | _, _ => none
    else some ⟨i, bytes, ferrs, false⟩

/-- The whole loop of a FEED over `buf` (R173). Every turn raises `i`, so `N + 1` turns are enough. -/
def feedLoop (t : TimingTable) (chan cursor : Nat) (buf : List SampleWord) : Option FeedEnd :=
  scanLoop t chan cursor buf (buf.length + 1) 0 [] []

/-- The end of a FEED from RESYNC at a low index `i` with BYTE `b` and these events (R169 to R171). -/
def finishResync (ses : Session) (r : Run) (b : Byte) (i : Nat) (ferrs : List Nat) : Option FeedEnd :=
  match resyncLoop ses.timing ses.chan r.buf (r.buf.length + 1) i with
  | some (.kept j) => scanLoop ses.timing ses.chan ses.cursor r.buf (r.buf.length + 1) j (r.bytes ++ [b]) ferrs
  | some (.exhausted j) => some ⟨j, r.bytes, ferrs, true⟩
  | none => none

/-- The end of a FEED from STOPCHK with BYTE `b` (R167, R168). -/
def finishStop (ses : Session) (r : Run) (b : Byte) : Option FeedEnd :=
  match level ses.chan r.buf (r.i + ses.timing.stop) with
  | some true =>
    scanLoop ses.timing ses.chan ses.cursor r.buf (r.buf.length + 1) (r.i + ses.timing.stop) (r.bytes ++ [b]) r.ferrs
  | some false =>
    finishResync ses r b (r.i + ses.timing.stop) (r.ferrs ++ [ses.cursor + (r.i + ses.timing.stop)])
  | none => none

/-- Where a running FEED will leave, and with which outputs, from the phase it is in. -/
def finishRun (ses : Session) (r : Run) : Option FeedEnd :=
  match r.phase with
  | .scan => scanLoop ses.timing ses.chan ses.cursor r.buf (r.buf.length + 1) r.i r.bytes r.ferrs
  | .sample =>
    match sampleByte ses.timing ses.chan r.buf r.i with
    | some b => finishStop ses r b
    | none => none
  | .stopchk b => finishStop ses r b
  | .resync b => finishResync ses r b r.i r.ferrs

/-- CURSOR at the exit and every event index fit their registers (00_scope R7 `CUR_BITS`, 92 D6). -/
def FeedEnd.fits (p : Params) (cursor : Nat) (e : FeedEnd) : Bool :=
  p.fitsCur (cursor + e.i) && e.ferrs.all p.fitsCur

/-- A sized build holds this FEED (92 D6, log entry 9): `N + SPARE` fits an index (43_feed_decoder R177), and
CURSOR at its exit and its event indices fit the cursor. An unbounded cursor needs no test. -/
def Session.feedFits (p : Params) (ses : Session) (chunk : List SampleWord) : Bool :=
  p.fitsIdx ((ses.feedBuffer chunk).length + ses.timing.spare)
    && (p.curBits.isNone
      || (feedLoop ses.timing ses.chan ses.cursor (ses.feedBuffer chunk)).all (FeedEnd.fits p ses.cursor))

end Sys2Proof.Machine
end

