-- ==== Sys2Proof/Machine/Feed.lean ====
section
/-! DEFINITION. The Streaming UART Decoder: FEED and its nine micro-steps (43_feed_decoder). -/

namespace Sys2Proof.Machine

/-- FEED, CMD 011 (43_feed_decoder R160, R161): SequenceError without a session, else the entry; the
micro-steps below then run one after another until an exit hands over BYTES and FERRS (R172). -/
def execFeed (chunk : List SampleWord) (s : State) : Answer :=
  s.betweenOperations <| s.inSession fun ses =>
    if ses.feedFits s.params chunk then .next (s.openSession (ses.enterFeed chunk))
    else .refused .feedDoesNotFit

/-- SCAN.SKIP, SEL 0011 (43_feed_decoder R163). -/
def execScanSkip (s : State) : Answer :=
  s.onFeed fun ses r =>
    require (r.phase.isScan && inBound ses.timing r.buf r.i) <|
      requireLevel ses r r.i true <| .next (s.setRun ses { r with i := r.i + 1 })

/-- SCAN.START, SEL 0010 (43_feed_decoder R164). -/
def execScanStart (s : State) : Answer :=
  s.onFeed fun ses r =>
    require (r.phase.isScan && inBound ses.timing r.buf r.i) <|
      requireLevel ses r r.i false <| .next (s.setRun ses { r with phase := .sample })

/-- SCAN.EXIT, SEL 000x (43_feed_decoder R165): the level is not read. -/
def execScanExit (s : State) : Answer :=
  s.onFeed fun ses r =>
    require (r.phase.isScan && !inBound ses.timing r.buf r.i) <| .next (s.exitFeed ses r r.i)

/-- SAMPLE, SEL 01xx (43_feed_decoder R166). -/
def execSample (s : State) : Answer :=
  s.onFeed fun ses r =>
    require r.phase.isSample <|
      withRead (sampleByte ses.timing ses.chan r.buf r.i) fun b =>
        .next (s.setRun ses { r with phase := .stopchk b })

/-- STOPCHK.OK, SEL 10x1 (43_feed_decoder R167). -/
def execStopchkOk (s : State) : Answer :=
  s.onFeed fun ses r =>
    match r.phase with
    | .stopchk b =>
      requireLevel ses r (r.i + ses.timing.stop) true <|
        .next (s.setRun ses (r.keepByte b (r.i + ses.timing.stop)))
    | _ => .refused .notSelected

/-- STOPCHK.ERR, SEL 10x0 (43_feed_decoder R168). -/
def execStopchkErr (s : State) : Answer :=
  s.onFeed fun ses r =>
    match r.phase with
    | .stopchk b =>
      requireLevel ses r (r.i + ses.timing.stop) false <|
        .next (s.setRun ses (r.takeFramingError ses.cursor b (r.i + ses.timing.stop)))
    | _ => .refused .notSelected

/-- RESYNC.HOLD, SEL 1110 (43_feed_decoder R169). -/
def execResyncHold (s : State) : Answer :=
  s.onFeed fun ses r =>
    match r.phase with
    | .resync _ =>
      require (inBound ses.timing r.buf (r.i + 1)) <|
        requireLevel ses r (r.i + 1) false <| .next (s.setRun ses { r with i := r.i + 1 })
    | _ => .refused .notSelected

/-- RESYNC.DONE, SEL 1111 (43_feed_decoder R170). -/
def execResyncDone (s : State) : Answer :=
  s.onFeed fun ses r =>
    match r.phase with
    | .resync b =>
      require (inBound ses.timing r.buf (r.i + 1)) <|
        requireLevel ses r (r.i + 1) true <| .next (s.setRun ses (r.returnFromFramingError b (r.i + 1)))
    | _ => .refused .notSelected

/-- RESYNC.EXIT, SEL 110x (43_feed_decoder R171): BYTE is dropped, the level is not read. -/
def execResyncExit (s : State) : Answer :=
  s.onFeed fun ses r =>
    match r.phase with
    | .resync _ =>
      require (!inBound ses.timing r.buf (r.i + 1)) <| .next (s.exitFeed ses r (r.i + 1))
    | _ => .refused .notSelected

end Sys2Proof.Machine
end

