-- ==== Sys2Proof/WellFormed.lean ====
section
/-! DEFINITION. Which operations can be written down for an instance: every operand is a value of its type. -/

namespace Sys2Proof

/-- A SampleWord of the instance: an unsigned integer of `W` bits (30_encoding R81). -/
def wordFits (p : Params) (w : SampleWord) : Bool := decide (w < 2 ^ p.w)

/-- A rate of BUILD is a value of `FLOAT_FMT` (40_timing_model R110); the word of ISHIGH and every word
of a chunk has `W` bits (41_channel_extractor R130, 43_feed_decoder R160). Channels and table entries are
any natural numbers (R84, R140): START itself checks those. -/
def Instr.wellFormed (p : Params) : Instr → Bool
  | .build sr br => sr.isValueOf p.fmt && br.isValueOf p.fmt
  | .ishigh word _ => wordFits p word
  | .start _ _ => true
  | .feed chunk => chunk.all (wordFits p)
  | .finish => true
  | .scanSkip => true
  | .scanStart => true
  | .scanExit => true
  | .sample => true
  | .stopchkOk => true
  | .stopchkErr => true
  | .resyncHold => true
  | .resyncDone => true
  | .resyncExit => true
  | .frameOk _ => true
  | .frameErr _ => true

end Sys2Proof
end

