-- ==== Sys2Proof/Decode.lean ====
section
/-! DEFINITION. The decoder of the three formats of spec/opcode_table.json, its encoder, and the table's words
as the host numbers their bits. -/

namespace Sys2Proof

/-- Why a coded row spells no instruction. -/
inductive DecodeError where
  /-- CMD 101, 110, 111 "spell no operation" (30_encoding R87, R91). -/
  | noOperation (code : BitVec 3)
  /-- The operands are not those of the code (30_encoding R87, R93). -/
  | wrongOperands (code : BitVec 3)
  /-- The first of the ten levels is high, so the ten are no frame (30_encoding R83). -/
  | startHigh (levels : BitVec 10)
  deriving DecidableEq, Repr

/-- The operation a command names (30_encoding R87, R93). -/
def decodeCommand (c : Command) : Except DecodeError Instr :=
  match c.code.toNat, c.operands with
  | 0, [.rate sr, .rate br] => .ok (.build sr br)
  | 1, [.word w, .natural ch] => .ok (.ishigh w ch)
  | 2, [.table t, .natural ch] => .ok (.start t ch)
  | 3, [.chunk ws] => .ok (.feed ws)
  | 4, [] => .ok .finish
  | n, _ => if n < 5 then .error (.wrongOperands c.code) else .error (.noOperation c.code)

/-- The micro-step a selector `p p b l` names (30_encoding R88): total, every selector names one. -/
def decodeSelector (v : BitVec 4) : Instr :=
  match v.getLsbD 3, v.getLsbD 2, v.getLsbD 1, v.getLsbD 0 with
  | false, false, true, true => .scanSkip
  | false, false, true, false => .scanStart
  | false, false, false, _ => .scanExit
  | false, true, _, _ => .sample
  | true, false, _, true => .stopchkOk
  | true, false, _, false => .stopchkErr
  | true, true, true, false => .resyncHold
  | true, true, true, true => .resyncDone
  | true, true, false, _ => .resyncExit

/-- The data byte of ten levels in time order: data bit `k` stands at bit `8 - k` (30_encoding R82,
R83; opcode_table.json rows FRAME.OK and FRAME.ERR). -/
def frameByte (v : BitVec 10) : Byte :=
  byteOfLevels (v.getLsbD 8) (v.getLsbD 7) (v.getLsbD 6) (v.getLsbD 5)
    (v.getLsbD 4) (v.getLsbD 3) (v.getLsbD 2) (v.getLsbD 1)

/-- The frame ten sampled levels make: start low, eight data bits, stop high or low (30_encoding R83). -/
def decodeFrame (v : BitVec 10) : Except DecodeError Instr :=
  match v.getLsbD 9, v.getLsbD 0 with
  | true, _ => .error (.startHigh v)
  | false, true => .ok (.frameOk (frameByte v))
  | false, false => .ok (.frameErr (frameByte v))

/-- The decoder. -/
def decode : Encoded → Except DecodeError Instr
  | .cmd c => decodeCommand c
  | .sel v => .ok (decodeSelector v)
  | .sf v => decodeFrame v

/-- The ten levels of a frame with this byte and stop level, first sample at bit 9 (30_encoding R82). -/
def frameLevels (byte : Byte) (stop : Bool) : BitVec 10 :=
  0#1 ++ BitVec.ofBool (byte.getLsbD 0) ++ BitVec.ofBool (byte.getLsbD 1) ++ BitVec.ofBool (byte.getLsbD 2)
    ++ BitVec.ofBool (byte.getLsbD 3) ++ BitVec.ofBool (byte.getLsbD 4) ++ BitVec.ofBool (byte.getLsbD 5)
    ++ BitVec.ofBool (byte.getLsbD 6) ++ BitVec.ofBool (byte.getLsbD 7) ++ BitVec.ofBool stop

/-- The encoder, from the tables of 30_encoding R87, R88 and R95; a bit the table writes `x` is 0. -/
def encode : Instr → Encoded
  | .build sr br => .cmd ⟨0b000, [.rate sr, .rate br]⟩
  | .ishigh w ch => .cmd ⟨0b001, [.word w, .natural ch]⟩
  | .start t ch => .cmd ⟨0b010, [.table t, .natural ch]⟩
  | .feed ws => .cmd ⟨0b011, [.chunk ws]⟩
  | .finish => .cmd ⟨0b100, []⟩
  | .scanSkip => .sel 0b0011
  | .scanStart => .sel 0b0010
  | .scanExit => .sel 0b0000
  | .sample => .sel 0b0100
  | .stopchkOk => .sel 0b1001
  | .stopchkErr => .sel 0b1000
  | .resyncHold => .sel 0b1110
  | .resyncDone => .sel 0b1111
  | .resyncExit => .sel 0b1100
  | .frameOk byte => .sf (frameLevels byte true)
  | .frameErr byte => .sf (frameLevels byte false)

/-- The coded row of a word of opcode_table.json given by its bits. The format is told by the number of
bits: 3 CMD, 4 SEL, 10 SF; counted in whole bytes, 16 is SF, and 8 is CMD for the codes 0 to 4 and SEL
for 5 to 15 (log entry 8: one byte cannot tell CMD from SEL below 5). A CMD code takes zero operands. -/
def tableEncoded (nbits w : Nat) : Option Encoded :=
  match nbits with
  | 3 => if w < 8 then some (.cmd ⟨BitVec.ofNat 3 w, zeroOperands (BitVec.ofNat 3 w)⟩) else none
  | 4 => if w < 16 then some (.sel (BitVec.ofNat 4 w)) else none
  | 8 =>
    if w < 5 then some (.cmd ⟨BitVec.ofNat 3 w, zeroOperands (BitVec.ofNat 3 w)⟩)
    else if w < 16 then some (.sel (BitVec.ofNat 4 w))
    else none
  | 10 => if w < 1024 then some (.sf (BitVec.ofNat 10 w)) else none
  | 16 => if w < 1024 then some (.sf (BitVec.ofNat 10 w)) else none
  | _ => none

/-- The instruction the decoder reads from a word of opcode_table.json. -/
def decodeTableWord (nbits w : Nat) : Option Instr :=
  match tableEncoded nbits w with
  | none => none
  | some e =>
    match decode e with
    | .ok i => some i
    | .error _ => none

end Sys2Proof
end

