-- ==== Sys2Proof/Machine/Frame.lean ====
section
/-! DEFINITION. The frame as sampled (format SF, 30_encoding R83): rows FRAME.OK and FRAME.ERR, the whole of
SCAN.START, SAMPLE and STOPCHK for one frame. -/

namespace Sys2Proof.Machine

/-- The ten levels of the frame that starts at `I`, first sample at bit 9 (30_encoding R82, R83). -/
def sampledFrame (ses : Session) (r : Run) : Option (BitVec 10) := do
  let first ← level ses.chan r.buf r.i
  let b ← sampleByte ses.timing ses.chan r.buf r.i
  let last ← level ses.chan r.buf (r.i + ses.timing.stop)
  return BitVec.ofBool first ++ (frameLevels b last).setWidth 9

/-- A frame row runs where SCAN stands on an in-bound start index and the ten sample points read these
levels (43_feed_decoder R164, R166; 30_encoding R83, R91). -/
def onFrame (s : State) (levels : BitVec 10) (k : Session → Run → Answer) : Answer :=
  s.onFeed fun ses r =>
    require (r.phase.isScan && inBound ses.timing r.buf r.i) <|
      withRead (sampledFrame ses r) fun v => require (v == levels) <| k ses r

/-- FRAME.OK, SF 0abcdefgh1 (43_feed_decoder R167 after R164 and R166). -/
def execFrameOk (byte : Byte) (s : State) : Answer :=
  onFrame s (frameLevels byte true) fun ses r =>
    .next (s.setRun ses (r.keepByte byte (r.i + ses.timing.stop)))

/-- FRAME.ERR, SF 0abcdefgh0 (43_feed_decoder R168 after R164 and R166): RESYNC decides on the byte. -/
def execFrameErr (byte : Byte) (s : State) : Answer :=
  onFrame s (frameLevels byte false) fun ses r =>
    .next (s.setRun ses (r.takeFramingError ses.cursor byte (r.i + ses.timing.stop)))

end Sys2Proof.Machine
end

