-- ==== Sys2Proof/Machine/Timing.lean ====
section
/-! DEFINITION. The Timing Model: BUILD (40_timing_model). -/

namespace Sys2Proof.Machine

/-- The result of BUILD (40_timing_model R110 to R115): the samplerate is tested before the baudrate
(60_exceptions R207), `skip` and every product must be finite and fit. -/
def buildTable (p : Params) (samplerate baudrate : Number) : Except ErrorCode TimingTable :=
  if samplerate.isPositive then
    if baudrate.isPositive then
      let skip := fdiv p.fmt samplerate baudrate
      if skip.isFinite then
        match tableOfSkip p skip with
        | some t => .ok t
        | none => .error .timingMalformed
      else .error .timingMalformed
    else .error .baudrateInvalid
  else .error .samplerateInvalid

/-- BUILD, CMD 000 (40_timing_model R110, R117): pure, may be issued at any time. -/
def execBuild (samplerate baudrate : Number) (s : State) : Answer :=
  match buildTable s.params samplerate baudrate with
  | .ok t => .next (s.deliver (.table t))
  | .error c => s.raise c

end Sys2Proof.Machine
end

