-- ==== Sys2Proof/Machine/Dispatch.lean ====
section
/-! DEFINITION. The one match from an instruction to its meaning. -/

namespace Sys2Proof.Machine

def exec (i : Instr) (s : State) : Host.Outcome State Fault Refusal :=
  match i with
  | .build samplerate baudrate => Sys2Proof.Machine.execBuild samplerate baudrate s
  | .ishigh word channel => Sys2Proof.Machine.execIshigh word channel s
  | .start timing channel => Sys2Proof.Machine.execStart timing channel s
  | .feed chunk => Sys2Proof.Machine.execFeed chunk s
  | .finish => Sys2Proof.Machine.execFinish s
  | .scanSkip => Sys2Proof.Machine.execScanSkip s
  | .scanStart => Sys2Proof.Machine.execScanStart s
  | .scanExit => Sys2Proof.Machine.execScanExit s
  | .sample => Sys2Proof.Machine.execSample s
  | .stopchkOk => Sys2Proof.Machine.execStopchkOk s
  | .stopchkErr => Sys2Proof.Machine.execStopchkErr s
  | .resyncHold => Sys2Proof.Machine.execResyncHold s
  | .resyncDone => Sys2Proof.Machine.execResyncDone s
  | .resyncExit => Sys2Proof.Machine.execResyncExit s
  | .frameOk byte => Sys2Proof.Machine.execFrameOk byte s
  | .frameErr byte => Sys2Proof.Machine.execFrameErr byte s

end Sys2Proof.Machine
end

