-- ==== Sys2Proof/Machine/Fetch.lean ====
section
/-! DEFINITION. What the block does next: the micro-step or frame a running FEED selects, else the oldest operation
the host has issued; and the state in which a coded row is the next one. -/

namespace Sys2Proof.Machine

/-- What a step finds to do. -/
inductive Fetched where
  /-- Nothing runs and nothing is issued: the block is idle (60_exceptions R216). -/
  | idle
  /-- An instruction, and the state it runs in. -/
  | instr (i : Instr) (s : State)
  /-- The step stops with a refusal. -/
  | refused (r : Refusal)
  /-- The step stops with a fault. -/
  | fault (f : Fault)

/-- The coded row a running FEED is at: the selector of its micro-step (30_encoding R88), or, in grain
`frame`, where SCAN stands on an in-bound low sample, the frame as sampled (30_encoding R83). -/
def nextRow (g : Grain) (ses : Session) (r : Run) : Option Encoded :=
  match g, selector ses r with
  | _, none => none
  | .micro, some v => some (.sel v)
  | .frame, some v =>
    if v = 0b0010#4 then (sampledFrame ses r).map .sf else some (.sel v)

/-- The decoder's answer for a row of a running FEED. -/
def fetchRow (s : State) (row : Option Encoded) : Fetched :=
  match row with
  | none => .fault .readOutsideBuffer
  | some e =>
    match decode e with
    | .ok i => .instr i s
    | .error _ => .refused .notSelected

/-- The decoder's answer for an issued operation, run in the state that has taken it from the inbox
(30_encoding R87, R91): its operands must be values of their types. -/
def fetchCommand (s : State) (c : Command) (rest : List Command) : Fetched :=
  match decode (.cmd c) with
  | .ok i =>
    if i.wellFormed s.params then .instr i { s with inbox := rest }
    else .refused (.malformedOperands c.code)
  | .error (.noOperation code) => .refused (.noSuchOperation code)
  | .error (.wrongOperands code) => .refused (.malformedOperands code)
  | .error (.startHigh _) => .refused .notSelected

/-- The oldest operation of the inbox, if there is one. -/
def fetchInbox (s : State) : Fetched :=
  match s.inbox with
  | [] => .idle
  | c :: rest => fetchCommand s c rest

/-- What the block does next: a running FEED goes on to its end before the next operation is taken
(20_memory R62, R63; 00_scope R3). -/
def State.fetch (s : State) : Fetched :=
  match s.session with
  | none => fetchInbox s
  | some ses =>
    match ses.run with
    | none => fetchInbox s
    | some r => fetchRow s (nextRow s.grain ses r)

/-- The table `BUILD 1, 1` gives (95 T1), the shortest in which the ten sample points are ten words. -/
def unitTable : TimingTable :=
  ⟨1, 2, 3, 4, 5, 6, 7, 8, 9, 10⟩

/-- A word with bit 0 at this level. -/
def lineWord (high : Bool) : SampleWord := if high then 1 else 0

/-- A session on channel 0 with the table T1 in which a FEED runs as `r`. -/
def Session.feeding (r : Run) : Session :=
  { timing := unitTable, chan := 0, cursor := 0, rump := [], run := some r }

/-- A FEED at `I = 0` whose probe word `BUF[probe]` is at `high` and every other word low, with `n` words. -/
def probeRun (ph : Phase) (probe n : Nat) (high : Bool) : Run :=
  { buf := (List.range n).map fun j => lineWord (high && j == probe)
    phase := ph, i := 0, bytes := [], ferrs := [] }

/-- A running FEED whose selector has these bits (30_encoding R88). With T1 the bound of SCAN at 0 needs 10
words, of RESYNC at 1 needs 11. -/
def selectedRun (v : BitVec 4) : Run :=
  match v.getLsbD 3, v.getLsbD 2 with
  | false, false => probeRun .scan 0 (if v.getLsbD 1 then 10 else 9) (v.getLsbD 0)
  | false, true => probeRun .sample 0 10 false
  | true, false => probeRun (.stopchk 0) 9 10 (v.getLsbD 0)
  | true, true => probeRun (.resync 0) 1 (if v.getLsbD 1 then 11 else 10) (v.getLsbD 0)

/-- A running FEED over ten words whose sample points under T1 read these ten levels, first at bit 9. -/
def framedRun (v : BitVec 10) : Run :=
  { buf := (List.range 10).map fun j => lineWord (v.getLsbD (9 - j))
    phase := .scan, i := 0, bytes := [], ferrs := [] }

/-- The session with no FEED running. -/
def State.withoutRun (s : State) : State :=
  match s.session with
  | none => s
  | some ses => { s with session := some { ses with run := none } }

/-- A state in which this coded row is the next one (log entry 10): an operation is put at the head of the
inbox of a block in which no FEED runs; a selector or a frame needs a running FEED that selects it. -/
def State.placeRow (s : State) (e : Encoded) : State :=
  match e with
  | .cmd c => { s.withoutRun with inbox := c :: s.inbox }
  | .sel v => { s with grain := .micro, session := some (Session.feeding (selectedRun v)) }
  | .sf v => { s with grain := .frame, session := some (Session.feeding (framedRun v)) }

end Sys2Proof.Machine
end

