-- ==== Sys2Proof/Machine/Step.lean ====
section
/-! DEFINITION. One step of the block, and the state in which a word of opcode_table.json is the next row. -/

namespace Sys2Proof.Machine

/-- One step: the instruction the block is at runs; an idle block keeps its state (60_exceptions R216). -/
def step (s : State) : Host.Outcome State Fault Refusal :=
  match s.fetch with
  | .idle => .next s
  | .instr i t => exec i t
  | .refused r => .refused r
  | .fault f => .fault f

/-- `s` with the row that word spells as the next one; a word that spells none changes nothing. -/
def State.withFetchWord (s : State) (nbits w : Nat) : State :=
  match tableEncoded nbits w with
  | none => s
  | some e => s.placeRow e

end Sys2Proof.Machine
end

