-- ==== Sys2Proof/Laws/PerInstr.lean ====
section
/-! SUPPORT. Per instruction: its encoding is a word of its row of spec/opcode_table.json. -/

namespace Sys2Proof.Laws.RowPattern

/-- The code bits of a row: the CMD code, the selector, or the ten levels. -/
def codeBits : Encoded → Nat
  | .cmd c => c.code.toNat
  | .sel v => v.toNat
  | .sf v => v.toNat

/-- "mask" of the row in spec/opcode_table.json. -/
def mask : Instr → Nat
  | .build _ _ => 0b111
  | .ishigh _ _ => 0b111
  | .start _ _ => 0b111
  | .feed _ => 0b111
  | .finish => 0b111
  | .scanSkip => 0b1111
  | .scanStart => 0b1111
  | .scanExit => 0b1110
  | .sample => 0b1100
  | .stopchkOk => 0b1101
  | .stopchkErr => 0b1101
  | .resyncHold => 0b1111
  | .resyncDone => 0b1111
  | .resyncExit => 0b1110
  | .frameOk _ => 0b1000000001
  | .frameErr _ => 0b1000000001

/-- "match" of the row in spec/opcode_table.json. -/
def pattern : Instr → Nat
  | .build _ _ => 0b000
  | .ishigh _ _ => 0b001
  | .start _ _ => 0b010
  | .feed _ => 0b011
  | .finish => 0b100
  | .scanSkip => 0b0011
  | .scanStart => 0b0010
  | .scanExit => 0b0000
  | .sample => 0b0100
  | .stopchkOk => 0b1001
  | .stopchkErr => 0b1000
  | .resyncHold => 0b1110
  | .resyncDone => 0b1111
  | .resyncExit => 0b1100
  | .frameOk _ => 0b0000000001
  | .frameErr _ => 0b0000000000

/-- The encoding of `i` matches the pattern of its row. -/
def Statement (i : Instr) : Prop := codeBits (encode i) &&& mask i = pattern i

theorem build (sr br : Number) : Statement (.build sr br) := by simp [Statement, encode, codeBits, mask, pattern]
theorem ishigh (w : SampleWord) (ch : Nat) : Statement (.ishigh w ch) := by simp [Statement, encode, codeBits, mask, pattern]
theorem start (t : TimingTable) (ch : Nat) : Statement (.start t ch) := by simp [Statement, encode, codeBits, mask, pattern]
theorem feed (ws : List SampleWord) : Statement (.feed ws) := by simp [Statement, encode, codeBits, mask, pattern]
theorem finish : Statement .finish := rfl
theorem scanSkip : Statement .scanSkip := rfl
theorem scanStart : Statement .scanStart := rfl
theorem scanExit : Statement .scanExit := rfl
theorem sample : Statement .sample := rfl
theorem stopchkOk : Statement .stopchkOk := rfl
theorem stopchkErr : Statement .stopchkErr := rfl
theorem resyncHold : Statement .resyncHold := rfl
theorem resyncDone : Statement .resyncDone := rfl
theorem resyncExit : Statement .resyncExit := rfl

/-- The first and last of the ten levels of a frame, seen through the row's mask. -/
theorem frameLevels_masked (stop : Bool) : ∀ byte : Byte,
    (frameLevels byte stop).toNat &&& 0b1000000001 = if stop then 1 else 0 := by
  cases stop <;> decide +revert

theorem frameOk (byte : Byte) : Statement (.frameOk byte) := frameLevels_masked true byte
theorem frameErr (byte : Byte) : Statement (.frameErr byte) := frameLevels_masked false byte

end Sys2Proof.Laws.RowPattern
end

