-- ==== Sys2Proof/Machine/Whole.lean ====
section
/-! DEFINITION. The big-step form of FEED (43_feed_decoder R173), a session over a list of chunks (42_session_control
R147), and the pseudo-operation DECODE (30_encoding R94). `step` uses none of it; the statements relate the two. -/

namespace Sys2Proof.Machine

/-- A result, or the stop that prevents it. -/
abbrev Whole (α : Type) := Host.Outcome α Fault Refusal

/-- Go on with the result, if there is one. -/
def Whole.andThen {α β : Type} (x : Whole α) (k : α → Whole β) : Whole β :=
  match x with
  | .next a => k a
  | .fault f => .fault f
  | .refused q => .refused q

/-- What one FEED hands over (43_feed_decoder R172), and whether it left through RESYNC.EXIT. -/
structure FeedResult where
  bytes : List Byte
  ferrs : List Nat
  resyncExit : Bool
  deriving DecidableEq, Repr

/-- The result as the host gets it (60_exceptions R206). -/
def FeedResult.reply (f : FeedResult) : Reply := .fed f.bytes f.ferrs

/-- What the FEEDs of a session give: the session after them and their results, in order. -/
structure Outputs where
  session : Session
  feeds : List FeedResult
  deriving DecidableEq, Repr

/-- "the concatenation of all `BYTES` outputs" (42_session_control R147). -/
def Outputs.bytes (o : Outputs) : List Byte := o.feeds.flatMap (·.bytes)

/-- "the concatenation of all `FERRS` outputs" (42_session_control R147). -/
def Outputs.ferrs (o : Outputs) : List Nat := o.feeds.flatMap (·.ferrs)

/-- For each FEED in order, whether it left through RESYNC.EXIT (20_memory R67). -/
def Outputs.resyncExits (o : Outputs) : List Bool := o.feeds.map (·.resyncExit)

/-- The session after a FEED over `buf` that leaves at `e` (43_feed_decoder R172). -/
def Session.after (ses : Session) (buf : List SampleWord) (e : FeedEnd) : Session :=
  { ses with rump := buf.drop e.i, cursor := ses.cursor + e.i, run := none }

/-- FEED as one procedure (43_feed_decoder R173), on a session in which no FEED runs: refused where a sized build
does not hold it (92 D6), a fault where it would read outside BUF. -/
def feedWhole (p : Params) (ses : Session) (chunk : List SampleWord) : Whole Outputs :=
  if ses.feedFits p chunk then
    match feedLoop ses.timing ses.chan ses.cursor (ses.feedBuffer chunk) with
    | none => .fault .readOutsideBuffer
    | some e =>
      .next { session := ses.after (ses.feedBuffer chunk) e, feeds := [⟨e.bytes, e.ferrs, e.resyncExit⟩] }
  else .refused .feedDoesNotFit

/-- The FEEDs of a session in order (42_session_control R147). -/
def feedAll (p : Params) (ses : Session) : List (List SampleWord) → Whole Outputs
  | [] => .next { session := ses, feeds := [] }
  | c :: cs =>
    (feedWhole p ses c).andThen fun a =>
      (feedAll p a.session cs).andThen fun b => .next { session := b.session, feeds := a.feeds ++ b.feeds }

/-- DECODE (30_encoding R94) on a block that holds the session `before`, or none: BUILD, START, FEED every chunk in
order, FINISH; a ConfigError stops it before any chunk is processed. The answer is the session left and the error, or
the concatenated BYTES and FERRS. -/
def decodeCapture (p : Params) (before : Option Session) (samplerate baudrate : Number) (channel : Nat)
    (chunks : List (List SampleWord)) : Whole (Option Session × Except ErrorCode (List Byte × List Nat)) :=
  match buildTable p samplerate baudrate with
  | .error c => .next (before, .error c)
  | .ok t =>
    match startSession p t channel with
    | .error c => .next (none, .error c)
    | .ok ses =>
      (feedAll p ses chunks).andThen fun o =>
        match finishSession (some o.session) with
        | .error c => .next (some o.session, .error c)
        | .ok left => .next (left, .ok (o.bytes, o.ferrs))

end Sys2Proof.Machine
end

