-- ==== Sys2Proof/Safety.lean ====
section
/-! DEFINITION. The invariant of 10_state R37 carried into a running FEED, what a safe answer is, the duties of the
host, and when two states differ only on channels that are not selected. -/

namespace Sys2Proof.Machine

/-- A FEED runs in `s`, with these session and FEED-local registers. -/
def State.Runs (s : State) (ses : Session) (r : Run) : Prop :=
  s.session = some ses ∧ ses.run = some r

/-- A session is open in `s` and no FEED runs. -/
def State.Rests (s : State) (ses : Session) : Prop :=
  s.session = some ses ∧ ses.run = none

/-- The words of a buffer are SampleWords of the instance (30_encoding R81): the canonical form of this
machine's memory. -/
def Memory.wf (p : Params) (m : List SampleWord) : Bool := m.all (wordFits p)

/-- What holds of `I` in each phase (43_feed_decoder R175): in SAMPLE and STOPCHK the start index is in bounds
and low, BYTE is the byte sampled there; in RESYNC `BUF[I]` is low and `I < N`. -/
def Run.phaseOk (ses : Session) (r : Run) : Bool :=
  match r.phase with
  | .scan => true
  | .sample => inBound ses.timing r.buf r.i && level ses.chan r.buf r.i == some false
  | .stopchk b =>
    inBound ses.timing r.buf r.i && level ses.chan r.buf r.i == some false
      && sampleByte ses.timing ses.chan r.buf r.i == some b
  | .resync _ => decide (r.i < r.buf.length) && level ses.chan r.buf r.i == some false

/-- `PHASE = RESYNC`. -/
def Phase.isResync : Phase → Bool
  | .resync _ => true
  | _ => false

/-- What holds of FERRS (20_memory R57, 43_feed_decoder R183): strictly increasing absolute indices from CURSOR
up to the present one, at most one more than the bytes, and one more only in RESYNC. -/
abbrev Run.EventsOk (ses : Session) (r : Run) : Prop :=
  r.ferrs.Pairwise (· < ·)
    ∧ (∀ a ∈ r.ferrs, ses.cursor ≤ a ∧ a < ses.cursor + r.i + (if r.phase.isResync then 1 else 0))
    ∧ r.ferrs.length ≤ r.bytes.length + (if r.phase.isResync then 1 else 0)

/-- The invariant of a running FEED (43_feed_decoder R175, R177; 10_state R26); the last clause says that CURSOR at
the exit it is heading for and its events fit a sized build (92 D6). -/
abbrev Run.Inv (p : Params) (ses : Session) (r : Run) : Prop :=
  r.i ≤ r.buf.length ∧ r.phaseOk ses = true ∧ ses.rump <+: r.buf ∧ Memory.wf p r.buf = true
    ∧ r.EventsOk ses
    ∧ p.fitsIdx (r.buf.length + ses.timing.spare) = true
    ∧ ∀ e ∈ finishRun ses r, e.fits p ses.cursor = true

/-- The invariant of a session (10_state R37 items 1 to 3; 20_memory R50; 92 D6). -/
abbrev Session.Inv (p : Params) (ses : Session) : Prop :=
  ses.timing.wellFormed = true ∧ ses.timing.fits p = true ∧ ses.chan < p.w
    ∧ ses.rump.length < ses.timing.spare ∧ Memory.wf p ses.rump = true
    ∧ p.fitsCur ses.cursor = true ∧ ∀ r ∈ ses.run, r.Inv p ses

/-- The invariant of the machine: `W ≥ 1` and that of the session, if there is one. -/
abbrev State.Inv (s : State) : Prop :=
  1 ≤ s.params.w ∧ ∀ ses ∈ s.session, ses.Inv s.params

/-- An answer that is no fault. -/
def Answer.safe (a : Answer) : Bool :=
  match a with
  | .next _ => true
  | .refused _ => true
  | .fault _ => false

/-- The host's duty for one issued operation: a code and operands the block knows, operands that are values of
their types, a chunk of at most `CHUNK_MAX` words (70_reset_and_hazards R242, R249; 92 D5). The duty to feed the
chunks in capture order (R243) cannot be seen in one operation. -/
def Command.dutiful (p : Params) (c : Command) : Bool :=
  match decode (.cmd c) with
  | .ok (.feed chunk) =>
    (Instr.feed chunk).wellFormed p &&
      (match p.chunkMax with
       | none => true
       | some m => decide (chunk.length ≤ m))
  | .ok (.ishigh w ch) => (Instr.ishigh w ch).wellFormed p && decide (ch < p.w)
  | .ok i => i.wellFormed p
  | .error _ => false

/-- Two buffers carry the same levels on a channel (20_memory R68). -/
def sameLine (chan : Nat) (a b : List SampleWord) : Prop :=
  a.map (fun w => w.testBit chan) = b.map (fun w => w.testBit chan)

/-- Two running FEEDs that differ only on other channels. -/
def Run.SameLine (chan : Nat) (a b : Run) : Prop :=
  sameLine chan a.buf b.buf ∧ a.phase = b.phase ∧ a.i = b.i ∧ a.bytes = b.bytes ∧ a.ferrs = b.ferrs

/-- Two sessions that differ only on other channels. -/
def Session.SameLine (a b : Session) : Prop :=
  a.timing = b.timing ∧ a.chan = b.chan ∧ a.cursor = b.cursor ∧ sameLine a.chan a.rump b.rump
    ∧ match a.run, b.run with
      | none, none => True
      | some x, some y => Run.SameLine a.chan x y
      | _, _ => False

/-- Two states that differ only on channels that are not selected; the results handed over are equal. -/
def State.SameLine (a b : State) : Prop :=
  a.params = b.params ∧ a.grain = b.grain ∧ a.inbox = b.inbox ∧ a.outbox = b.outbox
    ∧ match a.session, b.session with
      | none, none => True
      | some x, some y => Session.SameLine x y
      | _, _ => False

/-- Two answers that differ only on channels that are not selected. -/
def Answer.SameLine (a b : Answer) : Prop :=
  match a, b with
  | .next x, .next y => State.SameLine x y
  | .fault f, .fault g => f = g
  | .refused r, .refused q => r = q
  | _, _ => False

/-- The line of one frame with `skip` words a bit: start low, the byte least significant bit first, stop high
(30_encoding R82). -/
def frameWords (skip : Nat) (byte : Byte) : List SampleWord :=
  List.replicate skip 0
    ++ (List.range 8).flatMap (fun k => List.replicate skip (if byte.getLsbD k then 1 else 0))
    ++ List.replicate skip 1

/-- The table BUILD gives for an integer `skip` without rounding (40_timing_model R113 to R115). -/
def integerTable (skip : Nat) : TimingTable :=
  { o0 := 3 * skip / 2, o1 := 5 * skip / 2, o2 := 7 * skip / 2, o3 := 9 * skip / 2, o4 := 11 * skip / 2
    o5 := 13 * skip / 2, o6 := 15 * skip / 2, o7 := 17 * skip / 2, stop := 19 * skip / 2, spare := 10 * skip }

end Sys2Proof.Machine
end

