-- ==== Sys2Proof/Certificates/Slice0/Obligations.lean ====
section
/-! DEFINITION. The statements about the block, from the numbered rules of spec/. -/

open Sys2Proof Sys2Proof.Machine

/-! ## Reset and the step -/

/-- 70_reset_and_hazards section 1, the spec's decision D20: at power-on there is no session and nothing runs;
BUILD, ISHIGH and START work, FEED and FINISH report the missing session. That nothing is issued is the model's choice
(log entry 4). -/
def Obligations.PowerOnState : Prop :=
  State.reset.active = false ∧ State.reset.session = none ∧ step State.reset = .next State.reset
    ∧ (∀ chunk, exec (.feed chunk) State.reset = .next (State.reset.deliver (.error .noSession)))
    ∧ exec .finish State.reset = .next (State.reset.deliver (.error .noSession))
    ∧ (∀ sr br, ∃ x, exec (.build sr br) State.reset = .next (State.reset.deliver x))
    ∧ (∀ word ch, ch < State.reset.params.w →
        exec (.ishigh word ch) State.reset = .next (State.reset.deliver (.level (word.testBit ch))))
    ∧ (∀ t ch, ∃ u, exec (.start t ch) State.reset = .next u)

/-- The state after reset meets the invariant (10_state R37), with the parameters the model chose (log entry 3) and
with any other whose `W ≥ 1`. -/
def Obligations.ResetMeetsInvariant : Prop :=
  State.reset.Inv ∧ ∀ p : Params, 1 ≤ p.w → ({ State.reset with params := p } : State).Inv

/-- The invariant of 10_state R37 (well-formed table, channel below `W`, RUMP shorter than SPARE), with that of a
running FEED (43_feed_decoder R175, R177; 20_memory R57), is kept by every step. Its sized clauses rest on log entry 9. -/
def Obligations.EveryStepKeepsInvariant : Prop :=
  ∀ s t : State, s.Inv → step s = .next t → t.Inv

/-- 20_memory R58, 43_feed_decoder R175: from a state that meets the invariant no step reads outside BUF, nor any
register that holds no value: no step ends in a fault. -/
def Obligations.NoStepFaults : Prop :=
  ∀ (s : State) (f : Fault), s.Inv → step s ≠ .fault f

/-- 43_feed_decoder R178: a running FEED has no failing path: every step of it answers a next state. -/
def Obligations.RunningFeedNeverStops : Prop :=
  ∀ s : State, s.Inv → s.feeding = true → ∃ t, step s = .next t

/-- The only refusals of a step, from a state that meets the invariant: the oldest issued operation has a code that
names no operation (30_encoding R87), is an ISHIGH with `channel ≥ W` (41_channel_extractor R131), has operands that
are not values of their types (refusing it is the model's choice, log entry 14), or is a FEED that does not fit a sized
build (92 D6; that the test stands at FEED entry is the model's reading, log entry 9). -/
def Obligations.StepRefusesOnlyImpossibleOperations : Prop :=
  ∀ (s : State) (q : Refusal), s.Inv → step s = .refused q →
    s.feeding = false ∧ ∃ c rest, s.inbox = c :: rest ∧
      ((∃ e, decode (.cmd c) = .error e)
        ∨ (∃ i, decode (.cmd c) = .ok i ∧ i.wellFormed s.params = false)
        ∨ (∃ word ch, decode (.cmd c) = .ok (.ishigh word ch) ∧ s.params.w ≤ ch)
        ∨ (∃ chunk ses, decode (.cmd c) = .ok (.feed chunk) ∧ s.session = some ses
            ∧ ses.feedFits s.params chunk = false))

/-- A step is `exec` of the decoded instruction. An issued operation is taken from the inbox first (the model's choice,
log entry 4) and must be well formed (the model's choice, log entry 14); a running FEED runs the micro-step its selector
names, or in grain `frame` (the model's choice, log entry 5), on an in-bound low sample of SCAN, the frame as sampled. -/
def Obligations.StepRunsDecodedInstruction : Prop :=
  (∀ (s : State) c rest i, s.feeding = false → s.inbox = c :: rest → decode (.cmd c) = .ok i →
      i.wellFormed s.params = true → step s = exec i { s with inbox := rest })
    ∧ (∀ (s : State) ses r v, s.Runs ses r → s.grain = .micro → selector ses r = some v →
        step s = exec (decodeSelector v) s)
    ∧ (∀ (s : State) ses r v, s.Runs ses r → s.grain = .frame → selector ses r = some v → v ≠ 0b0010#4 →
        step s = exec (decodeSelector v) s)
    ∧ (∀ (s : State) ses r v i, s.Runs ses r → s.grain = .frame → selector ses r = some 0b0010#4 →
        sampledFrame ses r = some v → decode (.sf v) = .ok i → step s = exec i s)

/-- 60_exceptions R216: between operations the block is idle and keeps its state. -/
def Obligations.IdleBlockKeepsState : Prop :=
  ∀ s : State, s.feeding = false → s.inbox = [] → step s = .next s

/-! ## Encoding -/

/-- Decoding an encoded instruction gives it back, every operand at every value. -/
def Obligations.DecodeOfEncode : Prop := ∀ i : Instr, decode (encode i) = .ok i

/-- The other direction: a command or a frame that decodes is the encoding of what it decodes to; a selector
differs from it only in bits its row does not evaluate, which `encode` writes as 0 (the model's choice, log entry 8); every accepted word matches the pattern of its row in
opcode_table.json. -/
def Obligations.EncodeOfDecode : Prop :=
  (∀ c i, decode (.cmd c) = .ok i → encode i = .cmd c)
    ∧ (∀ v i, decode (.sf v) = .ok i → encode i = .sf v)
    ∧ (∀ v i, decode (.sel v) = .ok i → ∃ u, encode i = .sel u ∧ v.toNat &&& Laws.RowPattern.mask i = u.toNat)
    ∧ (∀ e i, decode e = .ok i →
        Laws.RowPattern.codeBits e &&& Laws.RowPattern.mask i = Laws.RowPattern.pattern i)

/-- 30_encoding R87, R91: the CMD codes 101, 110 and 111 spell no operation, whatever the operands, and a step that
meets one is refused. -/
def Obligations.UnusedCodesAreRefused : Prop :=
  ∀ (s : State) (code : BitVec 3) ops rest, 5 ≤ code.toNat → s.feeding = false →
    s.inbox = ⟨code, ops⟩ :: rest →
      decode (.cmd ⟨code, ops⟩) = .error (.noOperation code) ∧ step s = .refused (.noSuchOperation code)

/-- Words written out from 30_encoding R82, R87 and R88 decode to their rows. The last clause is the model's choice and
no encoding of the spec (log entry 8): a bare word counted in whole bytes reads as CMD below 5, with zero operands. -/
def Obligations.WrittenWordsDecode : Prop :=
  decode (.cmd ⟨0b100#3, []⟩) = .ok .finish
    ∧ decode (.cmd ⟨0b011#3, [.chunk [0, 1]]⟩) = .ok (.feed [0, 1])
    ∧ decode (.sel 0b0011#4) = .ok .scanSkip
    ∧ decode (.sel 0b1011#4) = .ok .stopchkOk
    ∧ decode (.sel 0b1101#4) = .ok .resyncExit
    ∧ decode (.sf 0b0100000101#10) = .ok (.frameOk 0x41#8)
    ∧ decode (.sf 0b0000000010#10) = .ok (.frameErr 0x80#8)
    ∧ decodeTableWord 8 0b010 = some (.start .zero 0)

/-- 30_encoding R88, 43_feed_decoder R182: the selector of a running FEED names each micro-step exactly under the
condition of its row. -/
def Obligations.SelectorNamesItsMicroStep : Prop :=
  ∀ (ses : Session) (r : Run) (v : BitVec 4), selector ses r = some v →
    (decodeSelector v = .scanSkip ↔
        r.phase = .scan ∧ inBound ses.timing r.buf r.i = true ∧ level ses.chan r.buf r.i = some true)
    ∧ (decodeSelector v = .scanStart ↔
        r.phase = .scan ∧ inBound ses.timing r.buf r.i = true ∧ level ses.chan r.buf r.i = some false)
    ∧ (decodeSelector v = .scanExit ↔ r.phase = .scan ∧ inBound ses.timing r.buf r.i = false)
    ∧ (decodeSelector v = .sample ↔ r.phase = .sample)
    ∧ (decodeSelector v = .stopchkOk ↔
        (∃ b, r.phase = .stopchk b) ∧ level ses.chan r.buf (r.i + ses.timing.stop) = some true)
    ∧ (decodeSelector v = .stopchkErr ↔
        (∃ b, r.phase = .stopchk b) ∧ level ses.chan r.buf (r.i + ses.timing.stop) = some false)
    ∧ (decodeSelector v = .resyncHold ↔
        (∃ b, r.phase = .resync b) ∧ inBound ses.timing r.buf (r.i + 1) = true
          ∧ level ses.chan r.buf (r.i + 1) = some false)
    ∧ (decodeSelector v = .resyncDone ↔
        (∃ b, r.phase = .resync b) ∧ inBound ses.timing r.buf (r.i + 1) = true
          ∧ level ses.chan r.buf (r.i + 1) = some true)
    ∧ (decodeSelector v = .resyncExit ↔
        (∃ b, r.phase = .resync b) ∧ inBound ses.timing r.buf (r.i + 1) = false)

/-! ## BUILD and ISHIGH -/

/-- 40_timing_model R112 to R115: for finite positive rates, `skip` is their quotient in `FLOAT_FMT`, and where
`skip` is finite and the floors of its products with 1.5 + k, 9.5 and 10 exist and fit, BUILD returns them. -/
def Obligations.BuildReturnsTheFloors : Prop :=
  ∀ (s : State) (sr br skip : Number) (o : Fin 8 → Nat) (stop spare : Nat),
    sr.isPositive = true → br.isPositive = true → skip = fdiv s.params.fmt sr br → skip.isFinite = true →
    (∀ k : Fin 8, (fmul s.params.fmt (.finite false (2 * k.val + 3) 2) skip).floor = some (o k)
      ∧ s.params.fitsIdx (o k) = true) →
    (fmul s.params.fmt (.finite false 19 2) skip).floor = some stop → s.params.fitsIdx stop = true →
    (fmul s.params.fmt (.finite false 20 2) skip).floor = some spare → s.params.fitsIdx spare = true →
    exec (.build sr br) s =
      .next { s with outbox := s.outbox ++ [.table ⟨o 0, o 1, o 2, o 3, o 4, o 5, o 6, o 7, stop, spare⟩] }

/-- 40_timing_model R111, the spec's decisions D8 and D23: a samplerate that is not finite and positive is error 1,
tested before a bad baudrate, error 2; a quotient or product that is not finite, or a floor that does not fit a sized
build, is error 4. -/
def Obligations.BuildRefusesBadRates : Prop :=
  ∀ (s : State) (sr br : Number),
    (sr.isPositive = false →
        exec (.build sr br) s = .next { s with outbox := s.outbox ++ [.error .samplerateInvalid] })
    ∧ (sr.isPositive = true → br.isPositive = false →
        exec (.build sr br) s = .next { s with outbox := s.outbox ++ [.error .baudrateInvalid] })
    ∧ (sr.isPositive = true → br.isPositive = true →
        ((fdiv s.params.fmt sr br).isFinite = false
          ∨ (∃ halves ∈ [3, 5, 7, 9, 11, 13, 15, 17, 19, 20],
              ∀ n, (fmul s.params.fmt (.finite false halves 2) (fdiv s.params.fmt sr br)).floor = some n →
                s.params.fitsIdx n = false)) →
        exec (.build sr br) s = .next { s with outbox := s.outbox ++ [.error .timingMalformed] })

/-- 40_timing_model R117: BUILD completes in every state, its result depends on its operands and the instance's
parameters alone, and it changes nothing but the results handed over. -/
def Obligations.BuildIsPure : Prop :=
  ∀ (p : Params) (sr br : Number), ∃ x : Reply, ∀ s : State, s.params = p →
    exec (.build sr br) s = .next { s with outbox := s.outbox ++ [x] }

/-- 40_timing_model R116: with rates whose quotient is an integer `k` below 2^48, binary64 rounds nothing and BUILD
gives the exact table. -/
def Obligations.BuildIsExactOnIntegerSkip : Prop :=
  ∀ (s : State) (k b : Nat), s.params.fmt = .binary64 → s.params.idxBits = none → 1 ≤ k → k < 2 ^ 48 → 1 ≤ b →
    exec (.build (.ofNat (k * b)) (.ofNat b)) s =
      .next { s with outbox := s.outbox ++ [.table (integerTable k)] }

/-- 40_timing_model R119: a built table does not decrease, in every binary format of at least one bit of precision and
in exact arithmetic, the two evaluations of R116 and R121. -/
def Obligations.BuiltTableDoesNotDecrease : Prop :=
  ∀ (p : Params) (sr br : Number) (t : TimingTable),
    (∃ prec emax, p.fmt = .binary prec emax ∧ 1 ≤ prec) ∨ p.fmt = .exact →
    buildTable p sr br = .ok t →
    t.o0 ≤ t.o1 ∧ t.o1 ≤ t.o2 ∧ t.o2 ≤ t.o3 ∧ t.o3 ≤ t.o4 ∧ t.o4 ≤ t.o5 ∧ t.o5 ≤ t.o6 ∧ t.o6 ≤ t.o7
      ∧ t.o7 ≤ t.stop ∧ t.stop ≤ t.spare

/-- 41_channel_extractor R130: ISHIGH returns the bit of the word at the channel's position, and changes nothing
else. -/
def Obligations.IshighReturnsTheBit : Prop :=
  ∀ (s : State) (word : SampleWord) (ch : Nat), ch < s.params.w →
    exec (.ishigh word ch) s = .next { s with outbox := s.outbox ++ [.level (word.testBit ch)] }

/-- 41_channel_extractor R131, 93 U5: for a channel outside the word ISHIGH is refused and has no value. -/
def Obligations.IshighRefusesOutsideTheWord : Prop :=
  ∀ (s : State) (word : SampleWord) (ch : Nat), s.params.w ≤ ch →
    exec (.ishigh word ch) s = .refused .channelOutsideWord

/-! ## START and FINISH -/

/-- 42_session_control R140: with no FEED running, a channel below `W` and a table whose offsets are all below its
`spareRoom` (and fit a sized build), START latches both, empties RUMP, zeroes CURSOR and opens the session,
whatever session was open before. -/
def Obligations.StartLatchesAndOpens : Prop :=
  ∀ (s : State) (t : TimingTable) (ch : Nat), s.feeding = false → ch < s.params.w →
    (∀ k, t.off k < t.spare) → t.stop < t.spare → t.fits s.params = true →
    exec (.start t ch) s =
      .next { s with
        session := some { timing := t, chan := ch, cursor := 0, rump := [], run := none }
        outbox := s.outbox ++ [.started] }

/-- 42_session_control R141 to R144 with the spec's decisions D6, D10, D19, D23: a channel outside the word is error 3,
tested before the table; a table with an offset not below its `spareRoom`, or one a sized build does not hold, is
error 4; either way no session is left, the earlier one included. -/
def Obligations.FailedStartLeavesNoSession : Prop :=
  ∀ (s : State) (t : TimingTable) (ch : Nat), s.feeding = false →
    (s.params.w ≤ ch →
        exec (.start t ch) s =
          .next { s with session := none, outbox := s.outbox ++ [.error .channelOutOfRange] })
    ∧ (ch < s.params.w → ((∃ k, t.spare ≤ t.off k) ∨ t.spare ≤ t.stop ∨ t.fits s.params = false) →
        exec (.start t ch) s =
          .next { s with session := none, outbox := s.outbox ++ [.error .timingMalformed] })

/-- 42_session_control R145: FINISH ends the session, drops RUMP and outputs no byte and no event. -/
def Obligations.FinishEndsTheSession : Prop :=
  ∀ (s : State) (ses : Session), s.Rests ses →
    exec .finish s = .next { s with session := none, outbox := s.outbox ++ [.finished] }

/-- 60_exceptions section 1, the spec's decision D18: without a session FEED and FINISH report error 5 and change
nothing else. -/
def Obligations.NoSessionIsReported : Prop :=
  ∀ s : State, s.session = none →
    (∀ chunk, exec (.feed chunk) s = .next { s with outbox := s.outbox ++ [.error .noSession] })
    ∧ exec .finish s = .next { s with outbox := s.outbox ++ [.error .noSession] }

/-- 70_reset_and_hazards R244: START, FEED and FINISH have no meaning while a FEED runs; that `exec` answers them with a
refusal is the model's reading (log entry 12, DEDUCED). -/
def Obligations.OverlapHasNoMeaning : Prop :=
  ∀ s : State, s.feeding = true →
    (∀ t ch, exec (.start t ch) s = .refused .overlappingOperation)
    ∧ (∀ chunk, exec (.feed chunk) s = .refused .overlappingOperation)
    ∧ exec .finish s = .refused .overlappingOperation

/-- 20_memory R65 and 10_state R24: a step within a session changes neither the table nor the channel and does not
lower CURSOR, unless it takes START from the inbox; and only a START or FINISH that it takes ends a session. A step of a
running FEED takes neither. -/
def Obligations.SessionIsLatched : Prop :=
  ∀ (s t : State) (a : Session), step s = .next t → s.session = some a →
    (∃ b, t.session = some b ∧ b.timing = a.timing ∧ b.chan = a.chan ∧ a.cursor ≤ b.cursor)
    ∨ s.feeding = false ∧ (∃ c rest, s.inbox = c :: rest ∧
        ((∃ tt ch, decode (.cmd c) = .ok (.start tt ch))
          ∨ (decode (.cmd c) = .ok .finish ∧ t.session = none)))

/-! ## FEED and its micro-steps -/

/-- 43_feed_decoder R161: FEED entry forms BUF from RUMP and the chunk and sets I, PHASE, BYTES and FERRS; CURSOR
and RUMP keep their values. The last two hypotheses are the sized build's (92 D6): the sums of R177 fit an index, and
CURSOR at the exit of R173's loop and its event indices fit the cursor. -/
def Obligations.FeedEntersScan : Prop :=
  ∀ (s : State) (ses : Session) (chunk : List SampleWord), s.Rests ses →
    s.params.fitsIdx (ses.rump.length + chunk.length + ses.timing.spare) = true →
    (∀ e, feedLoop ses.timing ses.chan ses.cursor (ses.rump ++ chunk) = some e →
      s.params.fitsCur (ses.cursor + e.i) = true ∧ ∀ a ∈ e.ferrs, s.params.fitsCur a = true) →
    exec (.feed chunk) s =
      .next { s with
        session := some { ses with
          run := some { buf := ses.rump ++ chunk, phase := .scan, i := 0, bytes := [], ferrs := [] } } }

/-- 43_feed_decoder R177 with the spec's decision D6, and the model's reading of log entry 9: a sized build refuses
at entry the FEED whose index sums do not fit, or whose final CURSOR or one of whose event indices does not fit. -/
def Obligations.SizedBuildRefusesTheFeed : Prop :=
  ∀ (s : State) (ses : Session) (chunk : List SampleWord), s.Rests ses →
    (s.params.fitsIdx (ses.rump.length + chunk.length + ses.timing.spare) = false
      ∨ ∃ e, feedLoop ses.timing ses.chan ses.cursor (ses.rump ++ chunk) = some e
          ∧ (s.params.fitsCur (ses.cursor + e.i) = false ∨ ∃ a ∈ e.ferrs, s.params.fitsCur a = false)) →
    exec (.feed chunk) s = .refused .feedDoesNotFit

/-- 00_scope R7, 43_feed_decoder R177, 92 D6: a FEED whose index sums fit is not refused for its cursor if the cursor
holds every index up to `CURSOR + N`, or if the buffer is shorter than SPARE, when CURSOR stays as it is. -/
def Obligations.SizedBuildTakesWhatFits : Prop :=
  ∀ (s : State) (ses : Session) (chunk : List SampleWord), s.Rests ses → ses.timing.wellFormed = true →
    s.params.fitsIdx (ses.rump.length + chunk.length + ses.timing.spare) = true →
    (s.params.fitsCur (ses.cursor + (ses.rump.length + chunk.length)) = true
      ∨ s.params.fitsCur ses.cursor = true ∧ ses.rump.length + chunk.length < ses.timing.spare) →
    ∃ t, exec (.feed chunk) s = .next t ∧ t.feeding = true

/-- 43_feed_decoder R163, SCAN.SKIP. -/
def Obligations.ScanSkipStepsOver : Prop :=
  ∀ (s : State) (ses : Session) (r : Run), s.Runs ses r → r.phase = .scan →
    r.i + ses.timing.spare ≤ r.buf.length → level ses.chan r.buf r.i = some true →
    exec .scanSkip s =
      .next { s with session := some { ses with run := some { r with i := r.i + 1 } } }

/-- 43_feed_decoder R164, SCAN.START. -/
def Obligations.ScanStartFindsTheStartBit : Prop :=
  ∀ (s : State) (ses : Session) (r : Run), s.Runs ses r → r.phase = .scan →
    r.i + ses.timing.spare ≤ r.buf.length → level ses.chan r.buf r.i = some false →
    exec .scanStart s =
      .next { s with session := some { ses with run := some { r with phase := .sample } } }

/-- 43_feed_decoder R165 with the exit of R172, SCAN.EXIT: the level at `I` is not read. -/
def Obligations.ScanExitSavesTheRump : Prop :=
  ∀ (s : State) (ses : Session) (r : Run), s.Runs ses r → r.phase = .scan →
    r.buf.length < r.i + ses.timing.spare →
    exec .scanExit s =
      .next { s with
        session := some { ses with rump := r.buf.drop r.i, cursor := ses.cursor + r.i, run := none }
        outbox := s.outbox ++ [.fed r.bytes r.ferrs] }

/-- 43_feed_decoder R166, SAMPLE: bit `k` of BYTE is the level at `I + OFF[k]`; nothing else changes but PHASE. -/
def Obligations.SampleReadsEightLevels : Prop :=
  ∀ (s : State) (ses : Session) (r : Run) (l : Fin 8 → Bool), s.Runs ses r → r.phase = .sample →
    (∀ k, level ses.chan r.buf (r.i + ses.timing.off k) = some (l k)) →
    ∃ b : Byte, (∀ k : Fin 8, b.getLsbD k.val = l k) ∧
      exec .sample s =
        .next { s with session := some { ses with run := some { r with phase := .stopchk b } } }

/-- 43_feed_decoder R167, STOPCHK.OK. -/
def Obligations.StopchkOkKeepsTheByte : Prop :=
  ∀ (s : State) (ses : Session) (r : Run) (b : Byte), s.Runs ses r → r.phase = .stopchk b →
    level ses.chan r.buf (r.i + ses.timing.stop) = some true →
    exec .stopchkOk s =
      .next { s with session := some { ses with run := some { r with
        i := r.i + ses.timing.stop, bytes := r.bytes ++ [b], phase := .scan } } }

/-- 43_feed_decoder R168, 60_exceptions R202, STOPCHK.ERR: one event with the absolute index of the low stop
sample; BYTE is kept. -/
def Obligations.StopchkErrTakesTheEvent : Prop :=
  ∀ (s : State) (ses : Session) (r : Run) (b : Byte), s.Runs ses r → r.phase = .stopchk b →
    level ses.chan r.buf (r.i + ses.timing.stop) = some false →
    exec .stopchkErr s =
      .next { s with session := some { ses with run := some { r with
        i := r.i + ses.timing.stop, ferrs := r.ferrs ++ [ses.cursor + (r.i + ses.timing.stop)]
        phase := .resync b } } }

/-- 43_feed_decoder R169, RESYNC.HOLD. -/
def Obligations.ResyncHoldWaits : Prop :=
  ∀ (s : State) (ses : Session) (r : Run) (b : Byte), s.Runs ses r → r.phase = .resync b →
    r.i + 1 + ses.timing.spare ≤ r.buf.length → level ses.chan r.buf (r.i + 1) = some false →
    exec .resyncHold s =
      .next { s with session := some { ses with run := some { r with i := r.i + 1 } } }

/-- 43_feed_decoder R170, RESYNC.DONE: the byte sampled before the error is kept; no second event. -/
def Obligations.ResyncDoneKeepsTheByte : Prop :=
  ∀ (s : State) (ses : Session) (r : Run) (b : Byte), s.Runs ses r → r.phase = .resync b →
    r.i + 1 + ses.timing.spare ≤ r.buf.length → level ses.chan r.buf (r.i + 1) = some true →
    exec .resyncDone s =
      .next { s with session := some { ses with run := some { r with
        i := r.i + 1, bytes := r.bytes ++ [b], phase := .scan } } }

/-- 43_feed_decoder R171 with the exit of R172, RESYNC.EXIT: the byte is dropped, the event stays. -/
def Obligations.ResyncExitDropsTheByte : Prop :=
  ∀ (s : State) (ses : Session) (r : Run) (b : Byte), s.Runs ses r → r.phase = .resync b →
    r.buf.length < r.i + 1 + ses.timing.spare →
    exec .resyncExit s =
      .next { s with
        session := some { ses with rump := r.buf.drop (r.i + 1), cursor := ses.cursor + (r.i + 1), run := none }
        outbox := s.outbox ++ [.fed r.bytes r.ferrs] }

/-- 30_encoding R83, R91 and 43_feed_decoder R164, R166 to R168: a frame row runs where SCAN stands on an in-bound
low start index and the sample points read its levels: FRAME.OK appends the byte, FRAME.ERR one event. -/
def Obligations.FrameRowsRunTheFrame : Prop :=
  ∀ (s : State) (ses : Session) (r : Run) (b : Byte), s.Runs ses r → r.phase = .scan →
    r.i + ses.timing.spare ≤ r.buf.length → level ses.chan r.buf r.i = some false →
    (∀ k : Fin 8, level ses.chan r.buf (r.i + ses.timing.off k) = some (b.getLsbD k.val)) →
    (level ses.chan r.buf (r.i + ses.timing.stop) = some true →
      exec (.frameOk b) s =
        .next { s with session := some { ses with run := some { r with
          i := r.i + ses.timing.stop, bytes := r.bytes ++ [b], phase := .scan } } })
    ∧ (level ses.chan r.buf (r.i + ses.timing.stop) = some false →
      exec (.frameErr b) s =
        .next { s with session := some { ses with run := some { r with
          i := r.i + ses.timing.stop, ferrs := r.ferrs ++ [ses.cursor + (r.i + ses.timing.stop)]
          phase := .resync b } } })

/-- 00_scope R4: the frame rows and the micro-steps agree: FRAME.OK (FRAME.ERR) answers a state exactly when
SCAN.START, SAMPLE and STOPCHK.OK (STOPCHK.ERR) one after another answer it, with that byte sampled. -/
def Obligations.FrameRowsAreThreeMicroSteps : Prop :=
  ∀ (s t : State) (b : Byte),
    (exec (.frameOk b) s = .next t ↔ ∃ u v ses r, exec .scanStart s = .next u ∧ exec .sample u = .next v
      ∧ v.Runs ses r ∧ r.phase = .stopchk b ∧ exec .stopchkOk v = .next t)
    ∧ (exec (.frameErr b) s = .next t ↔ ∃ u v ses r, exec .scanStart s = .next u ∧ exec .sample u = .next v
      ∧ v.Runs ses r ∧ r.phase = .stopchk b ∧ exec .stopchkErr v = .next t)

/-! ## Frames, outputs and ordering -/

/-- What the nine micro-steps and the two frame rows leave unchanged (10_state R20, 20_memory R54, R61): parameters,
grain, inbox, table and channel always; CURSOR, RUMP, BUF and the results handed over unless the FEED exits, which
only SCAN.EXIT and RESYNC.EXIT do; BYTES but for STOPCHK.OK, RESYNC.DONE and FRAME.OK, FERRS but for STOPCHK.ERR and
FRAME.ERR; `I` does not decrease (10_state R27). -/
def Obligations.MicroStepFrame : Prop :=
  ∀ (i : Instr) (s t : State),
    i = .scanSkip ∨ i = .scanStart ∨ i = .scanExit ∨ i = .sample ∨ i = .stopchkOk ∨ i = .stopchkErr
      ∨ i = .resyncHold ∨ i = .resyncDone ∨ i = .resyncExit ∨ (∃ b, i = .frameOk b) ∨ (∃ b, i = .frameErr b) →
    exec i s = .next t →
    t.params = s.params ∧ t.grain = s.grain ∧ t.inbox = s.inbox ∧
      ∃ ses r, s.Runs ses r ∧ ∃ ses', t.session = some ses' ∧ ses'.timing = ses.timing ∧ ses'.chan = ses.chan ∧
        if i = .scanExit ∨ i = .resyncExit then ses'.run = none
        else t.outbox = s.outbox ∧ ses'.cursor = ses.cursor ∧ ses'.rump = ses.rump ∧
          ∃ r', ses'.run = some r' ∧ r'.buf = r.buf ∧ r.i ≤ r'.i ∧ r.bytes <+: r'.bytes ∧ r.ferrs <+: r'.ferrs
            ∧ (r'.bytes ≠ r.bytes → i = .stopchkOk ∨ i = .resyncDone ∨ ∃ b, i = .frameOk b)
            ∧ (r'.ferrs ≠ r.ferrs → i = .stopchkErr ∨ ∃ b, i = .frameErr b)

/-- Where a micro-step or frame row stops. With no FEED running it would read a register that holds no value (10_state
R35). In a running FEED only the micro-step the selector names is a transition of 43_feed_decoder R182; that `exec`
refuses every other, and a frame row away from an in-bound SCAN or with levels that are not its own, is the model's
reading of "There are no others" (log entry 15, DEDUCED). -/
def Obligations.MicroStepsStopOutOfPlace : Prop :=
  (∀ (i : Instr) (v : BitVec 4) (s : State), decodeSelector v = i →
      (s.feeding = false → exec i s = .fault .noValue)
      ∧ ∀ ses r u, s.Runs ses r → selector ses r = some u → decodeSelector u ≠ i →
          exec i s = .refused .notSelected)
    ∧ ∀ (b : Byte) (s : State),
      (s.feeding = false → exec (.frameOk b) s = .fault .noValue ∧ exec (.frameErr b) s = .fault .noValue)
      ∧ ∀ ses r, s.Runs ses r →
        (r.phase ≠ .scan ∨ inBound ses.timing r.buf r.i = false →
          exec (.frameOk b) s = .refused .notSelected ∧ exec (.frameErr b) s = .refused .notSelected)
        ∧ ∀ v, r.phase = .scan → inBound ses.timing r.buf r.i = true → sampledFrame ses r = some v →
          (encode (.frameOk b) ≠ .sf v → exec (.frameOk b) s = .refused .notSelected)
          ∧ (encode (.frameErr b) ≠ .sf v → exec (.frameErr b) s = .refused .notSelected)

/-- 43_feed_decoder R182: in micro-steps, SAMPLE is entered only from SCAN on an in-bound low sample, at that index;
STOPCHK only from SAMPLE; RESYNC only from STOPCHK on a low stop sample, or held; and BYTE does not change from STOPCHK
through RESYNC. -/
def Obligations.PhasesFollowTheTable : Prop :=
  ∀ (s t : State) (a b : Session) (r q : Run), s.grain = .micro → s.Runs a r → step s = .next t → t.Runs b q →
    (q.phase = .sample →
        r.phase = .scan ∧ q.i = r.i ∧ inBound a.timing r.buf r.i = true ∧ level a.chan r.buf r.i = some false)
    ∧ (∀ x, q.phase = .stopchk x → r.phase = .sample ∧ q.i = r.i)
    ∧ (∀ x, q.phase = .resync x →
        (r.phase = .stopchk x ∧ q.i = r.i + a.timing.stop ∧ level a.chan r.buf q.i = some false)
        ∨ (r.phase = .resync x ∧ q.i = r.i + 1 ∧ level a.chan r.buf q.i = some false))

/-- What the five host operations leave unchanged: parameters, grain and inbox always; BUILD and ISHIGH leave the
session as it is (40_timing_model R117, 41_channel_extractor R133); a FEED that enters leaves every register but the
FEED-local ones and hands over nothing yet (43_feed_decoder R161); START and FINISH hand over exactly one result. -/
def Obligations.HostOperationFrame : Prop :=
  ∀ s t : State,
    (∀ sr br, exec (.build sr br) s = .next t →
      t.params = s.params ∧ t.grain = s.grain ∧ t.inbox = s.inbox ∧ t.session = s.session)
    ∧ (∀ w ch, exec (.ishigh w ch) s = .next t →
      t.params = s.params ∧ t.grain = s.grain ∧ t.inbox = s.inbox ∧ t.session = s.session)
    ∧ (∀ tt ch, exec (.start tt ch) s = .next t →
      t.params = s.params ∧ t.grain = s.grain ∧ t.inbox = s.inbox ∧ ∃ x, t.outbox = s.outbox ++ [x])
    ∧ (exec .finish s = .next t →
      t.params = s.params ∧ t.grain = s.grain ∧ t.inbox = s.inbox ∧ t.session = none
        ∧ ∃ x, t.outbox = s.outbox ++ [x])
    ∧ (∀ chunk ses, s.session = some ses → exec (.feed chunk) s = .next t →
      t.params = s.params ∧ t.grain = s.grain ∧ t.inbox = s.inbox ∧ t.outbox = s.outbox ∧
        ∃ ses', t.session = some ses' ∧ ses'.timing = ses.timing ∧ ses'.chan = ses.chan
          ∧ ses'.cursor = ses.cursor ∧ ses'.rump = ses.rump)

/-- 60_exceptions R206, R207: a step hands over at most one result, after all earlier ones, and changes neither the
parameters nor the grain. -/
def Obligations.StepHandsOverAtMostOneResult : Prop :=
  ∀ s t : State, step s = .next t →
    t.params = s.params ∧ t.grain = s.grain ∧ (t.outbox = s.outbox ∨ ∃ x, t.outbox = s.outbox ++ [x])

/-- 43_feed_decoder R172, R182: a step ends a running FEED only through SCAN.EXIT or RESYNC.EXIT, with the exit of
R172: the unconsumed suffix of BUF is the new RUMP, CURSOR grows by the final `I`, BYTES and FERRS are handed over. -/
def Obligations.FeedEndsOnlyAtTheTwoExits : Prop :=
  ∀ (s t : State) (ses : Session) (r : Run), s.Runs ses r → step s = .next t → t.feeding = false →
    ∃ j, (r.phase = .scan ∧ j = r.i ∨ (∃ b, r.phase = .resync b) ∧ j = r.i + 1)
      ∧ r.buf.length < j + ses.timing.spare
      ∧ t = { s with
          session := some { ses with rump := r.buf.drop j, cursor := ses.cursor + j, run := none }
          outbox := s.outbox ++ [.fed r.bytes r.ferrs] }

/-- 10_state R24, R25, R37 items 4 and 5: after any chunks of a session CURSOR counts the words consumed and RUMP is
the rest of the timeline fed so far: no word is lost and none is read twice. -/
def Obligations.CursorAndRumpCutTheTimeline : Prop :=
  ∀ (p : Params) (t : TimingTable) (ch : Nat) (chunks : List (List SampleWord)) (o : Outputs), t.wellFormed = true →
    feedAll p (.fresh t ch) chunks = .next o →
    ∃ consumed, chunks.flatten = consumed ++ o.session.rump ∧ o.session.cursor = consumed.length

/-- 43_feed_decoder R176: after any number of FEEDs RUMP is shorter than SPARE, whatever the chunks. -/
def Obligations.RumpStaysShort : Prop :=
  ∀ (p : Params) (ses : Session) (chunks : List (List SampleWord)) (o : Outputs), ses.timing.wellFormed = true →
    ses.rump.length < ses.timing.spare → feedAll p ses chunks = .next o →
    o.session.rump.length < ses.timing.spare

/-- 20_memory R57, 43_feed_decoder R183: the events of a FEED are strictly increasing absolute indices from CURSOR
on, and at most one more than its bytes, one more only if the FEED leaves through RESYNC.EXIT. -/
def Obligations.EventsAreOrdered : Prop :=
  ∀ (p : Params) (ses : Session) (chunk : List SampleWord) (o : Outputs), ses.timing.wellFormed = true →
    feedWhole p ses chunk = .next o →
    o.ferrs.Pairwise (· < ·) ∧ (∀ a ∈ o.ferrs, ses.cursor ≤ a ∧ a < ses.cursor + (ses.rump ++ chunk).length)
      ∧ o.ferrs.length ≤ o.bytes.length + (if o.resyncExits = [true] then 1 else 0)

/-! ## The whole FEED -/

/-- 43_feed_decoder R173, R174: from its entry a FEED ends after at most `4 N + 4` steps, in the state and with the
outputs of the big-step form, in either grain (the grain is the model's choice, log entry 5). -/
def Obligations.SmallStepsReachTheBigStep : Prop :=
  ∀ (s t : State) (ses : Session) (chunk : List SampleWord), s.Rests ses → ses.timing.wellFormed = true →
    exec (.feed chunk) s = .next t →
    ∃ (k : Nat) (u : Session) (f : FeedResult), k ≤ 4 * (ses.rump ++ chunk).length + 4
      ∧ feedWhole s.params ses chunk = .next { session := u, feeds := [f] }
      ∧ Host.Core.run Sys2Proof.core k t =
          .next { s with session := some u, outbox := s.outbox ++ [.fed f.bytes f.ferrs] }

/-- 42_session_control R147: a host that issues START, the FEEDs and FINISH (issuing and handing over are the model's
lists, log entry 4) gets the session run to its end, and between the two successes one result for each chunk, in
order: that of the big-step form. Where a FEED does not fit a sized build (log entry 9) the run ends in the same
refusal; it never ends in a fault. -/
def Obligations.MachineRunsTheSession : Prop :=
  ∀ (s : State) (t : TimingTable) (ch : Nat) (chunks : List (List SampleWord)) (rest : List Command),
    s.feeding = false → ch < s.params.w → t.wellFormed = true → t.fits s.params = true →
    (∀ c ∈ chunks, (Instr.feed c).wellFormed s.params = true) →
    s.inbox = ⟨0b010, [.table t, .natural ch]⟩ :: chunks.map (fun c => ⟨0b011, [.chunk c]⟩) ++ ⟨0b100, []⟩ :: rest →
    (∀ o, feedAll s.params (.fresh t ch) chunks = .next o → o.feeds.length = chunks.length ∧
        ∃ k, Host.Core.run Sys2Proof.core k s =
          .next { s with
            session := none, inbox := rest
            outbox := s.outbox ++ (.started :: o.feeds.map (fun f => .fed f.bytes f.ferrs) ++ [.finished]) })
    ∧ (∀ q, feedAll s.params (.fresh t ch) chunks = .refused q →
        ∃ k, Host.Core.run Sys2Proof.core k s = .refused q)
    ∧ ∀ f, feedAll s.params (.fresh t ch) chunks ≠ .fault f

/-- 42_session_control R147: the results of a session are those of its FEEDs, one after another: one chunk gives that
FEED's result, and two lists of chunks give the results of the first, then those of the second on the session the first
leaves. -/
def Obligations.SessionsCompose : Prop :=
  ∀ (p : Params) (ses : Session),
    (∀ c, feedAll p ses [c] = feedWhole p ses c)
    ∧ ∀ cs ds : List (List SampleWord), feedAll p ses (cs ++ ds) =
      (feedAll p ses cs).andThen fun a =>
        (feedAll p a.session ds).andThen fun b => .next { session := b.session, feeds := a.feeds ++ b.feeds }

/-- 30_encoding R94, DECODE: BUILD, START with BUILD's table, FEED every chunk in order, FINISH. A ConfigError of BUILD
or START stops it there, no chunk processed. Otherwise the block runs the operations to the end (issued through the
model's list, log entry 4) and the result of DECODE is the concatenation of the BYTES and of the FERRS handed over; in a
sized build a FEED that does not fit (log entry 9) ends both in the same refusal. -/
def Obligations.DecodeRunsOnTheMachine : Prop :=
  ∀ (s : State) (sr br : Number) (ch : Nat) (chunks : List (List SampleWord)) (rest : List Command),
    s.feeding = false → (Instr.build sr br).wellFormed s.params = true →
    (∀ c ∈ chunks, (Instr.feed c).wellFormed s.params = true) →
    (∀ c, buildTable s.params sr br = .error c → s.inbox = ⟨0b000, [.rate sr, .rate br]⟩ :: rest →
        decodeCapture s.params s.session sr br ch chunks = .next (s.session, .error c)
        ∧ step s = .next { s with inbox := rest, outbox := s.outbox ++ [.error c] })
    ∧ ∀ t, buildTable s.params sr br = .ok t →
      (∀ c, startSession s.params t ch = .error c →
        s.inbox = ⟨0b000, [.rate sr, .rate br]⟩ :: ⟨0b010, [.table t, .natural ch]⟩ :: rest →
        decodeCapture s.params s.session sr br ch chunks = .next (none, .error c)
        ∧ Host.Core.run Sys2Proof.core 2 s =
            .next { s with session := none, inbox := rest, outbox := s.outbox ++ [.table t, .error c] })
      ∧ ∀ ses, startSession s.params t ch = .ok ses →
        s.inbox = ⟨0b000, [.rate sr, .rate br]⟩ :: ⟨0b010, [.table t, .natural ch]⟩
          :: chunks.map (fun c => ⟨0b011, [.chunk c]⟩) ++ ⟨0b100, []⟩ :: rest →
        (∃ outs : List (List Byte × List Nat), outs.length = chunks.length
          ∧ decodeCapture s.params s.session sr br ch chunks =
              .next (none, .ok (outs.flatMap (·.1), outs.flatMap (·.2)))
          ∧ ∃ k, Host.Core.run Sys2Proof.core k s =
              .next { s with
                session := none, inbox := rest
                outbox := s.outbox ++ (.table t :: .started :: outs.map (fun x => .fed x.1 x.2) ++ [.finished]) })
        ∨ decodeCapture s.params s.session sr br ch chunks = .refused .feedDoesNotFit
          ∧ ∃ k, Host.Core.run Sys2Proof.core k s = .refused .feedDoesNotFit

/-- 20_memory R67: two ways of cutting one timeline into chunks give the same bytes, events, CURSOR and RUMP, if in
neither session a FEED other than the last leaves through RESYNC.EXIT. -/
def Obligations.ChunkBoundariesDoNotMatter : Prop :=
  ∀ (p : Params) (t : TimingTable) (ch : Nat) (cs ds : List (List SampleWord)) (a b : Outputs), t.wellFormed = true →
    cs.flatten = ds.flatten →
    feedAll p (.fresh t ch) cs = .next a → feedAll p (.fresh t ch) ds = .next b →
    (∀ x ∈ a.resyncExits.dropLast, x = false) → (∀ x ∈ b.resyncExits.dropLast, x = false) →
    a.bytes = b.bytes ∧ a.ferrs = b.ferrs ∧ a.session = b.session

/-- 20_memory R68: states that differ only on channels that are not selected step to states (or stops) that differ
only there; so do FEEDs of chunks that carry the same levels on the selected channel. The results handed over are
equal. -/
def Obligations.OtherChannelsDoNotMatter : Prop :=
  (∀ s t : State, s.SameLine t → Answer.SameLine (step s) (step t))
    ∧ (∀ (s t : State) (c d : List SampleWord), s.SameLine t →
        (∀ ses, s.session = some ses → sameLine ses.chan c d) →
        Answer.SameLine (exec (.feed c) s) (exec (.feed d) t))

/-- 43_feed_decoder R181, line always high: no byte, no event; RUMP is the last `SPARE - 1` words, if there are at
least `SPARE`. -/
def Obligations.IdleLineGivesNothing : Prop :=
  ∀ (p : Params) (ses : Session) (chunk : List SampleWord), ses.timing.wellFormed = true →
    ses.feedFits p chunk = true → (∀ w ∈ ses.rump ++ chunk, w.testBit ses.chan = true) →
    ∃ o, feedWhole p ses chunk = .next o ∧ o.bytes = [] ∧ o.ferrs = [] ∧ o.resyncExits = [false]
      ∧ (ses.timing.spare ≤ (ses.rump ++ chunk).length →
          o.session.rump = (ses.rump ++ chunk).drop ((ses.rump ++ chunk).length + 1 - ses.timing.spare))

/-- 43_feed_decoder R181, line always low and `N ≥ SPARE`: one event, at `CURSOR + STOPOFF`, and no byte. -/
def Obligations.LowLineGivesOneEvent : Prop :=
  ∀ (p : Params) (ses : Session) (chunk : List SampleWord), ses.timing.wellFormed = true →
    ses.feedFits p chunk = true →
    (∀ w ∈ ses.rump ++ chunk, w.testBit ses.chan = false) → ses.timing.spare ≤ (ses.rump ++ chunk).length →
    ∃ o, feedWhole p ses chunk = .next o ∧ o.bytes = [] ∧ o.ferrs = [ses.cursor + ses.timing.stop]
      ∧ o.resyncExits = [true]

/-- 43_feed_decoder R165, R181: a buffer shorter than SPARE is kept whole: the FEED's first step ends it with RUMP
the whole buffer, CURSOR unchanged, no byte and no event. -/
def Obligations.ShortBufferIsKept : Prop :=
  ∀ (s t : State) (ses : Session) (chunk : List SampleWord), s.Rests ses →
    (ses.rump ++ chunk).length < ses.timing.spare → exec (.feed chunk) s = .next t →
    step t =
      .next { s with
        session := some { ses with rump := ses.rump ++ chunk, run := none }
        outbox := s.outbox ++ [.fed [] []] }

/-- 95_test_vectors section 1.2, round trip with an integer number of samples a bit and edges on samples: any words that
carry on the channel an idle lead and then frames, each followed by any idle time (30_encoding R82: "including none
beyond the stop bit"), decode to exactly the bytes of the frames, with no event. Ratios that are not integers are not
covered. -/
def Obligations.CleanLineDecodesToItsBytes : Prop :=
  ∀ (p : Params) (skip lead ch : Nat) (fs : List (Byte × Nat)) (ws : List SampleWord), 1 ≤ skip →
    (Session.fresh (integerTable skip) ch).feedFits p ws = true →
    ws.map (fun w => w.testBit ch) =
      (List.replicate lead 1 ++ fs.flatMap (fun f : Byte × Nat => frameWords skip f.1 ++ List.replicate f.2 1)).map
        (fun w => Nat.testBit w 0) →
    ∃ o, feedWhole p (.fresh (integerTable skip) ch) ws = .next o ∧ o.bytes = fs.map (·.1) ∧ o.ferrs = []
end

