-- ==== Sys2Proof/Laws/State.lean ====
section
/-! SUPPORT. One lemma per field per named update of the state. -/

namespace Sys2Proof.Machine

@[simp] theorem State.deliver_params (s : State) (x : Reply) : (s.deliver x).params = s.params := rfl
@[simp] theorem State.deliver_grain (s : State) (x : Reply) : (s.deliver x).grain = s.grain := rfl
@[simp] theorem State.deliver_session (s : State) (x : Reply) : (s.deliver x).session = s.session := rfl
@[simp] theorem State.deliver_inbox (s : State) (x : Reply) : (s.deliver x).inbox = s.inbox := rfl
@[simp] theorem State.deliver_outbox (s : State) (x : Reply) : (s.deliver x).outbox = s.outbox ++ [x] := rfl

@[simp] theorem State.closeSession_params (s : State) : (s.closeSession).params = s.params := rfl
@[simp] theorem State.closeSession_grain (s : State) : (s.closeSession).grain = s.grain := rfl
@[simp] theorem State.closeSession_session (s : State) : (s.closeSession).session = none := rfl
@[simp] theorem State.closeSession_inbox (s : State) : (s.closeSession).inbox = s.inbox := rfl
@[simp] theorem State.closeSession_outbox (s : State) : (s.closeSession).outbox = s.outbox := rfl

@[simp] theorem State.openSession_params (s : State) (ses : Session) : (s.openSession ses).params = s.params := rfl
@[simp] theorem State.openSession_grain (s : State) (ses : Session) : (s.openSession ses).grain = s.grain := rfl
@[simp] theorem State.openSession_session (s : State) (ses : Session) : (s.openSession ses).session = some ses := rfl
@[simp] theorem State.openSession_inbox (s : State) (ses : Session) : (s.openSession ses).inbox = s.inbox := rfl
@[simp] theorem State.openSession_outbox (s : State) (ses : Session) : (s.openSession ses).outbox = s.outbox := rfl

@[simp] theorem State.setRun_params (s : State) (ses : Session) (r : Run) : (s.setRun ses r).params = s.params := rfl
@[simp] theorem State.setRun_grain (s : State) (ses : Session) (r : Run) : (s.setRun ses r).grain = s.grain := rfl
@[simp] theorem State.setRun_session (s : State) (ses : Session) (r : Run) : (s.setRun ses r).session = some { ses with run := some r } := rfl
@[simp] theorem State.setRun_inbox (s : State) (ses : Session) (r : Run) : (s.setRun ses r).inbox = s.inbox := rfl
@[simp] theorem State.setRun_outbox (s : State) (ses : Session) (r : Run) : (s.setRun ses r).outbox = s.outbox := rfl

@[simp] theorem State.exitFeed_params (s : State) (ses : Session) (r : Run) (i : Nat) : (s.exitFeed ses r i).params = s.params := rfl
@[simp] theorem State.exitFeed_grain (s : State) (ses : Session) (r : Run) (i : Nat) : (s.exitFeed ses r i).grain = s.grain := rfl
@[simp] theorem State.exitFeed_session (s : State) (ses : Session) (r : Run) (i : Nat) : (s.exitFeed ses r i).session = some { ses with rump := r.buf.drop i, cursor := ses.cursor + i, run := none } := rfl
@[simp] theorem State.exitFeed_inbox (s : State) (ses : Session) (r : Run) (i : Nat) : (s.exitFeed ses r i).inbox = s.inbox := rfl
@[simp] theorem State.exitFeed_outbox (s : State) (ses : Session) (r : Run) (i : Nat) : (s.exitFeed ses r i).outbox = s.outbox ++ [.fed r.bytes r.ferrs] := rfl

@[simp] theorem Session.fresh_timing (t : TimingTable) (ch : Nat) : (Session.fresh t ch).timing = t := rfl
@[simp] theorem Session.fresh_chan (t : TimingTable) (ch : Nat) : (Session.fresh t ch).chan = ch := rfl
@[simp] theorem Session.fresh_cursor (t : TimingTable) (ch : Nat) : (Session.fresh t ch).cursor = 0 := rfl
@[simp] theorem Session.fresh_rump (t : TimingTable) (ch : Nat) : (Session.fresh t ch).rump = [] := rfl
@[simp] theorem Session.fresh_run (t : TimingTable) (ch : Nat) : (Session.fresh t ch).run = none := rfl

@[simp] theorem Session.enterFeed_timing (ses : Session) (chunk : List SampleWord) : (ses.enterFeed chunk).timing = ses.timing := rfl
@[simp] theorem Session.enterFeed_chan (ses : Session) (chunk : List SampleWord) : (ses.enterFeed chunk).chan = ses.chan := rfl
@[simp] theorem Session.enterFeed_cursor (ses : Session) (chunk : List SampleWord) : (ses.enterFeed chunk).cursor = ses.cursor := rfl
@[simp] theorem Session.enterFeed_rump (ses : Session) (chunk : List SampleWord) : (ses.enterFeed chunk).rump = ses.rump := rfl
@[simp] theorem Session.enterFeed_run (ses : Session) (chunk : List SampleWord) : (ses.enterFeed chunk).run = some ⟨ses.rump ++ chunk, .scan, 0, [], []⟩ := rfl

@[simp] theorem Run.keepByte_buf (r : Run) (b : Byte) (j : Nat) : (r.keepByte b j).buf = r.buf := rfl
@[simp] theorem Run.keepByte_phase (r : Run) (b : Byte) (j : Nat) : (r.keepByte b j).phase = .scan := rfl
@[simp] theorem Run.keepByte_i (r : Run) (b : Byte) (j : Nat) : (r.keepByte b j).i = j := rfl
@[simp] theorem Run.keepByte_bytes (r : Run) (b : Byte) (j : Nat) : (r.keepByte b j).bytes = r.bytes ++ [b] := rfl
@[simp] theorem Run.keepByte_ferrs (r : Run) (b : Byte) (j : Nat) : (r.keepByte b j).ferrs = r.ferrs := rfl

@[simp] theorem Run.takeFramingError_buf (r : Run) (c : Nat) (b : Byte) (j : Nat) : (r.takeFramingError c b j).buf = r.buf := rfl
@[simp] theorem Run.takeFramingError_phase (r : Run) (c : Nat) (b : Byte) (j : Nat) : (r.takeFramingError c b j).phase = .resync b := rfl
@[simp] theorem Run.takeFramingError_i (r : Run) (c : Nat) (b : Byte) (j : Nat) : (r.takeFramingError c b j).i = j := rfl
@[simp] theorem Run.takeFramingError_bytes (r : Run) (c : Nat) (b : Byte) (j : Nat) : (r.takeFramingError c b j).bytes = r.bytes := rfl
@[simp] theorem Run.takeFramingError_ferrs (r : Run) (c : Nat) (b : Byte) (j : Nat) : (r.takeFramingError c b j).ferrs = r.ferrs ++ [c + j] := rfl

@[simp] theorem Run.returnFromFramingError_buf (r : Run) (b : Byte) (j : Nat) : (r.returnFromFramingError b j).buf = r.buf := rfl
@[simp] theorem Run.returnFromFramingError_phase (r : Run) (b : Byte) (j : Nat) : (r.returnFromFramingError b j).phase = .scan := rfl
@[simp] theorem Run.returnFromFramingError_i (r : Run) (b : Byte) (j : Nat) : (r.returnFromFramingError b j).i = j := rfl
@[simp] theorem Run.returnFromFramingError_bytes (r : Run) (b : Byte) (j : Nat) : (r.returnFromFramingError b j).bytes = r.bytes ++ [b] := rfl
@[simp] theorem Run.returnFromFramingError_ferrs (r : Run) (b : Byte) (j : Nat) : (r.returnFromFramingError b j).ferrs = r.ferrs := rfl

end Sys2Proof.Machine
end

