-- ==== Sys2Proof/Laws/Ops.lean ====
section
/-! SUPPORT. For each shared operation, what it can answer, said once. -/

namespace Sys2Proof.Machine

/-- ISHIGH's mask and test is the bit of that weight (41_channel_extractor R132). -/
theorem isHigh_eq_testBit (w c : Nat) : isHigh w c = w.testBit c := by
  unfold isHigh
  rw [Nat.one_shiftLeft, Nat.and_two_pow]
  cases w.testBit c <;> simp

@[simp] theorem inBound_iff (t : TimingTable) (buf : List SampleWord) (j : Nat) :
    inBound t buf j = true ↔ j + t.spare ≤ buf.length := by simp [inBound]

theorem not_inBound_iff (t : TimingTable) (buf : List SampleWord) (j : Nat) :
    inBound t buf j = false ↔ buf.length < j + t.spare := by simp [inBound]

/-- `Level(j)` has a value exactly inside BUF (43_feed_decoder R162). -/
theorem level_isSome_iff (ch : Nat) (buf : List SampleWord) (j : Nat) :
    (level ch buf j).isSome = true ↔ j < buf.length := by simp [level, memRead]

theorem level_of_lt (ch : Nat) (buf : List SampleWord) (j : Nat) (h : j < buf.length) :
    ∃ l, level ch buf j = some l :=
  Option.isSome_iff_exists.mp ((level_isSome_iff ch buf j).mpr h)

theorem lt_of_level {ch : Nat} {buf : List SampleWord} {j : Nat} {l : Bool}
    (h : level ch buf j = some l) : j < buf.length :=
  (level_isSome_iff ch buf j).mp (by simp [h])

/-- SAMPLE's byte exists where its eight reads do (43_feed_decoder R166). -/
theorem sampleByte_eq_some_iff (t : TimingTable) (ch : Nat) (buf : List SampleWord) (i : Nat) (b : Byte) :
    sampleByte t ch buf i = some b ↔
      ∃ l : Fin 8 → Bool, (∀ k, level ch buf (i + t.off k) = some (l k))
        ∧ byteOfLevels (l 0) (l 1) (l 2) (l 3) (l 4) (l 5) (l 6) (l 7) = b := by
  constructor
  · intro h
    simp only [sampleByte, Option.bind_eq_bind, Option.bind_eq_some_iff, Option.pure_def,
      Option.some.injEq] at h
    obtain ⟨l0, h0, l1, h1, l2, h2, l3, h3, l4, h4, l5, h5, l6, h6, l7, h7, rfl⟩ := h
    refine ⟨![l0, l1, l2, l3, l4, l5, l6, l7], ?_, rfl⟩
    intro k
    fin_cases k <;> assumption
  · rintro ⟨l, hl, rfl⟩
    simp [sampleByte, hl]

/-- Each bit of the assembled byte is the level sampled for it (30_encoding R85, R89). -/
theorem getLsbD_byteOfLevels (l : Fin 8 → Bool) (k : Fin 8) :
    (byteOfLevels (l 0) (l 1) (l 2) (l 3) (l 4) (l 5) (l 6) (l 7)).getLsbD k = l k := by
  generalize h0 : l 0 = a0
  generalize h1 : l 1 = a1
  generalize h2 : l 2 = a2
  generalize h3 : l 3 = a3
  generalize h4 : l 4 = a4
  generalize h5 : l 5 = a5
  generalize h6 : l 6 = a6
  generalize h7 : l 7 = a7
  fin_cases k <;> simp only [Fin.zero_eta, Fin.mk_one, Fin.reduceFinMk, h0, h1, h2, h3, h4, h5, h6, h7] <;>
    (clear h0 h1 h2 h3 h4 h5 h6 h7; revert a0 a1 a2 a3 a4 a5 a6 a7; decide)

theorem TimingTable.wellFormed_iff (t : TimingTable) :
    t.wellFormed = true ↔ (∀ k, t.off k < t.spare) ∧ t.stop < t.spare := by
  constructor
  · intro h
    simp only [TimingTable.wellFormed, Bool.and_eq_true, decide_eq_true_eq] at h
    refine ⟨fun k => ?_, h.2⟩
    fin_cases k <;> simp [TimingTable.off] <;> omega
  · rintro ⟨h, hs⟩
    have := h 0; have := h 1; have := h 2; have := h 3
    have := h 4; have := h 5; have := h 6; have := h 7
    simp_all [TimingTable.wellFormed, TimingTable.off]

/-- With a well-formed table every read of a frame whose start index is in bounds lies inside BUF
(20_memory R58). -/
theorem sampleByte_of_inBound {t : TimingTable} (ch : Nat) {buf : List SampleWord} {i : Nat}
    (hwf : t.wellFormed = true) (h : inBound t buf i = true) : ∃ b, sampleByte t ch buf i = some b := by
  have hw := (TimingTable.wellFormed_iff t).mp hwf
  have hb := (inBound_iff t buf i).mp h
  choose l hl using fun k => level_of_lt ch buf (i + t.off k) (by have := hw.1 k; omega)
  exact ⟨_, (sampleByte_eq_some_iff t ch buf i _).mpr ⟨l, hl, rfl⟩⟩

theorem State.feeding_eq_false_iff (s : State) :
    s.feeding = false ↔ ∀ ses, s.session = some ses → ses.run = none := by
  cases h : s.session <;> simp [State.feeding, h]

theorem State.feeding_iff_runs (s : State) : s.feeding = true ↔ ∃ ses r, s.Runs ses r := by
  cases h : s.session <;> simp [State.feeding, State.Runs, h, Option.isSome_iff_exists]

theorem betweenOperations_eq_next {s t : State} {k : Answer} :
    s.betweenOperations k = .next t ↔ s.feeding = false ∧ k = .next t := by
  cases h : s.feeding <;> simp [State.betweenOperations, h]

theorem inSession_eq_next {s t : State} {k : Session → Answer} :
    s.inSession k = .next t ↔
      (s.session = none ∧ t = s.deliver (.error .noSession)) ∨ ∃ ses, s.session = some ses ∧ k ses = .next t := by
  cases h : s.session <;> simp [State.inSession, State.raise, h, eq_comm]

theorem onFeed_eq_next {s t : State} {k : Session → Run → Answer} :
    s.onFeed k = .next t ↔ ∃ ses r, s.Runs ses r ∧ k ses r = .next t := by
  unfold State.onFeed State.Runs
  cases h : s.session with
  | none => simp
  | some ses => cases h' : ses.run <;> simp [h']

theorem onFeed_of_runs {s : State} {ses : Session} {r : Run} (h : s.Runs ses r) (k : Session → Run → Answer) :
    s.onFeed k = k ses r := by simp [State.onFeed, h.1, h.2]

@[simp] theorem require_eq_next {c : Bool} {k : Answer} {t : State} :
    require c k = .next t ↔ c = true ∧ k = .next t := by cases c <;> simp [require]

@[simp] theorem withRead_eq_next {α : Type} {v : Option α} {k : α → Answer} {t : State} :
    withRead v k = .next t ↔ ∃ x, v = some x ∧ k x = .next t := by cases v <;> simp [withRead]

@[simp] theorem requireLevel_eq_next {ses : Session} {r : Run} {j : Nat} {hi : Bool} {k : Answer} {t : State} :
    requireLevel ses r j hi k = .next t ↔ level ses.chan r.buf j = some hi ∧ k = .next t := by
  unfold requireLevel
  cases h : level ses.chan r.buf j <;> simp [withRead]

end Sys2Proof.Machine
end

