-- ==== Sys2Proof/Laws/Memory.lean ====
section
/-! SUPPORT. The operations on the sample buffer keep its words inside `W` bits. -/

namespace Sys2Proof.Machine

@[simp] theorem Memory.wf_nil (p : Params) : Memory.wf p [] = true := rfl

@[simp] theorem Memory.wf_append (p : Params) (a b : List SampleWord) :
    Memory.wf p (a ++ b) = (Memory.wf p a && Memory.wf p b) := by simp [Memory.wf]

/-- The RUMP store keeps the form (20_memory R60). -/
theorem Memory.wf_drop (p : Params) (a : List SampleWord) (i : Nat) (h : Memory.wf p a = true) :
    Memory.wf p (a.drop i) = true := by
  simp only [Memory.wf, List.all_eq_true] at *
  exact fun x hx => h x (List.mem_of_mem_drop hx)

/-- FEED entry keeps the form (20_memory R51). -/
theorem Memory.wf_feedBuffer (p : Params) (ses : Session) (chunk : List SampleWord)
    (h : Memory.wf p ses.rump = true) (hc : (Instr.feed chunk).wellFormed p = true) :
    Memory.wf p (ses.feedBuffer chunk) = true := by
  simpa [Session.feedBuffer, Memory.wf, Instr.wellFormed] using And.intro h hc

/-- A word read from a buffer of the instance has `W` bits (20_memory R53). -/
theorem Memory.wf_read (p : Params) (m : List SampleWord) (j : Nat) (w : SampleWord)
    (h : Memory.wf p m = true) (hr : memRead m j = some w) : w < 2 ^ p.w := by
  simp only [Memory.wf, List.all_eq_true, wordFits, decide_eq_true_eq] at h
  exact h w (List.mem_of_getElem? hr)

end Sys2Proof.Machine
end

