-- ==== Sys2Proof/Laws/Exec.lean ====
section
/-! SUPPORT. For each micro-step and frame row, when it answers a next state and which (43_feed_decoder R182). -/

namespace Sys2Proof.Machine

theorem execScanSkip_eq_next {s t : State} : execScanSkip s = .next t ↔
    ∃ ses r, s.Runs ses r ∧ r.phase = .scan ∧ inBound ses.timing r.buf r.i = true
      ∧ level ses.chan r.buf r.i = some true ∧ t = s.setRun ses { r with i := r.i + 1 } := by
  unfold execScanSkip
  simp only [onFeed_eq_next, require_eq_next, requireLevel_eq_next, Bool.and_eq_true, Host.Outcome.next.injEq]
  refine exists_congr fun ses => exists_congr fun r => ?_
  cases h : r.phase <;> simp [Phase.isScan, @eq_comm State t]

theorem execScanStart_eq_next {s t : State} : execScanStart s = .next t ↔
    ∃ ses r, s.Runs ses r ∧ r.phase = .scan ∧ inBound ses.timing r.buf r.i = true
      ∧ level ses.chan r.buf r.i = some false ∧ t = s.setRun ses { r with phase := .sample } := by
  unfold execScanStart
  simp only [onFeed_eq_next, require_eq_next, requireLevel_eq_next, Bool.and_eq_true, Host.Outcome.next.injEq]
  refine exists_congr fun ses => exists_congr fun r => ?_
  cases h : r.phase <;> simp [Phase.isScan, @eq_comm State t]

theorem execScanExit_eq_next {s t : State} : execScanExit s = .next t ↔
    ∃ ses r, s.Runs ses r ∧ r.phase = .scan ∧ inBound ses.timing r.buf r.i = false
      ∧ t = s.exitFeed ses r r.i := by
  unfold execScanExit
  simp only [onFeed_eq_next, require_eq_next, Bool.and_eq_true, Bool.not_eq_true', Host.Outcome.next.injEq]
  refine exists_congr fun ses => exists_congr fun r => ?_
  cases h : r.phase <;> simp [Phase.isScan, @eq_comm State t]

theorem execSample_eq_next {s t : State} : execSample s = .next t ↔
    ∃ ses r b, s.Runs ses r ∧ r.phase = .sample
      ∧ sampleByte ses.timing ses.chan r.buf r.i = some b ∧ t = s.setRun ses { r with phase := .stopchk b } := by
  unfold execSample
  simp only [onFeed_eq_next, require_eq_next, withRead_eq_next, Host.Outcome.next.injEq]
  refine exists_congr fun ses => exists_congr fun r => ?_
  cases h : r.phase <;> simp [Phase.isSample, @eq_comm State t]

theorem execStopchkOk_eq_next {s t : State} : execStopchkOk s = .next t ↔
    ∃ ses r b, s.Runs ses r ∧ r.phase = .stopchk b
      ∧ level ses.chan r.buf (r.i + ses.timing.stop) = some true
      ∧ t = s.setRun ses (r.keepByte b (r.i + ses.timing.stop)) := by
  unfold execStopchkOk
  simp only [onFeed_eq_next]
  refine exists_congr fun ses => exists_congr fun r => ?_
  cases h : r.phase <;> simp [@eq_comm State t]

theorem execStopchkErr_eq_next {s t : State} : execStopchkErr s = .next t ↔
    ∃ ses r b, s.Runs ses r ∧ r.phase = .stopchk b
      ∧ level ses.chan r.buf (r.i + ses.timing.stop) = some false
      ∧ t = s.setRun ses (r.takeFramingError ses.cursor b (r.i + ses.timing.stop)) := by
  unfold execStopchkErr
  simp only [onFeed_eq_next]
  refine exists_congr fun ses => exists_congr fun r => ?_
  cases h : r.phase <;> simp [@eq_comm State t]

theorem execResyncHold_eq_next {s t : State} : execResyncHold s = .next t ↔
    ∃ ses r b, s.Runs ses r ∧ r.phase = .resync b ∧ inBound ses.timing r.buf (r.i + 1) = true
      ∧ level ses.chan r.buf (r.i + 1) = some false ∧ t = s.setRun ses { r with i := r.i + 1 } := by
  unfold execResyncHold
  simp only [onFeed_eq_next]
  refine exists_congr fun ses => exists_congr fun r => ?_
  cases h : r.phase <;> simp [@eq_comm State t]

theorem execResyncDone_eq_next {s t : State} : execResyncDone s = .next t ↔
    ∃ ses r b, s.Runs ses r ∧ r.phase = .resync b ∧ inBound ses.timing r.buf (r.i + 1) = true
      ∧ level ses.chan r.buf (r.i + 1) = some true
      ∧ t = s.setRun ses (r.returnFromFramingError b (r.i + 1)) := by
  unfold execResyncDone
  simp only [onFeed_eq_next]
  refine exists_congr fun ses => exists_congr fun r => ?_
  cases h : r.phase <;> simp [@eq_comm State t]

theorem execResyncExit_eq_next {s t : State} : execResyncExit s = .next t ↔
    ∃ ses r b, s.Runs ses r ∧ r.phase = .resync b ∧ inBound ses.timing r.buf (r.i + 1) = false
      ∧ t = s.exitFeed ses r (r.i + 1) := by
  unfold execResyncExit
  simp only [onFeed_eq_next]
  refine exists_congr fun ses => exists_congr fun r => ?_
  cases h : r.phase <;> simp [@eq_comm State t]

theorem onFrame_eq_next {s t : State} {v : BitVec 10} {k : Session → Run → Answer} :
    onFrame s v k = .next t ↔
      ∃ ses r, s.Runs ses r ∧ r.phase = .scan ∧ inBound ses.timing r.buf r.i = true
        ∧ sampledFrame ses r = some v ∧ k ses r = .next t := by
  unfold onFrame
  simp only [onFeed_eq_next, require_eq_next, withRead_eq_next, Bool.and_eq_true]
  refine exists_congr fun ses => exists_congr fun r => ?_
  cases h : r.phase <;> simp [Phase.isScan]

end Sys2Proof.Machine
end

