-- ==== Sys2Proof/Laws/Frame.lean ====
section
/-! SUPPORT. The ten levels of a frame: reading back the byte and the stop level, and when the sampled frame is
a given one (30_encoding R83). -/

namespace Sys2Proof.Machine

theorem frameByte_frameLevels (stop : Bool) : ∀ b : Byte, frameByte (frameLevels b stop) = b := by
  cases stop <;> decide +revert
theorem getLsbD_frameLevels_nine (stop : Bool) : ∀ b : Byte, (frameLevels b stop).getLsbD 9 = false := by
  cases stop <;> decide +revert
theorem getLsbD_frameLevels_zero (stop : Bool) : ∀ b : Byte, (frameLevels b stop).getLsbD 0 = stop := by
  cases stop <;> decide +revert

theorem frameLevels_inj {a b : Byte} {x y : Bool} : frameLevels a x = frameLevels b y ↔ a = b ∧ x = y := by
  constructor
  · intro h
    have h1 := congrArg frameByte h
    have h2 := congrArg (·.getLsbD 0) h
    simp only [frameByte_frameLevels, getLsbD_frameLevels_zero] at h1 h2
    exact ⟨h1, h2⟩
  · rintro ⟨rfl, rfl⟩; rfl

theorem startLevel_append (x : Bool) (stop : Bool) : ∀ b : Byte, (BitVec.ofBool x ++ (frameLevels b stop).setWidth 9 : BitVec 10) =
   (if x then (0b1000000000#10 ||| frameLevels b stop) else frameLevels b stop) := by
  cases x <;> cases stop <;> decide +revert

theorem startLevel_high (stop : Bool) : ∀ b : Byte,  (0b1000000000#10 ||| frameLevels b stop).getLsbD 9 = true := by
  cases stop <;> decide +revert

theorem sampledFrame_eq_some_iff {ses : Session} {r : Run} {b : Byte} {l : Bool} :
    sampledFrame ses r = some (frameLevels b l) ↔
      level ses.chan r.buf r.i = some false ∧ sampleByte ses.timing ses.chan r.buf r.i = some b ∧ level ses.chan r.buf (r.i + ses.timing.stop) = some l := by
  unfold sampledFrame
  cases h1 : level ses.chan r.buf r.i with
  | none => simp
  | some x =>
  cases h2 : sampleByte ses.timing ses.chan r.buf r.i with
  | none => simp
  | some c =>
  cases h3 : level ses.chan r.buf (r.i + ses.timing.stop) with
  | none => simp
  | some y =>
    simp only [Option.bind_eq_bind, Option.bind_some, Option.pure_def, Option.some.injEq, startLevel_append]
    cases x
    · simp [frameLevels_inj]
    · simp only [if_true]
      constructor
      · intro h
        have := congrArg (·.getLsbD 9) h
        simp only [startLevel_high, getLsbD_frameLevels_nine] at this
        cases this
      · simp

end Sys2Proof.Machine
end

