-- ==== Sys2Proof/Laws/Step.lean ====
section
/-! SUPPORT. What one step can do: the cases of fetch and step, and which row a running FEED selects. -/

namespace Sys2Proof.Machine

theorem State.feeding_of_runs {s : State} {ses : Session} {r : Run} (h : s.Runs ses r) : s.feeding = true :=
  s.feeding_iff_runs.mpr ⟨ses, r, h⟩

theorem fetch_of_not_feeding {s : State} (h : s.feeding = false) : s.fetch = fetchInbox s := by
  unfold State.fetch
  cases hs : s.session with
  | none => rfl
  | some ses => simp [(s.feeding_eq_false_iff.mp h) ses hs]

theorem fetch_of_runs {s : State} {ses : Session} {r : Run} (h : s.Runs ses r) :
    s.fetch = fetchRow s (nextRow s.grain ses r) := by simp [State.fetch, h.1, h.2]

/-- An issued operation is fetched only if it decodes and its operands are values of their types. -/
theorem fetchCommand_eq_instr {s t : State} {c : Command} {rest : List Command} {i : Instr} :
    fetchCommand s c rest = .instr i t ↔
      decode (.cmd c) = .ok i ∧ i.wellFormed s.params = true ∧ t = { s with inbox := rest } := by
  unfold fetchCommand
  cases hd : decode (.cmd c) with
  | error e => cases e <;> simp
  | ok j =>
    cases hw : j.wellFormed s.params
    · simp only [hw, Bool.false_eq_true, if_false, reduceCtorEq, false_iff, not_and, Except.ok.injEq]
      rintro rfl h
      simp [hw] at h
    · simp only [hw, if_true, Fetched.instr.injEq, Except.ok.injEq]
      constructor
      · rintro ⟨rfl, rfl⟩
        exact ⟨rfl, hw, rfl⟩
      · rintro ⟨rfl, -, rfl⟩
        exact ⟨rfl, rfl⟩

/-- Everything a step that answers a next state can have done. -/
theorem step_next_cases {s t : State} (h : step s = .next t) :
    (s.feeding = false ∧ s.inbox = [] ∧ t = s)
    ∨ (s.feeding = false ∧ ∃ c rest i, s.inbox = c :: rest ∧ decode (.cmd c) = .ok i
        ∧ i.wellFormed s.params = true ∧ exec i { s with inbox := rest } = .next t)
    ∨ (∃ ses r e i, s.Runs ses r ∧ nextRow s.grain ses r = some e ∧ decode e = .ok i ∧ exec i s = .next t) := by
  unfold step at h
  cases hf : s.feeding with
  | false =>
    rw [fetch_of_not_feeding hf] at h
    unfold fetchInbox at h
    cases hi : s.inbox with
    | nil => simp only [hi, Host.Outcome.next.injEq] at h; exact .inl ⟨rfl, rfl, h.symm⟩
    | cons c rest =>
      simp only [hi] at h
      cases hc : fetchCommand s c rest with
      | idle => unfold fetchCommand at hc; split at hc <;> (try split at hc) <;> simp at hc
      | refused _ => simp [hc] at h
      | fault _ => simp [hc] at h
      | instr i t' =>
        obtain ⟨hd, hw, rfl⟩ := fetchCommand_eq_instr.mp hc
        exact .inr (.inl ⟨rfl, c, rest, i, rfl, hd, hw, by simpa [hc] using h⟩)
  | true =>
    obtain ⟨ses, r, hr⟩ := s.feeding_iff_runs.mp hf
    rw [fetch_of_runs hr] at h
    unfold fetchRow at h
    cases hn : nextRow s.grain ses r with
    | none => simp [hn] at h
    | some e =>
      simp only [hn] at h
      cases hd : decode e with
      | error _ => simp [hd] at h
      | ok i => exact .inr (.inr ⟨ses, r, e, i, hr, hn, hd, by simpa [hd] using h⟩)

end Sys2Proof.Machine
end

