-- ==== Sys2Proof/Laws/Invariant.lean ====
section
/-! SUPPORT. How the invariant passes through the two ways a running FEED goes on: another FEED-local state, or
the exit. -/

namespace Sys2Proof.Machine

/-- A state runs one FEED at most. -/
theorem State.Runs.unique {s : State} {ses ses' : Session} {r r' : Run} (h : s.Runs ses r)
    (h' : s.Runs ses' r') : ses' = ses ∧ r' = r := by
  obtain ⟨h1, h2⟩ := h
  obtain ⟨h3, h4⟩ := h'
  rw [h1] at h3
  cases h3
  rw [h2] at h4
  cases h4
  exact ⟨rfl, rfl⟩

theorem Session.Inv.run {p} {ses : Session} (h : ses.Inv p) {r} (hr : ses.run = some r) : r.Inv p ses := h.2.2.2.2.2.2 r hr

theorem Session.Inv.offsets_lt_spare {ses : Session} {p} (h : ses.Inv p) : ses.timing.stop < ses.timing.spare ∧ ∀ k, ses.timing.off k < ses.timing.spare :=
  ⟨((TimingTable.wellFormed_iff _).mp h.1).2, ((TimingTable.wellFormed_iff _).mp h.1).1⟩

theorem State.Inv.setRun {s : State} {ses : Session} {r r' : Run} (h : s.Inv) (hr : s.Runs ses r) (hi : r'.Inv s.params ses) :
    (s.setRun ses r').Inv := by
  refine ⟨h.1, ?_⟩
  have hs := h.2 ses hr.1
  intro ses' hs'
  simp only [State.setRun_session, Option.mem_def, Option.some.injEq] at hs'
  subst hs'
  obtain ⟨a, b, c, d, e, f, g⟩ := hs
  refine ⟨a, b, c, d, e, f, ?_⟩
  intro x hx
  simp only [Option.mem_def, Option.some.injEq] at hx
  subst hx
  exact hi

theorem Params.fitsCur_mono {p : Params} {a b : Nat} (h : p.fitsCur b = true) (hab : a ≤ b) : p.fitsCur a = true := by
  unfold Params.fitsCur fitsBits at *
  cases hc : p.curBits with
  | none => rfl
  | some b => simp only [hc, decide_eq_true_eq] at h ⊢; exact lt_of_le_of_lt hab h

theorem State.Inv.exitFeed {s : State} {ses : Session} {r : Run} {j : Nat} (h : s.Inv) (hr : s.Runs ses r) (hj : j ≤ r.buf.length)
    (hb : r.buf.length < j + ses.timing.spare) {bytes : List Byte} {ferrs : List Nat} {x : Bool}
    (he : finishRun ses r = some ⟨j, bytes, ferrs, x⟩) : (s.exitFeed ses r j).Inv := by
  refine ⟨h.1, ?_⟩
  have hs := h.2 ses hr.1
  have hri := Session.Inv.run hs hr.2
  intro ses' hs'
  simp only [State.exitFeed_session, Option.mem_def, Option.some.injEq] at hs'
  subst hs'
  obtain ⟨a, b, c, d, e, f, g⟩ := hs
  refine ⟨a, b, c, ?_, Memory.wf_drop _ _ _ hri.2.2.2.1, ?_, by simp⟩
  · simp; omega
  · have := hri.2.2.2.2.2.2 _ he
    simp only [FeedEnd.fits, Bool.and_eq_true] at this
    exact this.1

end Sys2Proof.Machine
end

