-- ==== Sys2Proof/Laws/Whole.lean ====
section
/-! SUPPORT. The loops of the big-step form end, stay inside BUF and leave where R172 says (43_feed_decoder R174
to R176); every micro-step keeps the end the FEED is heading for. -/

namespace Sys2Proof.Machine

variable {t : TimingTable} {ch cursor : Nat} {buf : List SampleWord}

/-- Where the RESYNC loop can end: at a later index, high and in bounds, or the first out of bounds. -/
def ResyncEnd.From (t : TimingTable) (ch : Nat) (buf : List SampleWord) (i : Nat) : ResyncEnd → Prop
  | .kept j => i < j ∧ inBound t buf j = true ∧ level ch buf j = some true
  | .exhausted j => i < j ∧ j ≤ buf.length ∧ inBound t buf j = false

theorem resyncLoop_total (hs : 0 < t.spare) : ∀ fuel i, i < buf.length → buf.length < fuel + i →
    ∃ e, resyncLoop t ch buf fuel i = some e ∧ e.From t ch buf i := by
  intro fuel
  induction fuel with
  | zero => intro i h1 h2; omega
  | succ fuel ih =>
    intro i h1 h2
    unfold resyncLoop
    cases hb : inBound t buf (i + 1) with
    | false => exact ⟨_, rfl, by omega, h1, hb⟩
    | true =>
      have hlt : i + 1 < buf.length := by have := (inBound_iff _ _ _).mp hb; omega
      obtain ⟨l, hl⟩ := level_of_lt ch buf (i + 1) hlt
      cases l with
      | true => exact ⟨.kept (i + 1), by simp [hl], by omega, hb, hl⟩
      | false =>
        obtain ⟨e, he, hf⟩ := ih (i + 1) hlt (by omega)
        refine ⟨e, by simpa [hl] using he, ?_⟩
        cases e with
        | kept j => exact ⟨by have := hf.1; omega, hf.2⟩
        | exhausted j => exact ⟨by have := hf.1; omega, hf.2⟩

/-- The SCAN loop ends within `N + 1` turns, at an index out of bounds that is at most `N` (R174 to R176). -/
theorem scanLoop_total (hw : t.wellFormed = true) : ∀ fuel i bytes ferrs, i ≤ buf.length → buf.length < fuel + i →
    ∃ e, scanLoop t ch cursor buf fuel i bytes ferrs = some e ∧ i ≤ e.i ∧ e.i ≤ buf.length
      ∧ inBound t buf e.i = false := by
  have hstop := ((TimingTable.wellFormed_iff t).mp hw).2
  intro fuel
  induction fuel with
  | zero => intro i _ _ h1 h2; omega
  | succ fuel ih =>
    intro i bytes ferrs h1 h2
    unfold scanLoop
    cases hb : inBound t buf i with
    | false => exact ⟨_, rfl, Nat.le_refl _, h1, hb⟩
    | true =>
      have hin := (inBound_iff _ _ _).mp hb
      obtain ⟨l, hl⟩ := level_of_lt ch buf i (by omega)
      cases l with
      | true =>
        obtain ⟨e, he, h⟩ := ih (i + 1) bytes ferrs (by omega) (by omega)
        exact ⟨e, by simpa [hl] using he, by omega, h.2⟩
      | false =>
        obtain ⟨b, hsb⟩ := sampleByte_of_inBound ch hw hb
        obtain ⟨l, hstl⟩ := level_of_lt ch buf (i + t.stop) (by omega)
        cases l with
        | true =>
          have hpos : 0 < t.stop := by
            rcases Nat.eq_zero_or_pos t.stop with h0 | h0
            · simp [h0, hl] at hstl
            · exact h0
          obtain ⟨e, he, h⟩ := ih (i + t.stop) (bytes ++ [b]) ferrs (by omega) (by omega)
          exact ⟨e, by simpa [hl, hsb, hstl] using he, by omega, h.2⟩
        | false =>
          obtain ⟨x, hx, hf⟩ := resyncLoop_total (ch := ch) (buf := buf) (t := t) (by omega) (buf.length + 1)
            (i + t.stop) (by omega) (by omega)
          cases x with
          | kept j =>
            have hj := lt_of_level hf.2.2
            have hij := hf.1
            obtain ⟨e, he, h⟩ := ih j (bytes ++ [b]) (ferrs ++ [cursor + (i + t.stop)]) (by omega) (by omega)
            exact ⟨e, by simpa [hl, hsb, hstl, hx] using he, by omega, h.2⟩
          | exhausted j =>
            have hij := hf.1
            exact ⟨_, by simp [hl, hsb, hstl, hx]; rfl, by simp only; omega, hf.2⟩

/-- With a well-formed table FEED has no failing path (43_feed_decoder R178). -/
theorem feedLoop_total (hw : t.wellFormed = true) :
    ∃ e, feedLoop t ch cursor buf = some e ∧ e.i ≤ buf.length ∧ inBound t buf e.i = false := by
  obtain ⟨e, he, -, h⟩ := scanLoop_total (ch := ch) (cursor := cursor) (buf := buf) hw (buf.length + 1) 0 [] []
    (Nat.zero_le _) (by omega)
  exact ⟨e, he, h⟩

/-- More fuel does not change where RESYNC ends. -/
theorem resyncLoop_mono {e : ResyncEnd} : ∀ {fuel fuel' i}, resyncLoop t ch buf fuel i = some e → fuel ≤ fuel' →
    resyncLoop t ch buf fuel' i = some e := by
  intro fuel
  induction fuel with
  | zero => intro _ i h; simp [resyncLoop] at h
  | succ fuel ih =>
    intro fuel' i h hf
    obtain ⟨k, rfl⟩ : ∃ k, fuel' = k + 1 := ⟨fuel' - 1, by omega⟩
    unfold resyncLoop at h ⊢
    split <;> rename_i hb <;> simp only [hb, if_true] at h ⊢
    · cases hl : level ch buf (i + 1) with
      | none => simp [hl] at h
      | some l =>
        cases l with
        | true => simpa [hl] using h
        | false => simp only [hl] at h ⊢; exact ih h (by omega)
    · simpa using h

/-- More fuel does not change where a FEED ends. -/
theorem scanLoop_mono {e : FeedEnd} : ∀ {fuel fuel' i bytes ferrs},
    scanLoop t ch cursor buf fuel i bytes ferrs = some e → fuel ≤ fuel' →
    scanLoop t ch cursor buf fuel' i bytes ferrs = some e := by
  intro fuel
  induction fuel with
  | zero => intro _ i _ _ h; simp [scanLoop] at h
  | succ fuel ih =>
    intro fuel' i bytes ferrs h hf
    obtain ⟨k, rfl⟩ : ∃ k, fuel' = k + 1 := ⟨fuel' - 1, by omega⟩
    unfold scanLoop at h ⊢
    split at h
    · rename_i hb
      simp only [hb, if_true]
      split at h
      · simp at h
      · exact ih h (by omega)
      · split at h
        · exact ih h (by omega)
        · split at h
          · exact ih h (by omega)
          · exact h
          · simp at h
        · simp at h
    · rename_i hb
      simpa [hb] using h

/-- Any fuel that is enough gives the end that `N + 1` gives. -/
theorem scanLoop_fuel (hw : t.wellFormed = true) {fuel i : Nat} {bytes : List Byte} {ferrs : List Nat}
    (hi : i ≤ buf.length) (hf : buf.length < fuel + i) :
    scanLoop t ch cursor buf fuel i bytes ferrs = scanLoop t ch cursor buf (buf.length + 1) i bytes ferrs := by
  obtain ⟨e, he, -⟩ := scanLoop_total (ch := ch) (cursor := cursor) hw fuel i bytes ferrs hi hf
  obtain ⟨e', he', -⟩ := scanLoop_total (ch := ch) (cursor := cursor) hw (buf.length + 1) i bytes ferrs hi (by omega)
  have h := scanLoop_mono he (Nat.le_max_left _ (buf.length + 1))
  rw [scanLoop_mono he' (Nat.le_max_right fuel _)] at h
  rw [he, he', h]

/-- The same of RESYNC. -/
theorem resyncLoop_fuel (hs : 0 < t.spare) {fuel i : Nat} (hi : i < buf.length) (hf : buf.length < fuel + i) :
    resyncLoop t ch buf fuel i = resyncLoop t ch buf (buf.length + 1) i := by
  obtain ⟨e, he, -⟩ := resyncLoop_total (ch := ch) hs fuel i hi hf
  obtain ⟨e', he', -⟩ := resyncLoop_total (ch := ch) hs (buf.length + 1) i hi (by omega)
  have h := resyncLoop_mono he (Nat.le_max_left _ (buf.length + 1))
  rw [resyncLoop_mono he' (Nat.le_max_right fuel _)] at h
  rw [he, he', h]

section
variable {ses : Session} {r : Run} {b : Byte}

/-- Entering a FEED, it heads for the end of `feedLoop`. -/
theorem finishRun_entry (chunk : List SampleWord) :
    finishRun ses ⟨ses.feedBuffer chunk, .scan, 0, [], []⟩
      = feedLoop ses.timing ses.chan ses.cursor (ses.feedBuffer chunk) := rfl

theorem finishRun_scanSkip (hw : ses.timing.wellFormed = true) (hp : r.phase = .scan)
    (hb : inBound ses.timing r.buf r.i = true) (hl : level ses.chan r.buf r.i = some true) :
    finishRun ses { r with i := r.i + 1 } = finishRun ses r := by
  have hlt := lt_of_level hl
  simp only [finishRun, hp]
  rw [← scanLoop_fuel (fuel := r.buf.length) hw (by omega) (by omega)]
  conv_rhs => unfold scanLoop
  simp only [hb, hl, if_true]

theorem finishRun_scanStart (hw : ses.timing.wellFormed = true) (hp : r.phase = .scan)
    (hb : inBound ses.timing r.buf r.i = true) (hl : level ses.chan r.buf r.i = some false) :
    finishRun ses { r with phase := .sample } = finishRun ses r := by
  have hin := (inBound_iff _ _ _).mp hb
  have hstop := ((TimingTable.wellFormed_iff _).mp hw).2
  obtain ⟨x, hx⟩ := sampleByte_of_inBound ses.chan hw hb
  obtain ⟨l, hs⟩ := level_of_lt ses.chan r.buf (r.i + ses.timing.stop) (by omega)
  simp only [finishRun, hp, hx, finishStop, hs]
  conv_rhs => unfold scanLoop
  simp only [hb, hl, if_true, hx, hs]
  cases l with
  | true =>
    have hpos : 0 < ses.timing.stop := by
      rcases Nat.eq_zero_or_pos ses.timing.stop with h0 | h0
      · simp [h0, hl] at hs
      · exact h0
    exact (scanLoop_fuel hw (by omega) (by omega)).symm
  | false =>
    simp only [finishResync]
    obtain ⟨e, he, hf⟩ := resyncLoop_total (ch := ses.chan) (buf := r.buf) (t := ses.timing) (by omega)
      (r.buf.length + 1) (r.i + ses.timing.stop) (by omega) (by omega)
    rw [he]
    cases e with
    | kept j =>
      have hj := lt_of_level hf.2.2
      have hij := hf.1
      exact (scanLoop_fuel hw (by omega) (by omega)).symm
    | exhausted j => rfl

theorem finishRun_sample (hp : r.phase = .sample) (hb : sampleByte ses.timing ses.chan r.buf r.i = some b) :
    finishRun ses { r with phase := .stopchk b } = finishRun ses r := by simp only [finishRun, hp, hb, finishStop, finishResync]

theorem finishRun_stopchkOk (hp : r.phase = .stopchk b)
    (hl : level ses.chan r.buf (r.i + ses.timing.stop) = some true) :
    finishRun ses (r.keepByte b (r.i + ses.timing.stop)) = finishRun ses r := by
  simp only [finishRun, hp, finishStop, hl, Run.keepByte]

theorem finishRun_stopchkErr (hp : r.phase = .stopchk b)
    (hl : level ses.chan r.buf (r.i + ses.timing.stop) = some false) :
    finishRun ses (r.takeFramingError ses.cursor b (r.i + ses.timing.stop)) = finishRun ses r := by
  simp only [finishRun, hp, finishStop, hl, Run.takeFramingError, finishResync]

theorem finishRun_resyncHold (hs : 0 < ses.timing.spare) (hp : r.phase = .resync b)
    (hb : inBound ses.timing r.buf (r.i + 1) = true) (hl : level ses.chan r.buf (r.i + 1) = some false) :
    finishRun ses { r with i := r.i + 1 } = finishRun ses r := by
  have hlt := lt_of_level hl
  simp only [finishRun, hp, finishResync]
  rw [← resyncLoop_fuel (fuel := r.buf.length) hs (by omega) (by omega)]
  conv_rhs => unfold resyncLoop
  simp only [hb, hl, if_true]

theorem finishRun_resyncDone (hp : r.phase = .resync b) (hb : inBound ses.timing r.buf (r.i + 1) = true)
    (hl : level ses.chan r.buf (r.i + 1) = some true) :
    finishRun ses (r.returnFromFramingError b (r.i + 1)) = finishRun ses r := by
  simp only [finishRun, hp, finishResync, Run.returnFromFramingError, Run.keepByte]
  conv_rhs => unfold resyncLoop
  simp only [hb, hl, if_true]

/-- At SCAN.EXIT the end is the present one. -/
theorem finishRun_scanExit (hp : r.phase = .scan) (hb : inBound ses.timing r.buf r.i = false) :
    finishRun ses r = some ⟨r.i, r.bytes, r.ferrs, false⟩ := by
  simp only [finishRun, hp]
  unfold scanLoop
  simp [hb]

/-- At RESYNC.EXIT the end is the next index. -/
theorem finishRun_resyncExit (hp : r.phase = .resync b) (hb : inBound ses.timing r.buf (r.i + 1) = false) :
    finishRun ses r = some ⟨r.i + 1, r.bytes, r.ferrs, true⟩ := by
  simp only [finishRun, hp, finishResync]
  unfold resyncLoop
  simp [hb]

/-- What `feedFits` says, whatever the cursor's size (92 D6). -/
theorem feedFits_iff {p : Params} {chunk : List SampleWord} : ses.feedFits p chunk = true ↔
    p.fitsIdx ((ses.rump ++ chunk).length + ses.timing.spare) = true
      ∧ ∀ e, feedLoop ses.timing ses.chan ses.cursor (ses.rump ++ chunk) = some e → e.fits p ses.cursor = true := by
  unfold Session.feedFits
  cases hc : p.curBits with
  | none =>
    have : ∀ e : FeedEnd, e.fits p ses.cursor = true := by
      intro e
      simp [FeedEnd.fits, Params.fitsCur, fitsBits, hc]
    simp [this, Session.feedBuffer]
  | some n =>
    cases hf : feedLoop ses.timing ses.chan ses.cursor (ses.rump ++ chunk) <;> simp [Session.feedBuffer, hf]

end

end Sys2Proof.Machine
end

