-- ==== Sys2Proof/Tests/Slice0.lean ====
section
/-! SUPPORT. The model's own tests, expected results from the spec's vectors (95_test_vectors) and encodings, and for
every statement with hypotheses a witness that meets them. -/

namespace Sys2Proof.Tests

open Sys2Proof Sys2Proof.Machine

/-! ## Helpers -/

/-- 95: T10, T2, T1, Th. -/
def t10 : TimingTable := ⟨15, 25, 35, 45, 55, 65, 75, 85, 95, 100⟩
def t2 : TimingTable := ⟨3, 5, 7, 9, 11, 13, 15, 17, 19, 20⟩
def t1 : TimingTable := ⟨1, 2, 3, 4, 5, 6, 7, 8, 9, 10⟩
def th : TimingTable := ⟨0, 1, 1, 2, 2, 3, 3, 4, 4, 5⟩
def num (n : Nat) : Number := .ofNat n
/-- The last result handed over. -/
def reply (a : Answer) : Option Reply :=
  match a with
  | .next s => s.outbox.getLast?
  | _ => none
def nextState (a : Answer) : Option State :=
  match a with
  | .next s => some s
  | _ => none
def refusal (a : Answer) : Option Refusal :=
  match a with
  | .refused r => some r
  | _ => none
def faultOf (a : Answer) : Option Fault :=
  match a with
  | .fault f => some f
  | _ => none
/-- What `build` returns. -/
def built (fmt : FloatFmt) (sr br : Number) : Option Reply :=
  reply (exec (.build sr br) { State.reset with params := { Params.reference with fmt := fmt } })
/-- A session with this table on channel 0. -/
def opened (t : TimingTable) : State := { State.reset with session := some (.fresh t 0) }
/-- A FEED runs with these registers. -/
def running (r : Run) : State := { State.reset with session := some (Session.feeding r) }
/-- A FEED runs at a coded row. -/
def at4 (v : BitVec 4) : State := State.reset.placeRow (.sel v)
/-- The FEED-local registers after an answer. -/
def runOf (a : Answer) : Option Run := (nextState a).bind (fun s => s.session.bind (fun x => x.run))
/-- Bytes, events, CURSOR, RUMP length of a session's chunks. -/
def fed (t : TimingTable) (cs : List (List SampleWord)) : Option (List Byte × List Nat × Nat × Nat) :=
  match feedAll .reference (.fresh t 0) cs with
  | .next o => some (o.bytes, o.ferrs, o.session.cursor, o.session.rump.length)
  | _ => none
/-- The result of a big-step form. -/
def result {α : Type} (x : Whole α) : Option α :=
  match x with
  | .next a => some a
  | _ => none

/-! ## WellFormed refuses ill-formed terms -/

theorem test_illformed_zero_denominator : (Instr.build (.finite false 1 0) (num 1)).wellFormed .reference = false := by decide
theorem test_illformed_third_in_binary64 :
    (Instr.build (num 1) (.finite false 1 3)).wellFormed .reference = false := by decide +kernel
theorem test_illformed_wide_word : (Instr.ishigh 256 0).wellFormed .reference = false := by decide
theorem test_illformed_wide_chunk_word : (Instr.feed [1, 256]).wellFormed .reference = false := by decide
theorem test_wellformed_feed : (Instr.feed [0, 255]).wellFormed .reference = true := by decide
theorem test_step_refuses_illformed :
    refusal (step { State.reset with inbox := [⟨0b001, [.word 256, .natural 0]⟩] })
      = some (.malformedOperands 0b001) := by decide

/-! ## Decoding, words written out from 30_encoding R82, R87, R88 -/

theorem test_decode_build : decode (.cmd ⟨0b000#3, [.rate (num 2), .rate (num 1)]⟩) = .ok (.build (num 2) (num 1)) := by rfl
theorem test_decode_ishigh : decode (.cmd ⟨0b001#3, [.word 0xA4, .natural 2]⟩) = .ok (.ishigh 0xA4 2) := by rfl
theorem test_decode_start : decode (.cmd ⟨0b010#3, [.table t2, .natural 7]⟩) = .ok (.start t2 7) := by rfl
theorem test_decode_feed : decode (.cmd ⟨0b011#3, [.chunk [1, 0]]⟩) = .ok (.feed [1, 0]) := by rfl
theorem test_decode_finish : decode (.cmd ⟨0b100#3, []⟩) = .ok .finish := by rfl
theorem test_decode_code_101 : decode (.cmd ⟨0b101#3, []⟩) = .error (.noOperation 0b101) := by rfl
theorem test_decode_wrong_operands : decode (.cmd ⟨0b100#3, [.natural 0]⟩) = .error (.wrongOperands 0b100) := by rfl
theorem test_decode_selectors :
    (List.range 16).map (fun n => decodeSelector (BitVec.ofNat 4 n)) =
      [.scanExit, .scanExit, .scanStart, .scanSkip, .sample, .sample, .sample, .sample,
       .stopchkErr, .stopchkOk, .stopchkErr, .stopchkOk, .resyncExit, .resyncExit, .resyncHold, .resyncDone] := by decide
/-- 0x41 on the line: start 0, then 1,0,0,0,0,0,1,0, then stop 1 (95 V1). -/
theorem test_decode_frame_ok : decode (.sf 0b0100000101#10) = .ok (.frameOk 0x41#8) := by rfl
theorem test_decode_frame_err : decode (.sf 0b0100000000#10) = .ok (.frameErr 0x01#8) := by rfl
theorem test_decode_frame_start_high : decode (.sf 0b1000000001#10) = .error (.startHigh 0b1000000001) := by rfl
theorem test_table_word_frame : decodeTableWord 16 0b0000000010 = some (.frameErr 0x80#8) := by decide

/-! ## BUILD (95 V20 to V39) -/

theorem test_build_V20 : built .binary64 (num 1000000) (num 100000) = some (.table t10) := by decide +kernel
theorem test_build_V21 : built .binary64 (num 1000000) (num 115200)
    = some (.table ⟨13, 21, 30, 39, 47, 56, 65, 73, 82, 86⟩) := by decide +kernel
theorem test_build_V24 : built .binary64 (num 1) (num 2) = some (.table th) := by decide +kernel
theorem test_build_V27 : built .binary64 (num 109) (num 10)
    = some (.table ⟨16, 27, 38, 49, 59, 70, 81, 92, 103, 109⟩) := by decide +kernel
theorem test_build_V28_binary64 : built .binary64 (num 98) (num 3)
    = some (.table ⟨49, 81, 114, 147, 179, 212, 244, 277, 310, 326⟩) := by decide +kernel
theorem test_build_V28_exact : built .exact (num 98) (num 3)
    = some (.table ⟨49, 81, 114, 147, 179, 212, 245, 277, 310, 326⟩) := by decide +kernel
theorem test_build_V30 : built .binary64 (num 106) (num 100)
    = some (.table ⟨1, 2, 3, 4, 5, 6, 7, 9, 10, 10⟩) := by decide +kernel
theorem test_build_V32 : built .binary64 (.finite true 1 1) (num 9600) = some (.error .samplerateInvalid) := by decide
theorem test_build_V34 : built .binary64 (num 0) (num 0) = some (.error .samplerateInvalid) := by decide
theorem test_build_V35 : built .binary64 .nan (num 9600) = some (.error .samplerateInvalid) := by decide
theorem test_build_V36 : built .binary64 (num 1000000) (.infinite false) = some (.error .baudrateInvalid) := by decide
/-- 1e308 and 1e-308 as binary64 values. -/
theorem test_build_V37 : built .binary64 (roundBinary 53 1023 (10 ^ 308) 1) (roundBinary 53 1023 1 (10 ^ 308))
    = some (.error .timingMalformed) := by decide +kernel
theorem test_build_V38 : built .binary64 (roundBinary 53 1023 (10 ^ 308) 1) (num 1)
    = some (.error .timingMalformed) := by decide +kernel
theorem test_build_V39 : built .binary64 (roundBinary 53 1023 5 (10 ^ 324)) (roundBinary 53 1023 (10 ^ 308) 1)
    = some (.table .zero) := by decide +kernel

/-! ## ISHIGH (95 V50 to V58) -/

theorem test_ishigh_V53 : reply (exec (.ishigh 0x80 7) .reset) = some (.level true) := by decide
theorem test_ishigh_V55 : reply (exec (.ishigh 0xA4 2) .reset) = some (.level true) := by decide
theorem test_ishigh_V56 : reply (exec (.ishigh 0x53 2) .reset) = some (.level false) := by decide
theorem test_ishigh_V57 : refusal (exec (.ishigh 0xFF 8) .reset) = some .channelOutsideWord := by decide
theorem test_ishigh_V58 :
    reply (exec (.ishigh 0x0100 8) { State.reset with params := { Params.reference with w := 16 } })
      = some (.level true) := by decide

/-! ## START and FINISH (95 V40 to V63) -/

theorem test_start_V40 : nextState (exec (.start t10 0) .reset)
    = some { State.reset with session := some ⟨t10, 0, 0, [], none⟩, outbox := [.started] } := by decide
theorem test_start_V42 : reply (exec (.start t10 8) .reset) = some (.error .channelOutOfRange) := by decide
theorem test_start_V44 : reply (exec (.start ⟨0, 0, 0, 0, 1, 1, 1, 1, 1, 1⟩ 0) .reset) = some (.error .timingMalformed) := by
  decide
theorem test_start_V45 : reply (exec (.start .zero 9) .reset) = some (.error .channelOutOfRange) := by decide
theorem test_start_V46 : reply (exec (.start ⟨5, 4, 3, 2, 1, 0, 0, 0, 0, 6⟩ 0) .reset) = some .started := by decide
theorem test_start_V63 : (nextState (exec (.start t10 8) (opened t10))).map (·.session) = some none := by decide
theorem test_feed_V47 : nextState (exec (.feed [0]) .reset)
    = some { State.reset with outbox := [.error .noSession] } := by decide
theorem test_finish_V48 : reply (exec .finish .reset) = some (.error .noSession) := by decide
theorem test_finish_V49 : nextState (exec .finish (opened t10))
    = some { State.reset with outbox := [.finished] } := by decide
theorem test_error_numbers :
    [ErrorCode.samplerateInvalid, .baudrateInvalid, .channelOutOfRange, .timingMalformed, .noSession, .framing].map
      ErrorCode.number = [1, 2, 3, 4, 5, 6] := by decide

/-! ## FEED, big steps (95 V1 to V19, P4) -/

/-- The chunk of V1. -/
def v1 : List SampleWord :=
  List.replicate 10 0 ++ List.replicate 10 1 ++ List.replicate 50 0 ++ List.replicate 10 1 ++ List.replicate 10 0
    ++ List.replicate 10 1
theorem test_feed_V1 : fed t10 [v1] = some ([0x41], [], 95, 5) := by decide +kernel
theorem test_feed_V2 : fed t10 [v1.take 99, [1]] = some ([0x41], [], 95, 5) := by decide +kernel
theorem test_feed_V9 : fed t10 [List.replicate 250 0, List.replicate 250 0] = some ([], [95, 246], 401, 99) := by
  decide +kernel
theorem test_feed_V11 : fed t2 [1 :: List.replicate 20 0, List.replicate 30 1] = some ([], [20], 32, 19) := by
  decide +kernel
theorem test_feed_V13 : fed t1 [[0, 1, 0, 0, 0, 0, 0, 1, 0] ++ List.replicate 10 1] = some ([0x41], [], 10, 9) := by decide
theorem test_feed_V14 : fed th [[0, 1, 0, 1, 1, 1, 1, 1, 1, 1]] = some ([0xE6], [], 6, 4) := by decide
theorem test_feed_V18 : fed ⟨1, 1, 1, 1, 1, 1, 1, 1, 0, 2⟩ [[0, 1, 1, 1]] = some ([0xFF], [0], 3, 1) := by decide
theorem test_feed_V19 : fed ⟨5, 4, 3, 2, 1, 0, 0, 0, 0, 6⟩ [[0, 1, 0, 1, 0, 1, 1, 1]] = some ([0x15], [0, 2], 3, 5) := by
  decide

/-! ## Micro-steps, and the rows as the first instruction after reset -/

theorem test_scanSkip : (runOf (exec .scanSkip (at4 0b0011))).map (fun r => (r.phase, r.i)) = some (.scan, 1) := by decide
theorem test_scanStart : (runOf (exec .scanStart (at4 0b0010))).map (fun r => (r.phase, r.i)) = some (.sample, 0) := by
  decide
theorem test_scanExit : (nextState (exec .scanExit (at4 0b0000))).map (·.outbox) = some [.fed [] []] := by decide
/-- V13: the samples of T1 on the frame of 0x41. -/
theorem test_sample :
    (runOf (exec .sample (running ⟨[0, 1, 0, 0, 0, 0, 0, 1, 0, 1], .sample, 0, [], []⟩))).map (·.phase)
      = some (.stopchk 0x41) := by decide
theorem test_stopchkOk : (runOf (exec .stopchkOk (at4 0b1001))).map (fun r => (r.phase, r.i, r.bytes, r.ferrs))
    = some (.scan, 9, [0], []) := by decide
theorem test_stopchkErr : (runOf (exec .stopchkErr (at4 0b1000))).map (fun r => (r.phase, r.i, r.bytes, r.ferrs))
    = some (.resync 0, 9, [], [9]) := by decide
theorem test_resyncHold : (runOf (exec .resyncHold (at4 0b1110))).map (fun r => (r.phase, r.i)) = some (.resync 0, 1) := by
  decide
theorem test_resyncDone : (runOf (exec .resyncDone (at4 0b1111))).map (fun r => (r.phase, r.i, r.bytes))
    = some (.scan, 1, [0]) := by decide
theorem test_resyncExit : (nextState (exec .resyncExit (at4 0b1100))).map (fun s => s.session.map (fun x => x.cursor))
    = some (some 1) := by decide
/-- A micro-step out of its condition, and one with no FEED. -/
theorem test_notSelected : refusal (exec .scanStart (at4 0b0011)) = some .notSelected := by decide
theorem test_noValue : faultOf (exec .sample .reset) = some .noValue := by decide
theorem test_outside_buffer :
    faultOf (exec .sample (running ⟨[0], .sample, 0, [], []⟩))
      = some .readOutsideBuffer := by decide
theorem test_overlap : refusal (exec .finish (at4 0b0011)) = some .overlappingOperation := by decide
theorem test_frameOk :
    (runOf (step (State.reset.withFetchWord 10 0b0100000101))).map (fun r => (r.i, r.bytes)) = some (9, [0x41]) := by
  decide
theorem test_frameErr :
    (runOf (step (State.reset.withFetchWord 16 0b0100000100))).map (fun r => (r.phase, r.ferrs))
      = some (.resync 0x41, [9]) := by decide
theorem test_step_start_row : reply (step (State.reset.withFetchWord 3 0b010)) = some (.error .timingMalformed) := by decide
theorem test_step_done_row : (runOf (step (State.reset.withFetchWord 8 0b1111))).map (·.bytes) = some [0] := by decide
theorem test_step_unused_code : refusal (step (State.reset.withFetchWord 3 0b110)) = some (.noSuchOperation 0b110) := by
  decide
theorem test_sized_feed_refused :
    refusal (exec (.feed [1, 1, 1, 1]) { opened t2 with params := { Params.reference with idxBits := some 4 } })
      = some .feedDoesNotFit := by decide
/-- `CUR_BITS = 8`, CURSOR 200 and 56 words shorter than SPARE: CURSOR stays 200, so nothing wraps (92 D6). -/
theorem test_sized_feed_taken :
    (nextState (exec (.feed (List.replicate 56 1))
      { State.reset with
        params := { Params.reference with curBits := some 8 }
        session := some { Session.fresh t10 0 with cursor := 200 } })).map (·.feeding) = some true := by decide +kernel
/-- The same with 156 words of an idle line: the exit would be at 200 + 57. -/
theorem test_sized_feed_cursor_refused :
    refusal (exec (.feed (List.replicate 156 1))
      { State.reset with
        params := { Params.reference with curBits := some 8 }
        session := some { Session.fresh t10 0 with cursor := 200 } }) = some .feedDoesNotFit := by decide +kernel
/-- 30_encoding R94 on 95 V1, and where BUILD or START stops it. -/
theorem test_decode_V1 : result (decodeCapture .reference none (num 1000000) (num 100000) 0 [v1])
    = some (none, .ok ([0x41], [])) := by decide +kernel
theorem test_decode_stops_at_build :
    decodeCapture .reference (some (.fresh t2 3)) (num 0) (num 1) 0 [v1]
      = .next (some (.fresh t2 3), .error .samplerateInvalid) := by rfl
theorem test_decode_stops_at_start :
    decodeCapture { Params.reference with fmt := .exact } (some (.fresh t2 3)) (num 1) (num 1) 8 [v1] = .next (none, .error .channelOutOfRange) := by rfl

/-! ## Witnesses: for each statement with hypotheses, values that meet all of them -/

/-- The session and run of a state in which one runs. -/
def sesOf (v : BitVec 4) : Session := Session.feeding (selectedRun v)
def issued (s : State) (c : Command) : State := { s with inbox := [c] }
def sized (s : State) (idx cur : Option Nat) : State :=
  { s with params := { Params.reference with idxBits := idx, curBits := cur } }
/-- The frame of 0x41 under T1, in grain `frame`. -/
def atFrame (v : BitVec 10) : State := State.reset.placeRow (.sf v)
/-- RESYNC at the first of two low words, in bounds nowhere. -/
def resyncSes : Session := sesOf 0b1100

theorem witness_EveryStepKeepsInvariant :
    (at4 0b0011).Inv ∧ (nextState (step (at4 0b0011))).isSome = true := by decide
theorem witness_RunningFeedNeverStops : (at4 0b1110).Inv ∧ (at4 0b1110).feeding = true := by decide
theorem witness_StepRefuses_code :
    (issued .reset ⟨0b111, []⟩).Inv ∧ refusal (step (issued .reset ⟨0b111, []⟩)) = some (.noSuchOperation 0b111) := by
  decide
theorem witness_StepRefuses_ishigh :
    (issued .reset ⟨0b001, [.word 0, .natural 8]⟩).Inv
      ∧ refusal (step (issued .reset ⟨0b001, [.word 0, .natural 8]⟩)) = some .channelOutsideWord := by decide
theorem witness_StepRefuses_illformed :
    (issued .reset ⟨0b011, [.chunk [256]]⟩).Inv
      ∧ refusal (step (issued .reset ⟨0b011, [.chunk [256]]⟩)) = some (.malformedOperands 0b011) := by decide
theorem witness_StepRefuses_feed :
    (issued (sized (opened t2) (some 5) none) ⟨0b011, [.chunk (List.replicate 12 1)]⟩).Inv
      ∧ refusal (step (issued (sized (opened t2) (some 5) none) ⟨0b011, [.chunk (List.replicate 12 1)]⟩))
        = some .feedDoesNotFit := by decide
theorem witness_StepRuns_issued :
    (issued .reset ⟨0b100, []⟩).feeding = false ∧ (issued .reset ⟨0b100, []⟩).inbox = ⟨0b100, []⟩ :: []
      ∧ decode (.cmd ⟨0b100, []⟩) = .ok .finish ∧ Instr.finish.wellFormed .reference = true := ⟨rfl, rfl, rfl, rfl⟩
theorem witness_StepRuns_micro :
    (at4 0b0110).Runs (sesOf 0b0110) (selectedRun 0b0110) ∧ (at4 0b0110).grain = .micro
      ∧ selector (sesOf 0b0110) (selectedRun 0b0110) = some 0b0100#4 := ⟨⟨rfl, rfl⟩, rfl, by decide⟩
theorem witness_StepRuns_frameGrain :
    ∃ (s : State) (ses : Session) (r : Run), s.Runs ses r ∧ s.grain = .frame
      ∧ selector ses r = some 0b0011#4 ∧ (0b0011#4 : BitVec 4) ≠ 0b0010#4 :=
  ⟨{ at4 0b0011 with grain := .frame }, sesOf 0b0011, selectedRun 0b0011, ⟨rfl, rfl⟩, rfl, by decide, by decide⟩
theorem witness_StepRuns_frame :
    (atFrame 0b0100000101).Runs (Session.feeding (framedRun 0b0100000101)) (framedRun 0b0100000101)
      ∧ (atFrame 0b0100000101).grain = .frame
      ∧ selector (Session.feeding (framedRun 0b0100000101)) (framedRun 0b0100000101) = some 0b0010#4
      ∧ sampledFrame (Session.feeding (framedRun 0b0100000101)) (framedRun 0b0100000101) = some 0b0100000101#10
      ∧ decode (.sf 0b0100000101#10) = .ok (.frameOk 0x41) := ⟨⟨rfl, rfl⟩, rfl, by decide, by decide, rfl⟩
theorem witness_IdleBlockKeepsState : State.reset.feeding = false ∧ State.reset.inbox = [] := ⟨rfl, rfl⟩
theorem witness_EncodeOfDecode :
    decode (.cmd ⟨0b011, [.chunk [1]]⟩) = .ok (.feed [1]) ∧ decode (.sel 0b0111#4) = .ok .sample
      ∧ decode (.sf 0b0111111110#10) = .ok (.frameErr 0xFF) := ⟨rfl, rfl, rfl⟩
theorem witness_UnusedCodesAreRefused :
    5 ≤ (0b101#3 : BitVec 3).toNat ∧ (issued .reset ⟨0b101, []⟩).feeding = false
      ∧ (issued .reset ⟨0b101, []⟩).inbox = ⟨0b101, []⟩ :: [] := ⟨by decide, rfl, rfl⟩
theorem witness_SelectorNamesItsMicroStep :
    selector (sesOf 0b1101) (selectedRun 0b1101) = some 0b1100#4
      ∧ selector (sesOf 0b1011) (selectedRun 0b1011) = some 0b1001#4 := by decide

theorem witness_BuildReturnsTheFloors :
    ∃ (skip : Number) (o : Fin 8 → Nat) (stop spare : Nat),
      (num 5).isPositive = true ∧ (num 2).isPositive = true ∧ skip = fdiv .binary64 (num 5) (num 2)
      ∧ skip.isFinite = true
      ∧ (∀ k : Fin 8, (fmul .binary64 (.finite false (2 * k.val + 3) 2) skip).floor = some (o k)
          ∧ Params.reference.fitsIdx (o k) = true)
      ∧ (fmul .binary64 (.finite false 19 2) skip).floor = some stop ∧ Params.reference.fitsIdx stop = true
      ∧ (fmul .binary64 (.finite false 20 2) skip).floor = some spare ∧ Params.reference.fitsIdx spare = true :=
  ⟨fdiv .binary64 (num 5) (num 2), ![3, 6, 8, 11, 13, 16, 18, 21], 23, 25, by decide, by decide, rfl,
    by decide +kernel, by decide +kernel, by decide +kernel, rfl, by decide +kernel, rfl⟩
theorem witness_BuildRefuses_rates :
    (num 0).isPositive = false ∧ (num 1).isPositive = true ∧ (Number.infinite false).isPositive = false := by decide
theorem witness_BuildRefuses_overflow :
    (roundBinary 53 1023 (10 ^ 308) 1).isPositive = true ∧ (num 1).isPositive = true
      ∧ (fmul .binary64 (.finite false 5 2) (fdiv .binary64 (roundBinary 53 1023 (10 ^ 308) 1) (num 1))).floor = none := by
  decide +kernel
theorem witness_BuildRefuses_quotient :
    (roundBinary 53 1023 1 (10 ^ 308)).isPositive = true
      ∧ (fdiv .binary64 (roundBinary 53 1023 (10 ^ 308) 1) (roundBinary 53 1023 1 (10 ^ 308))).isFinite = false := by
  decide +kernel
theorem witness_BuildIsExactOnIntegerSkip :
    Params.reference.fmt = .binary64 ∧ Params.reference.idxBits = none ∧ 1 ≤ 2 ^ 48 - 1 ∧ 2 ^ 48 - 1 < 2 ^ 48 ∧ 1 ≤ 1 := by
  decide
theorem witness_BuiltTable_exact :
    (buildTable { Params.reference with fmt := .exact } (num 1) (num 5)).toOption
      = some ⟨0, 0, 0, 0, 1, 1, 1, 1, 1, 2⟩ := by decide +kernel
theorem witness_BuiltTableDoesNotDecrease :
    Params.reference.fmt = .binary 53 1023 ∧ 1 ≤ 53
      ∧ (buildTable .reference (num 1) (num 5)).toOption = some ⟨0, 0, 0, 0, 1, 1, 1, 1, 1, 2⟩ := by decide +kernel
theorem witness_Ishigh : 7 < State.reset.params.w ∧ State.reset.params.w ≤ 8 := by decide

theorem witness_StartLatchesAndOpens :
    (opened t1).feeding = false ∧ 7 < (opened t1).params.w ∧ (∀ k, th.off k < th.spare) ∧ th.stop < th.spare
      ∧ th.fits (opened t1).params = true := by decide
theorem witness_FailedStart :
    State.reset.feeding = false ∧ State.reset.params.w ≤ 8 ∧ 0 < State.reset.params.w
      ∧ (∃ k, TimingTable.zero.spare ≤ TimingTable.zero.off k)
      ∧ (⟨0, 0, 0, 0, 0, 0, 0, 0, 1, 1⟩ : TimingTable).spare ≤ (⟨0, 0, 0, 0, 0, 0, 0, 0, 1, 1⟩ : TimingTable).stop
      ∧ t2.fits { Params.reference with idxBits := some 4 } = false := by decide
theorem witness_FinishEndsTheSession : (opened t2).Rests (.fresh t2 0) := ⟨rfl, rfl⟩
theorem witness_NoSessionIsReported : State.reset.session = none := rfl
theorem witness_OverlapHasNoMeaning : (at4 0b0100).feeding = true := by decide
theorem witness_SessionIsLatched :
    (nextState (step (at4 0b0000))).isSome = true ∧ (at4 0b0000).session = some (sesOf 0b0000)
      ∧ (nextState (step (issued (opened t2) ⟨0b010, [.table t1, .natural 1]⟩))).isSome = true
      ∧ (nextState (step (issued (opened t2) ⟨0b100, []⟩))).isSome = true := by decide

theorem witness_FeedEntersScan :
    (sized (opened t2) (some 6) (some 1)).Rests (.fresh t2 0)
      ∧ (sized (opened t2) (some 6) (some 1)).params.fitsIdx (([] : List SampleWord).length + [1, 0].length + t2.spare) = true
      ∧ ∀ e, feedLoop t2 0 0 ([] ++ [1, 0]) = some e →
        (sized (opened t2) (some 6) (some 1)).params.fitsCur (0 + e.i) = true
          ∧ ∀ a ∈ e.ferrs, (sized (opened t2) (some 6) (some 1)).params.fitsCur a = true := by
  refine ⟨⟨rfl, rfl⟩, by decide, ?_⟩
  intro e he
  cases he
  decide
theorem witness_SizedBuildRefusesTheFeed_index :
    (sized (opened t2) (some 4) (some 1)).Rests (.fresh t2 0)
      ∧ (sized (opened t2) (some 4) (some 1)).params.fitsIdx (0 + 2 + t2.spare) = false := ⟨⟨rfl, rfl⟩, by decide⟩
/-- The cursor clause at its boundary: the exit at 2, the event at 9 in 1 and 3 bits. -/
theorem witness_SizedBuildRefusesTheFeed_cursor :
    (sized (opened t1) none (some 1)).Rests (.fresh t1 0)
      ∧ (feedLoop t1 0 0 ([] ++ List.replicate 11 1)).map (·.i) = some 2
      ∧ (sized (opened t1) none (some 1)).params.fitsCur (0 + 2) = false
      ∧ (feedLoop t1 0 0 ([] ++ List.replicate 10 0)).map (·.ferrs) = some [9]
      ∧ (sized (opened t1) none (some 3)).params.fitsCur 9 = false := ⟨⟨rfl, rfl⟩, by decide⟩
theorem witness_SizedBuildTakesWhatFits :
    (sized (opened t2) (some 6) (some 2)).Rests (.fresh t2 0) ∧ t2.wellFormed = true
      ∧ (sized (opened t2) (some 6) (some 2)).params.fitsIdx (0 + 3 + t2.spare) = true
      ∧ (sized (opened t2) (some 6) (some 2)).params.fitsCur (0 + (0 + 3)) = true
      ∧ (sized (opened t2) (some 6) (some 0)).params.fitsCur 0 = true ∧ 0 + 3 < t2.spare :=
  ⟨⟨rfl, rfl⟩, by decide⟩
theorem witness_ScanSkipStepsOver :
    (at4 0b0011).Runs (sesOf 0b0011) (selectedRun 0b0011) ∧ (selectedRun 0b0011).phase = .scan
      ∧ (selectedRun 0b0011).i + (sesOf 0b0011).timing.spare ≤ (selectedRun 0b0011).buf.length
      ∧ level 0 (selectedRun 0b0011).buf (selectedRun 0b0011).i = some true := ⟨⟨rfl, rfl⟩, by decide⟩
theorem witness_ScanStartFindsTheStartBit :
    (at4 0b0010).Runs (sesOf 0b0010) (selectedRun 0b0010) ∧ (selectedRun 0b0010).phase = .scan
      ∧ (selectedRun 0b0010).i + (sesOf 0b0010).timing.spare ≤ (selectedRun 0b0010).buf.length
      ∧ level 0 (selectedRun 0b0010).buf (selectedRun 0b0010).i = some false := ⟨⟨rfl, rfl⟩, by decide⟩
theorem witness_ScanExitSavesTheRump :
    (at4 0b0001).Runs (sesOf 0b0001) (selectedRun 0b0001) ∧ (selectedRun 0b0001).phase = .scan
      ∧ (selectedRun 0b0001).buf.length < (selectedRun 0b0001).i + (sesOf 0b0001).timing.spare := ⟨⟨rfl, rfl⟩, by decide⟩
theorem witness_SampleReadsEightLevels :
    (at4 0b0100).Runs (sesOf 0b0100) (selectedRun 0b0100) ∧ (selectedRun 0b0100).phase = .sample
      ∧ ∀ k, level 0 (selectedRun 0b0100).buf ((selectedRun 0b0100).i + unitTable.off k) = some false :=
  ⟨⟨rfl, rfl⟩, by decide⟩
theorem witness_StopchkOkKeepsTheByte :
    (at4 0b1001).Runs (sesOf 0b1001) (selectedRun 0b1001) ∧ (selectedRun 0b1001).phase = .stopchk 0
      ∧ level 0 (selectedRun 0b1001).buf ((selectedRun 0b1001).i + unitTable.stop) = some true := ⟨⟨rfl, rfl⟩, by decide⟩
theorem witness_StopchkErrTakesTheEvent :
    (at4 0b1000).Runs (sesOf 0b1000) (selectedRun 0b1000) ∧ (selectedRun 0b1000).phase = .stopchk 0
      ∧ level 0 (selectedRun 0b1000).buf ((selectedRun 0b1000).i + unitTable.stop) = some false := ⟨⟨rfl, rfl⟩, by decide⟩
theorem witness_ResyncHoldWaits :
    (at4 0b1110).Runs (sesOf 0b1110) (selectedRun 0b1110) ∧ (selectedRun 0b1110).phase = .resync 0
      ∧ (selectedRun 0b1110).i + 1 + unitTable.spare ≤ (selectedRun 0b1110).buf.length
      ∧ level 0 (selectedRun 0b1110).buf ((selectedRun 0b1110).i + 1) = some false := ⟨⟨rfl, rfl⟩, by decide⟩
theorem witness_ResyncDoneKeepsTheByte :
    (at4 0b1111).Runs (sesOf 0b1111) (selectedRun 0b1111) ∧ (selectedRun 0b1111).phase = .resync 0
      ∧ (selectedRun 0b1111).i + 1 + unitTable.spare ≤ (selectedRun 0b1111).buf.length
      ∧ level 0 (selectedRun 0b1111).buf ((selectedRun 0b1111).i + 1) = some true := ⟨⟨rfl, rfl⟩, by decide⟩
theorem witness_ResyncExitDropsTheByte :
    (at4 0b1100).Runs (sesOf 0b1100) (selectedRun 0b1100) ∧ (selectedRun 0b1100).phase = .resync 0
      ∧ (selectedRun 0b1100).buf.length < (selectedRun 0b1100).i + 1 + unitTable.spare := ⟨⟨rfl, rfl⟩, by decide⟩
theorem witness_FrameRowsRunTheFrame (stop : Bool) :
    ∃ v : BitVec 10, (atFrame v).Runs (Session.feeding (framedRun v)) (framedRun v) ∧ (framedRun v).phase = .scan
      ∧ (framedRun v).i + unitTable.spare ≤ (framedRun v).buf.length
      ∧ level 0 (framedRun v).buf (framedRun v).i = some false
      ∧ (∀ k : Fin 8, level 0 (framedRun v).buf ((framedRun v).i + unitTable.off k) = some ((0x41#8).getLsbD k.val))
      ∧ level 0 (framedRun v).buf ((framedRun v).i + unitTable.stop) = some stop := by
  cases stop
  · exact ⟨0b0100000100, ⟨rfl, rfl⟩, by decide⟩
  · exact ⟨0b0100000101, ⟨rfl, rfl⟩, by decide⟩
theorem witness_FrameRowsAreThreeMicroSteps :
    (nextState (exec (.frameOk 0x41) (atFrame 0b0100000101))).isSome = true
      ∧ (nextState (exec (.frameErr 0x41) (atFrame 0b0100000100))).isSome = true := by decide

theorem witness_MicroStepFrame :
    (nextState (exec .scanExit (at4 0b0000))).isSome = true ∧ (nextState (exec .resyncDone (at4 0b1111))).isSome = true
      ∧ (nextState (exec .stopchkErr (at4 0b1000))).isSome = true := by decide
theorem witness_MicroStepsStopOutOfPlace :
    decodeSelector 0b0111#4 = .sample ∧ State.reset.feeding = false
      ∧ (at4 0b0011).Runs (sesOf 0b0011) (selectedRun 0b0011)
      ∧ selector (sesOf 0b0011) (selectedRun 0b0011) = some 0b0011#4 ∧ decodeSelector 0b0011#4 ≠ .sample :=
  ⟨by decide, rfl, ⟨rfl, rfl⟩, by decide, by decide⟩
theorem witness_MicroStepsStop_frame :
    (selectedRun 0b0110).phase ≠ .scan ∧ inBound unitTable (selectedRun 0b0001).buf (selectedRun 0b0001).i = false
      ∧ (framedRun 0b0100000101).phase = .scan
      ∧ inBound unitTable (framedRun 0b0100000101).buf (framedRun 0b0100000101).i = true
      ∧ sampledFrame (Session.feeding (framedRun 0b0100000101)) (framedRun 0b0100000101) = some 0b0100000101#10
      ∧ encode (.frameOk 0x42) ≠ .sf 0b0100000101#10 ∧ encode (.frameErr 0x41) ≠ .sf 0b0100000101#10 := by decide
theorem witness_PhasesFollowTheTable :
    (at4 0b1110).grain = .micro ∧ (at4 0b1110).Runs (sesOf 0b1110) (selectedRun 0b1110)
      ∧ (runOf (step (at4 0b1110))).map (·.phase) = some (.resync 0)
      ∧ (runOf (step (at4 0b1000))).map (·.phase) = some (.resync 0)
      ∧ (runOf (step (at4 0b0100))).map (·.phase) = some (.stopchk 0)
      ∧ (runOf (step (at4 0b0010))).map (·.phase) = some .sample := ⟨rfl, ⟨rfl, rfl⟩, by decide⟩

theorem witness_HostOperationFrame :
    (nextState (exec (.build (num 0) (num 1)) (opened t2))).isSome = true
      ∧ (nextState (exec (.ishigh 1 0) (opened t2))).isSome = true
      ∧ (nextState (exec (.start t1 8) (opened t2))).isSome = true
      ∧ (nextState (exec .finish (opened t2))).isSome = true
      ∧ (opened t2).session = some (.fresh t2 0) ∧ (nextState (exec (.feed [1]) (opened t2))).isSome = true := by decide
theorem witness_StepHandsOver : (nextState (step (at4 0b1100))).map (·.outbox.length) = some 1 := by decide
theorem witness_FeedEndsOnlyAtTheTwoExits :
    (at4 0b0000).Runs (sesOf 0b0000) (selectedRun 0b0000) ∧ (at4 0b1100).Runs resyncSes (selectedRun 0b1100)
      ∧ (nextState (step (at4 0b0000))).map (·.feeding) = some false
      ∧ (nextState (step (at4 0b1100))).map (·.feeding) = some false := ⟨⟨rfl, rfl⟩, ⟨rfl, rfl⟩, by decide, by decide⟩

theorem witness_CursorAndRumpCutTheTimeline :
    t1.wellFormed = true ∧ (fed t1 [[0, 1, 0, 0], [0, 0, 0, 1, 0, 1], []]).isSome = true := by decide
theorem witness_RumpStaysShort :
    t1.wellFormed = true ∧ ([1, 1, 1, 1, 1, 1, 1, 1, 1] : List SampleWord).length < t1.spare
      ∧ (result (feedAll .reference { Session.fresh t1 0 with rump := [1, 1, 1, 1, 1, 1, 1, 1, 1] } [[], [1]])).isSome = true := by decide
theorem witness_EventsAreOrdered :
    (⟨5, 4, 3, 2, 1, 0, 0, 0, 0, 6⟩ : TimingTable).wellFormed = true
      ∧ (result (feedWhole .reference (.fresh ⟨5, 4, 3, 2, 1, 0, 0, 0, 0, 6⟩ 0) [0, 1, 0, 1, 0, 1, 1, 1])).isSome = true := by decide
theorem witness_SmallStepsReachTheBigStep :
    (opened t1).Rests (.fresh t1 0) ∧ (Session.fresh t1 0).timing.wellFormed = true
      ∧ (nextState (exec (.feed [0, 0]) (opened t1))).isSome = true := ⟨⟨rfl, rfl⟩, by decide, by decide⟩
/-- A host that issues START, two FEEDs and FINISH. -/
def program : State :=
  { State.reset with
    inbox := [⟨0b010, [.table t1, .natural 0]⟩, ⟨0b011, [.chunk [0, 0]]⟩, ⟨0b011, [.chunk []]⟩, ⟨0b100, []⟩] }
theorem witness_MachineRunsTheSession :
    program.feeding = false ∧ 0 < program.params.w ∧ t1.wellFormed = true ∧ t1.fits program.params = true
      ∧ (∀ c ∈ [[0, 0], []], (Instr.feed c).wellFormed program.params = true)
      ∧ program.inbox = ⟨0b010, [.table t1, .natural 0]⟩ :: [[0, 0], []].map (fun c => ⟨0b011, [.chunk c]⟩) ++ ⟨0b100, []⟩ :: []
      ∧ (result (feedAll program.params (.fresh t1 0) [[0, 0], []])).isSome = true
      ∧ refusal (exec (.feed [0, 0]) (sized (opened t1) (some 3) none)) = some .feedDoesNotFit := by
  decide
theorem witness_SessionsCompose :
    (result (feedAll .reference (.fresh t1 0) ([[0, 0]] ++ [[], [1]]))).map (·.feeds.length) = some 3 := by decide
/-- The three clauses of DECODE: BUILD stops it, START stops it, it runs; and a FEED that does not fit. -/
theorem witness_DecodeRunsOnTheMachine :
    State.reset.feeding = false ∧ (Instr.build (num 1) (num 1)).wellFormed .reference = true
      ∧ (Instr.build (num 0) (num 1)).wellFormed .reference = true
      ∧ (∀ c ∈ [[0, 0]], (Instr.feed c).wellFormed .reference = true)
      ∧ buildTable .reference (num 0) (num 1) = .error .samplerateInvalid
      ∧ buildTable .reference (num 1) (num 1) = .ok t1
      ∧ startSession .reference t1 8 = .error .channelOutOfRange
      ∧ startSession .reference t1 7 = .ok (.fresh t1 7)
      ∧ feedWhole { Params.reference with idxBits := some 4 } (.fresh t1 0) (List.replicate 6 1)
          = .refused .feedDoesNotFit :=
  ⟨rfl, by decide +kernel, by decide +kernel, by decide, by rfl, by decide +kernel, by rfl, by rfl, by rfl⟩
theorem witness_ChunkBoundariesDoNotMatter :
    t1.wellFormed = true
      ∧ ([[0, 1, 0, 0, 0, 0, 0, 1, 0, 1, 1]] : List (List SampleWord)).flatten = [[0, 1, 0], [0, 0, 0, 0, 1, 0, 1, 1]].flatten
      ∧ (result (feedAll .reference (.fresh t1 0) [[0, 1, 0, 0, 0, 0, 0, 1, 0, 1, 1]])).map (·.resyncExits) = some [false]
      ∧ (result (feedAll .reference (.fresh t1 0) [[0, 1, 0], [0, 0, 0, 0, 1, 0, 1, 1]])).map (·.resyncExits)
        = some [false, false] := by decide
theorem witness_OtherChannels_step :
    State.SameLine (running ⟨[0, 2], .scan, 0, [], []⟩) (running ⟨[4, 0], .scan, 0, [], []⟩) :=
  ⟨rfl, rfl, rfl, rfl, rfl, rfl, rfl, rfl, rfl, rfl, rfl, rfl, rfl⟩
theorem witness_OtherChannels_feed :
    State.SameLine (opened t1) (opened t1) ∧ ∀ ses, (opened t1).session = some ses → sameLine ses.chan [1, 2] [3, 0] := by
  refine ⟨⟨rfl, rfl, rfl, rfl, rfl, rfl, rfl, rfl, trivial⟩, ?_⟩
  intro ses h
  cases h
  rfl
theorem witness_IdleLineGivesNothing :
    t1.wellFormed = true ∧ (Session.fresh t1 0).feedFits (sized .reset (some 5) (some 2)).params (List.replicate 11 1) = true
      ∧ (∀ w ∈ ([] : List SampleWord) ++ List.replicate 11 1, w.testBit 0 = true)
      ∧ t1.spare ≤ (([] : List SampleWord) ++ List.replicate 11 1).length := by decide
theorem witness_LowLineGivesOneEvent :
    t1.wellFormed = true ∧ (Session.fresh t1 0).feedFits (sized .reset (some 5) (some 4)).params (List.replicate 10 2) = true
      ∧ (∀ w ∈ ([] : List SampleWord) ++ List.replicate 10 2, w.testBit 0 = false)
      ∧ t1.spare ≤ (([] : List SampleWord) ++ List.replicate 10 2).length := by decide
theorem witness_ShortBufferIsKept :
    (opened t1).Rests (.fresh t1 0) ∧ (([] : List SampleWord) ++ List.replicate 9 0).length < t1.spare
      ∧ (nextState (exec (.feed (List.replicate 9 0)) (opened t1))).isSome = true := ⟨⟨rfl, rfl⟩, by decide, by decide⟩
/-- Two frames at one word a bit, two words of idle time after the first and none after the second. -/
theorem witness_CleanLineDecodesToItsBytes :
    1 ≤ 1 ∧ (Session.fresh (integerTable 1) 1).feedFits .reference
        [2, 0, 2, 0, 0, 0, 0, 0, 2, 0, 2, 2, 2, 0, 0, 0, 0, 0, 0, 0, 0, 2, 2] = true
      ∧ ([2, 0, 2, 0, 0, 0, 0, 0, 2, 0, 2, 2, 2, 0, 0, 0, 0, 0, 0, 0, 0, 2, 2] : List SampleWord).map
          (fun w => w.testBit 1) =
        (List.replicate 1 1 ++ [((0x41 : Byte), 2), (0x80, 0)].flatMap
            (fun f : Byte × Nat => frameWords 1 f.1 ++ List.replicate f.2 1)).map
          (fun w => Nat.testBit w 0) := by decide

end Sys2Proof.Tests
end

section
/-! PROOFS. The rows FRAME.OK and FRAME.ERR against the micro-steps they stand for (00_scope R4, 30_encoding R83). -/

namespace Sys2Proof.Machine

theorem State.setRun_runs (s : State) (ses : Session) (r : Run) :
    (s.setRun ses r).Runs { ses with run := some r } r := ⟨rfl, rfl⟩

theorem execFrameOk_eq_next {s t : State} {b : Byte} : execFrameOk b s = .next t ↔
    ∃ ses r, s.Runs ses r ∧ r.phase = .scan ∧ inBound ses.timing r.buf r.i = true
      ∧ level ses.chan r.buf r.i = some false ∧ sampleByte ses.timing ses.chan r.buf r.i = some b
      ∧ level ses.chan r.buf (r.i + ses.timing.stop) = some true
      ∧ t = s.setRun ses (r.keepByte b (r.i + ses.timing.stop)) := by
  simp only [execFrameOk, onFrame_eq_next, sampledFrame_eq_some_iff, and_assoc, Host.Outcome.next.injEq,
    @eq_comm State t]

theorem execFrameErr_eq_next {s t : State} {b : Byte} : execFrameErr b s = .next t ↔
    ∃ ses r, s.Runs ses r ∧ r.phase = .scan ∧ inBound ses.timing r.buf r.i = true
      ∧ level ses.chan r.buf r.i = some false ∧ sampleByte ses.timing ses.chan r.buf r.i = some b
      ∧ level ses.chan r.buf (r.i + ses.timing.stop) = some false
      ∧ t = s.setRun ses (r.takeFramingError ses.cursor b (r.i + ses.timing.stop)) := by
  simp only [execFrameErr, onFrame_eq_next, sampledFrame_eq_some_iff, and_assoc, Host.Outcome.next.injEq,
    @eq_comm State t]

/-- SCAN.START and SAMPLE lead from a low start index in bounds to STOPCHK with the sampled byte, and from nowhere
else; `k` is what follows them (43_feed_decoder R164, R166). -/
theorem scanStart_sample_then_iff {s t : State} {b : Byte} {k : State → Answer} :
    (∃ u v ses r, execScanStart s = .next u ∧ execSample u = .next v ∧ v.Runs ses r ∧ r.phase = .stopchk b
        ∧ k v = .next t) ↔
      ∃ ses r, s.Runs ses r ∧ r.phase = .scan ∧ inBound ses.timing r.buf r.i = true
        ∧ level ses.chan r.buf r.i = some false ∧ sampleByte ses.timing ses.chan r.buf r.i = some b
        ∧ k (s.setRun ses { r with phase := .stopchk b }) = .next t := by
  constructor
  · rintro ⟨u, v, ses', r', hstart, hsample, hrun, hphase, hk⟩
    obtain ⟨ses, r, hs, hp, hb, hl, rfl⟩ := execScanStart_eq_next.mp hstart
    obtain ⟨ses₁, r₁, c, hs₁, -, hbyte, rfl⟩ := execSample_eq_next.mp hsample
    obtain ⟨rfl, rfl⟩ := (s.setRun_runs ses _).unique hs₁
    obtain ⟨rfl, rfl⟩ := (State.setRun_runs _ _ _).unique hrun
    obtain rfl : c = b := Phase.stopchk.inj hphase
    exact ⟨ses, r, hs, hp, hb, hl, hbyte, hk⟩
  · rintro ⟨ses, r, hs, hp, hb, hl, hbyte, hk⟩
    exact ⟨_, _, _, _, execScanStart_eq_next.mpr ⟨ses, r, hs, hp, hb, hl, rfl⟩,
      execSample_eq_next.mpr ⟨_, _, b, s.setRun_runs ses _, rfl, hbyte, rfl⟩, State.setRun_runs _ _ _, rfl, hk⟩

/-- STOPCHK.OK where SAMPLE has left BYTE (43_feed_decoder R167). -/
theorem execStopchkOk_setRun_eq_next {s t : State} {ses : Session} {r : Run} {b : Byte} :
    execStopchkOk (s.setRun ses { r with phase := .stopchk b }) = .next t ↔
      level ses.chan r.buf (r.i + ses.timing.stop) = some true
        ∧ t = s.setRun ses (r.keepByte b (r.i + ses.timing.stop)) := by
  rw [execStopchkOk, onFeed_of_runs (s.setRun_runs ses _), requireLevel_eq_next, Host.Outcome.next.injEq,
    @eq_comm State _ t]
  rfl

/-- STOPCHK.ERR where SAMPLE has left BYTE (43_feed_decoder R168). -/
theorem execStopchkErr_setRun_eq_next {s t : State} {ses : Session} {r : Run} {b : Byte} :
    execStopchkErr (s.setRun ses { r with phase := .stopchk b }) = .next t ↔
      level ses.chan r.buf (r.i + ses.timing.stop) = some false
        ∧ t = s.setRun ses (r.takeFramingError ses.cursor b (r.i + ses.timing.stop)) := by
  rw [execStopchkErr, onFeed_of_runs (s.setRun_runs ses _), requireLevel_eq_next, Host.Outcome.next.injEq,
    @eq_comm State _ t]
  rfl

/-- Settles O39: both sides say that SCAN stands on a low start index in bounds, that the eight levels make `b`, and
that the stop level is the row's; the state answered is then the same. -/
theorem frameRowsAreThreeMicroSteps : Obligations.FrameRowsAreThreeMicroSteps := by
  intro s t b
  simp only [exec]
  constructor
  · rw [execFrameOk_eq_next, scanStart_sample_then_iff]
    simp only [execStopchkOk_setRun_eq_next]
  · rw [execFrameErr_eq_next, scanStart_sample_then_iff]
    simp only [execStopchkErr_setRun_eq_next]

end Sys2Proof.Machine
end

section
/-! PROOFS. The size test of a sized build (43_feed_decoder R177, 92 D6): where a FEED's events can lie, and which
FEEDs the test therefore takes. -/

namespace Sys2Proof.Machine

/-- The loop adds only events at the absolute index of a word of the buffer (43_feed_decoder R168). -/
theorem mem_ferrs_of_scanLoop {t : TimingTable} {ch cursor : Nat} {buf : List SampleWord} {e : FeedEnd} {a : Nat}
    (ha : a ∈ e.ferrs) : ∀ {fuel i bytes ferrs}, scanLoop t ch cursor buf fuel i bytes ferrs = some e →
      a ∈ ferrs ∨ ∃ j < buf.length, a = cursor + j := by
  intro fuel
  induction fuel with
  | zero => intro i bytes ferrs h; simp [scanLoop] at h
  | succ fuel ih =>
    intro i bytes ferrs h
    have event {l} (hl : level ch buf (i + t.stop) = some l) (hm : a ∈ ferrs ++ [cursor + (i + t.stop)]) :
        a ∈ ferrs ∨ ∃ j < buf.length, a = cursor + j :=
      (List.mem_append.mp hm).imp_right fun h => ⟨_, lt_of_level hl, List.mem_singleton.mp h⟩
    unfold scanLoop at h
    split at h
    · split at h
      · cases h -- no level to read
      · exact ih h -- high: SCAN steps over
      · split at h
        · exact ih h -- a valid stop bit
        · next hstop =>
          split at h
          · exact (ih h).elim (event hstop) .inr -- RESYNC.DONE
          · cases h; exact event hstop ha -- RESYNC.EXIT
          · cases h
        · cases h
    · cases h; exact .inl ha -- out of bounds: SCAN.EXIT

theorem mem_ferrs_of_feedLoop {t : TimingTable} {ch cursor : Nat} {buf : List SampleWord} {e : FeedEnd} {a : Nat}
    (h : feedLoop t ch cursor buf = some e) (ha : a ∈ e.ferrs) : ∃ j < buf.length, a = cursor + j :=
  (mem_ferrs_of_scanLoop ha h).resolve_left List.not_mem_nil

/-- A buffer shorter than SPARE is left at once (43_feed_decoder R165). -/
theorem feedLoop_of_length_lt_spare {t : TimingTable} (ch cursor : Nat) {buf : List SampleWord}
    (h : buf.length < t.spare) : feedLoop t ch cursor buf = some ⟨0, [], [], false⟩ := by
  have hb : inBound t buf 0 = false := (not_inBound_iff t buf 0).mpr (by omega)
  simp [feedLoop, scanLoop, hb]

/-- A cursor that holds `CURSOR + N` holds CURSOR at the exit and every event index. -/
theorem FeedEnd.fits_of_fitsCur_add_length {p : Params} {t : TimingTable} {ch cursor : Nat} {buf : List SampleWord}
    {e : FeedEnd} (hw : t.wellFormed = true) (h : p.fitsCur (cursor + buf.length) = true)
    (he : feedLoop t ch cursor buf = some e) : e.fits p cursor = true := by
  obtain ⟨e', he', hi, -⟩ := feedLoop_total (ch := ch) (cursor := cursor) (buf := buf) hw
  obtain rfl : e' = e := Option.some.inj (he'.symm.trans he)
  rw [FeedEnd.fits, Bool.and_eq_true, List.all_eq_true]
  refine ⟨Params.fitsCur_mono h (by omega), fun a ha => ?_⟩
  obtain ⟨j, hj, rfl⟩ := mem_ferrs_of_feedLoop he ha
  exact Params.fitsCur_mono h (by omega)

/-- FEED's entry where a session is open, no FEED runs and the size test passes (43_feed_decoder R161). -/
theorem execFeed_of_rests {s : State} {ses : Session} {chunk : List SampleWord} (h : s.Rests ses)
    (hf : ses.feedFits s.params chunk = true) : execFeed chunk s = .next (s.openSession (ses.enterFeed chunk)) := by
  have hidle : s.feeding = false := by simp [State.feeding, h.1, h.2]
  simp [execFeed, State.betweenOperations, hidle, State.inSession, h.1, hf]

/-- Settles O57: the loop leaves at an index up to `N` with its events inside the buffer, so a cursor that holds
`CURSOR + N` holds them all; on a buffer shorter than SPARE it leaves at index 0 with no event. -/
theorem sizedBuildTakesWhatFits : Obligations.SizedBuildTakesWhatFits := by
  intro s ses chunk hrest hw hidx hcur
  rw [← List.length_append] at hidx hcur
  have hfits : ses.feedFits s.params chunk = true := by
    refine feedFits_iff.mpr ⟨hidx, fun e he => ?_⟩
    rcases hcur with hcur | ⟨hcur, hshort⟩
    · exact FeedEnd.fits_of_fitsCur_add_length hw hcur he
    · rw [feedLoop_of_length_lt_spare _ _ hshort] at he
      cases he
      simpa [FeedEnd.fits] using hcur
  exact ⟨_, execFeed_of_rests hrest hfits, rfl⟩

end Sys2Proof.Machine
end

section
/-! PROOFS. For each host operation, what it can answer (40_timing_model, 41_channel_extractor, 42_session_control,
43_feed_decoder R161), and what a START that succeeds latches. -/

namespace Sys2Proof.Machine

theorem startSession_eq_ok {p : Params} {tt : TimingTable} {ch : Nat} {ses : Session} :
    startSession p tt ch = .ok ses ↔
      ch < p.w ∧ tt.wellFormed = true ∧ tt.fits p = true ∧ ses = .fresh tt ch := by
  unfold startSession
  by_cases hch : ch < p.w <;> cases hw : tt.wellFormed <;> cases hf : tt.fits p <;> simp [hch, eq_comm]

theorem eq_deliver_of_execBuild {s t : State} {sr br : Number} (h : execBuild sr br s = .next t) :
    ∃ x, t = s.deliver x := by
  unfold execBuild State.raise at h
  split at h <;> exact ⟨_, (Host.Outcome.next.inj h).symm⟩

theorem execIshigh_eq_next {s t : State} {w : SampleWord} {ch : Nat} : execIshigh w ch s = .next t ↔
    ch < s.params.w ∧ t = s.deliver (.level (isHigh w ch)) := by
  by_cases h : ch < s.params.w <;> simp [execIshigh, h, eq_comm]

theorem execStart_eq_next {s t : State} {tt : TimingTable} {ch : Nat} : execStart tt ch s = .next t ↔
    s.feeding = false ∧
      ((∃ ses, startSession s.params tt ch = .ok ses ∧ t = (s.openSession ses).deliver .started)
        ∨ ∃ c, startSession s.params tt ch = .error c ∧ t = s.closeSession.deliver (.error c)) := by
  rw [execStart, betweenOperations_eq_next]
  cases startSession s.params tt ch <;> simp [State.raise, @eq_comm State t]

theorem execFeed_eq_next {s t : State} {chunk : List SampleWord} : execFeed chunk s = .next t ↔
    s.feeding = false ∧
      ((s.session = none ∧ t = s.deliver (.error .noSession))
        ∨ ∃ ses, s.session = some ses ∧ ses.feedFits s.params chunk = true
            ∧ t = s.openSession (ses.enterFeed chunk)) := by
  rw [execFeed, betweenOperations_eq_next, inSession_eq_next]
  refine and_congr_right fun _ => or_congr_right (exists_congr fun ses => and_congr_right fun _ => ?_)
  cases ses.feedFits s.params chunk <;> simp [@eq_comm State t]

theorem execFinish_eq_next {s t : State} : execFinish s = .next t ↔
    s.feeding = false ∧
      ((s.session = none ∧ t = s.deliver (.error .noSession))
        ∨ (s.session.isSome = true ∧ t = s.closeSession.deliver .finished)) := by
  rw [execFinish, betweenOperations_eq_next]
  cases hs : s.session <;> simp [finishSession, State.raise, State.closeSession, @eq_comm State t]

/-- Settles O21: both of START's tests pass, so it latches the fresh session. -/
theorem startLatchesAndOpens : Obligations.StartLatchesAndOpens := by
  intro s tt ch hidle hch hoff hstop hfits
  have hw : tt.wellFormed = true := (TimingTable.wellFormed_iff tt).mpr ⟨hoff, hstop⟩
  exact execStart_eq_next.mpr ⟨hidle, .inl ⟨.fresh tt ch, startSession_eq_ok.mpr ⟨hch, hw, hfits, rfl⟩, rfl⟩⟩

end Sys2Proof.Machine
end

section
/-! PROOFS. The invariant of 10_state R37: it holds after reset, and every operation and every micro-step keeps it. -/

namespace Sys2Proof.Machine

/-! The invariant through the operations on the state. -/

theorem State.inv_of_session_eq_none {s : State} (hw : 1 ≤ s.params.w) (hs : s.session = none) : s.Inv :=
  ⟨hw, by simp [hs]⟩

theorem State.Inv.deliver {s : State} (h : s.Inv) (x : Reply) : (s.deliver x).Inv := h

theorem State.Inv.closeSession {s : State} (h : s.Inv) : s.closeSession.Inv := State.inv_of_session_eq_none h.1 rfl

theorem State.Inv.openSession {s : State} {ses : Session} (h : s.Inv) (hs : ses.Inv s.params) :
    (s.openSession ses).Inv :=
  ⟨h.1, fun _ heq => Option.some.inj heq ▸ hs⟩

theorem Params.fitsCur_zero (p : Params) : p.fitsCur 0 = true := by
  cases hc : p.curBits <;> simp [Params.fitsCur, fitsBits, hc]

/-- START opens a session that meets the invariant (42_session_control R140). -/
theorem Session.inv_of_startSession {p : Params} {tt : TimingTable} {ch : Nat} {ses : Session}
    (h : startSession p tt ch = .ok ses) : ses.Inv p := by
  obtain ⟨hch, hw, hf, rfl⟩ := startSession_eq_ok.mp h
  have hspare := ((TimingTable.wellFormed_iff tt).mp hw).2
  exact ⟨hw, hf, hch, Nat.zero_lt_of_lt hspare, Memory.wf_nil p, Params.fitsCur_zero p, by simp⟩

/-- FEED enters its loop with the invariant of a running FEED (43_feed_decoder R161, R177). -/
theorem Session.Inv.enterFeed {p : Params} {ses : Session} {chunk : List SampleWord} (h : ses.Inv p)
    (hc : (Instr.feed chunk).wellFormed p = true) (hf : ses.feedFits p chunk = true) :
    (ses.enterFeed chunk).Inv p := by
  obtain ⟨hw, htf, hch, hshort, hrw, hcur, -⟩ := h
  obtain ⟨hidx, hend⟩ := feedFits_iff.mp hf
  refine ⟨hw, htf, hch, hshort, hrw, hcur, fun r hr => ?_⟩
  obtain rfl := Option.some.inj hr
  exact ⟨Nat.zero_le _, rfl, List.prefix_append _ _, Memory.wf_feedBuffer p ses chunk hrw hc,
    ⟨List.Pairwise.nil, by simp, Nat.zero_le _⟩, hidx, hend⟩

/-! The invariant through the FEED-local registers. -/

section
variable {p : Params} {ses : Session} {r r' : Run} {b : Byte}

/-- Only index, phase, bytes and events change within a FEED; while it heads for the same end, the rest of the
invariant stays. -/
theorem Run.Inv.goOn (h : r.Inv p ses) (hbuf : r'.buf = r.buf) (hi : r'.i ≤ r.buf.length)
    (hphase : r'.phaseOk ses = true) (hev : r'.EventsOk ses) (hend : finishRun ses r' = finishRun ses r) :
    r'.Inv p ses := by
  obtain ⟨-, -, hrump, hwf, -, hidx, hfits⟩ := h
  exact ⟨hbuf ▸ hi, hphase, hbuf ▸ hrump, hbuf ▸ hwf, hev, hbuf ▸ hidx, hend ▸ hfits⟩

theorem Run.Inv.i_le (h : r.Inv p ses) : r.i ≤ r.buf.length := h.1

theorem Run.Inv.phaseOk (h : r.Inv p ses) : r.phaseOk ses = true := h.2.1

theorem Run.Inv.events (h : r.Inv p ses) : r.EventsOk ses := by
  obtain ⟨-, -, -, -, hev, -⟩ := h
  exact hev

/-- Where no event is added, the events stay in order as long as neither their bound nor that of their number
falls. -/
theorem Run.EventsOk.of_ferrs_eq (h : r.EventsOk ses) (hf : r'.ferrs = r.ferrs)
    (hi : r.i + (if r.phase.isResync then 1 else 0) ≤ r'.i + (if r'.phase.isResync then 1 else 0))
    (hb : r.bytes.length + (if r.phase.isResync then 1 else 0)
      ≤ r'.bytes.length + (if r'.phase.isResync then 1 else 0)) : r'.EventsOk ses := by
  obtain ⟨hsorted, hrange, hcount⟩ := h
  rw [Run.EventsOk, hf]
  exact ⟨hsorted, fun a ha => ⟨(hrange a ha).1, by have := (hrange a ha).2; omega⟩, by omega⟩

/-- The event of STOPCHK.ERR lies past all earlier ones (43_feed_decoder R168, R183). -/
theorem Run.EventsOk.takeFramingError (h : r.EventsOk ses) (hp : r.phase.isResync = false) {j : Nat}
    (hj : r.i ≤ j) : (r.takeFramingError ses.cursor b j).EventsOk ses := by
  obtain ⟨hsorted, hrange, hcount⟩ := h
  simp only [hp, Bool.false_eq_true, if_false, Nat.add_zero] at hrange hcount
  refine ⟨?_, fun a ha => ?_, ?_⟩
  · simp only [Run.takeFramingError_ferrs, List.pairwise_append, List.pairwise_singleton, List.mem_singleton,
      forall_eq, true_and]
    exact ⟨hsorted, fun a ha => by have := hrange a ha; omega⟩
  · simp only [Run.takeFramingError_ferrs, List.mem_append, List.mem_singleton] at ha
    simp only [Run.takeFramingError_i, Run.takeFramingError_phase, Phase.isResync, if_true]
    rcases ha with ha | rfl
    · have := hrange a ha; omega
    · omega
  · simpa [Phase.isResync] using hcount

end

/-! The invariant through each micro-step and frame row. -/

section
variable {s t : State}

/-- The parts of the invariant that a row of a running FEED starts from. -/
theorem State.Inv.of_runs {ses : Session} {r : Run} (hs : s.Inv) (hr : s.Runs ses r) :
    ses.Inv s.params ∧ r.Inv s.params ses :=
  have hses := hs.2 ses hr.1
  ⟨hses, hses.run hr.2⟩

theorem execScanSkip_keeps_inv (hs : s.Inv) (h : execScanSkip s = .next t) : t.Inv := by
  obtain ⟨ses, r, hr, hp, hb, hl, rfl⟩ := execScanSkip_eq_next.mp h
  obtain ⟨hses, hrun⟩ := hs.of_runs hr
  exact hs.setRun hr <| hrun.goOn rfl (lt_of_level hl) (by simp [Run.phaseOk, hp])
    (hrun.events.of_ferrs_eq rfl (by simp) le_rfl) (finishRun_scanSkip hses.1 hp hb hl)

theorem execScanStart_keeps_inv (hs : s.Inv) (h : execScanStart s = .next t) : t.Inv := by
  obtain ⟨ses, r, hr, hp, hb, hl, rfl⟩ := execScanStart_eq_next.mp h
  obtain ⟨hses, hrun⟩ := hs.of_runs hr
  exact hs.setRun hr <| hrun.goOn rfl hrun.i_le (by simp only [Run.phaseOk, hb, hl]; rfl)
    (hrun.events.of_ferrs_eq rfl (by simp [hp, Phase.isResync]) (by simp [hp, Phase.isResync]))
    (finishRun_scanStart hses.1 hp hb hl)

theorem execScanExit_keeps_inv (hs : s.Inv) (h : execScanExit s = .next t) : t.Inv := by
  obtain ⟨ses, r, hr, hp, hb, rfl⟩ := execScanExit_eq_next.mp h
  obtain ⟨-, hrun⟩ := hs.of_runs hr
  exact hs.exitFeed hr hrun.i_le ((not_inBound_iff _ _ _).mp hb) (finishRun_scanExit hp hb)

theorem execSample_keeps_inv (hs : s.Inv) (h : execSample s = .next t) : t.Inv := by
  obtain ⟨ses, r, b, hr, hp, hbyte, rfl⟩ := execSample_eq_next.mp h
  obtain ⟨-, hrun⟩ := hs.of_runs hr
  have hphase := hrun.phaseOk
  simp only [Run.phaseOk, hp] at hphase
  exact hs.setRun hr <| hrun.goOn rfl hrun.i_le (by simp only [Run.phaseOk, hphase, hbyte]; simp)
    (hrun.events.of_ferrs_eq rfl (by simp [hp, Phase.isResync]) (by simp [hp, Phase.isResync]))
    (finishRun_sample hp hbyte)

theorem execStopchkOk_keeps_inv (hs : s.Inv) (h : execStopchkOk s = .next t) : t.Inv := by
  obtain ⟨ses, r, b, hr, hp, hl, rfl⟩ := execStopchkOk_eq_next.mp h
  obtain ⟨-, hrun⟩ := hs.of_runs hr
  exact hs.setRun hr <| hrun.goOn rfl (lt_of_level hl).le rfl
    (hrun.events.of_ferrs_eq rfl (by simp [hp, Phase.isResync]) (by simp [hp, Phase.isResync]))
    (finishRun_stopchkOk hp hl)

theorem execStopchkErr_keeps_inv (hs : s.Inv) (h : execStopchkErr s = .next t) : t.Inv := by
  obtain ⟨ses, r, b, hr, hp, hl, rfl⟩ := execStopchkErr_eq_next.mp h
  obtain ⟨-, hrun⟩ := hs.of_runs hr
  exact hs.setRun hr <| hrun.goOn rfl (lt_of_level hl).le (by simp [Run.phaseOk, hl, lt_of_level hl])
    (hrun.events.takeFramingError (by rw [hp]; rfl) (Nat.le_add_right _ _)) (finishRun_stopchkErr hp hl)

theorem execResyncHold_keeps_inv (hs : s.Inv) (h : execResyncHold s = .next t) : t.Inv := by
  obtain ⟨ses, r, b, hr, hp, hb, hl, rfl⟩ := execResyncHold_eq_next.mp h
  obtain ⟨hses, hrun⟩ := hs.of_runs hr
  exact hs.setRun hr <| hrun.goOn rfl (lt_of_level hl).le (by simp [Run.phaseOk, hp, hl, lt_of_level hl])
    (hrun.events.of_ferrs_eq rfl (by simp) le_rfl)
    (finishRun_resyncHold (Nat.zero_lt_of_lt hses.offsets_lt_spare.1) hp hb hl)

theorem execResyncDone_keeps_inv (hs : s.Inv) (h : execResyncDone s = .next t) : t.Inv := by
  obtain ⟨ses, r, b, hr, hp, hb, hl, rfl⟩ := execResyncDone_eq_next.mp h
  obtain ⟨-, hrun⟩ := hs.of_runs hr
  exact hs.setRun hr <| hrun.goOn rfl (lt_of_level hl).le rfl
    (hrun.events.of_ferrs_eq rfl (by simp [hp, Phase.isResync]) (by simp [hp, Phase.isResync]))
    (finishRun_resyncDone hp hb hl)

theorem execResyncExit_keeps_inv (hs : s.Inv) (h : execResyncExit s = .next t) : t.Inv := by
  obtain ⟨ses, r, b, hr, hp, hb, rfl⟩ := execResyncExit_eq_next.mp h
  obtain ⟨-, hrun⟩ := hs.of_runs hr
  have hphase := hrun.phaseOk
  simp only [Run.phaseOk, hp, Bool.and_eq_true, decide_eq_true_eq] at hphase
  exact hs.exitFeed hr hphase.1 ((not_inBound_iff _ _ _).mp hb) (finishRun_resyncExit hp hb)

/-- A frame row keeps the invariant because the three micro-steps it stands for do (00_scope R4). -/
theorem execFrameOk_keeps_inv {b : Byte} (hs : s.Inv) (h : execFrameOk b s = .next t) : t.Inv := by
  obtain ⟨u, v, -, -, hstart, hsample, -, -, hstop⟩ := (frameRowsAreThreeMicroSteps s t b).1.mp h
  exact execStopchkOk_keeps_inv (execSample_keeps_inv (execScanStart_keeps_inv hs hstart) hsample) hstop

theorem execFrameErr_keeps_inv {b : Byte} (hs : s.Inv) (h : execFrameErr b s = .next t) : t.Inv := by
  obtain ⟨u, v, -, -, hstart, hsample, -, -, hstop⟩ := (frameRowsAreThreeMicroSteps s t b).2.mp h
  exact execStopchkErr_keeps_inv (execSample_keeps_inv (execScanStart_keeps_inv hs hstart) hsample) hstop

/-! The invariant through each host operation. -/

theorem execStart_keeps_inv {tt : TimingTable} {ch : Nat} (hs : s.Inv) (h : execStart tt ch s = .next t) : t.Inv := by
  obtain ⟨-, ⟨ses, hok, rfl⟩ | ⟨c, -, rfl⟩⟩ := execStart_eq_next.mp h
  · exact (hs.openSession (Session.inv_of_startSession hok)).deliver _
  · exact hs.closeSession.deliver _

theorem execFeed_keeps_inv {chunk : List SampleWord} (hs : s.Inv) (h : execFeed chunk s = .next t)
    (hw : s.feeding = false → (Instr.feed chunk).wellFormed s.params = true) : t.Inv := by
  obtain ⟨hidle, ⟨-, rfl⟩ | ⟨ses, hses, hfits, rfl⟩⟩ := execFeed_eq_next.mp h
  · exact hs.deliver _
  · exact hs.openSession ((hs.2 ses hses).enterFeed (hw hidle) hfits)

theorem execFinish_keeps_inv (hs : s.Inv) (h : execFinish s = .next t) : t.Inv := by
  obtain ⟨-, ⟨-, rfl⟩ | ⟨-, rfl⟩⟩ := execFinish_eq_next.mp h
  · exact hs.deliver _
  · exact hs.closeSession.deliver _

/-- Every row keeps the invariant. Its operands must be values of their types where it can be an issued operation:
the words of a FEED's chunk go into BUF. -/
theorem exec_keeps_inv {i : Instr} (hs : s.Inv) (hw : s.feeding = false → i.wellFormed s.params = true)
    (h : exec i s = .next t) : t.Inv := by
  cases i with
  | build sr br => obtain ⟨x, rfl⟩ := eq_deliver_of_execBuild h; exact hs.deliver x
  | ishigh w ch => obtain ⟨-, rfl⟩ := execIshigh_eq_next.mp h; exact hs.deliver _
  | start tt ch => exact execStart_keeps_inv hs h
  | feed chunk => exact execFeed_keeps_inv hs h hw
  | finish => exact execFinish_keeps_inv hs h
  | scanSkip => exact execScanSkip_keeps_inv hs h
  | scanStart => exact execScanStart_keeps_inv hs h
  | scanExit => exact execScanExit_keeps_inv hs h
  | sample => exact execSample_keeps_inv hs h
  | stopchkOk => exact execStopchkOk_keeps_inv hs h
  | stopchkErr => exact execStopchkErr_keeps_inv hs h
  | resyncHold => exact execResyncHold_keeps_inv hs h
  | resyncDone => exact execResyncDone_keeps_inv hs h
  | resyncExit => exact execResyncExit_keeps_inv hs h
  | frameOk b => exact execFrameOk_keeps_inv hs h
  | frameErr b => exact execFrameErr_keeps_inv hs h

end

/-- Settles O3: an idle step keeps the state, and any other step is `exec` of one row, each of which keeps the
invariant. -/
theorem everyStepKeepsInvariant : Obligations.EveryStepKeepsInvariant := by
  intro s t hs h
  obtain ⟨-, -, rfl⟩ | ⟨-, c, rest, i, -, -, hw, hex⟩ | ⟨ses, r, e, i, hr, -, -, hex⟩ := step_next_cases h
  · exact hs
  · have htaken : ({ s with inbox := rest } : State).Inv := hs
    exact exec_keeps_inv htaken (fun _ => hw) hex
  · exact exec_keeps_inv hs (fun hidle => by simp [State.feeding_of_runs hr] at hidle) hex

/-- Settles O2: there is no session after reset, and `W` is at least 1. -/
theorem resetMeetsInvariant : Obligations.ResetMeetsInvariant :=
  ⟨State.inv_of_session_eq_none (by decide) rfl, fun _ hw => State.inv_of_session_eq_none hw rfl⟩

end Sys2Proof.Machine
end

section
/-! PROOFS. What the micro-steps and frame rows leave unchanged (10_state R20, R27, 20_memory R54, R61). -/

namespace Sys2Proof.Machine

/-- How the FEED-local registers go on under the row `i`: BUF stays, `I`, BYTES and FERRS only grow, BYTES in the
rows that keep a byte, FERRS in those that take an event. -/
def Run.GrowsUnder (i : Instr) (r r' : Run) : Prop :=
  r'.buf = r.buf ∧ r.i ≤ r'.i ∧ r.bytes <+: r'.bytes ∧ r.ferrs <+: r'.ferrs
    ∧ (r'.bytes ≠ r.bytes → i = .stopchkOk ∨ i = .resyncDone ∨ ∃ b, i = .frameOk b)
    ∧ (r'.ferrs ≠ r.ferrs → i = .stopchkErr ∨ ∃ b, i = .frameErr b)

/-- What the row `i` of a running FEED leaves unchanged from `s` to `t`: the conclusion of
`Obligations.MicroStepFrame`. -/
def RowFrame (i : Instr) (s t : State) : Prop :=
  t.params = s.params ∧ t.grain = s.grain ∧ t.inbox = s.inbox ∧
    ∃ ses r, s.Runs ses r ∧ ∃ ses', t.session = some ses' ∧ ses'.timing = ses.timing ∧ ses'.chan = ses.chan ∧
      if i = .scanExit ∨ i = .resyncExit then ses'.run = none
      else t.outbox = s.outbox ∧ ses'.cursor = ses.cursor ∧ ses'.rump = ses.rump ∧
        ∃ r', ses'.run = some r' ∧ r.GrowsUnder i r'

section
variable {i : Instr} {s : State} {ses : Session} {r r' : Run}

theorem RowFrame.setRun (hr : s.Runs ses r) (hi : ¬ (i = .scanExit ∨ i = .resyncExit))
    (hgrow : r.GrowsUnder i r') : RowFrame i s (s.setRun ses r') := by
  refine ⟨rfl, rfl, rfl, ses, r, hr, _, rfl, rfl, rfl, ?_⟩
  rw [if_neg hi]
  exact ⟨rfl, rfl, rfl, r', rfl, hgrow⟩

theorem RowFrame.exitFeed (hr : s.Runs ses r) (hi : i = .scanExit ∨ i = .resyncExit) (j : Nat) :
    RowFrame i s (s.exitFeed ses r j) := by
  refine ⟨rfl, rfl, rfl, ses, r, hr, _, rfl, rfl, rfl, ?_⟩
  rw [if_pos hi]

/-- The rows that keep neither a byte nor an event. -/
theorem Run.GrowsUnder.of_outputs_eq (hbuf : r'.buf = r.buf) (hi : r.i ≤ r'.i) (hb : r'.bytes = r.bytes)
    (hf : r'.ferrs = r.ferrs) : r.GrowsUnder i r' := by
  simp [Run.GrowsUnder, hbuf, hi, hb, hf]

theorem Run.growsUnder_keepByte (b : Byte) {j : Nat} (hj : r.i ≤ j)
    (hi : i = .stopchkOk ∨ i = .resyncDone ∨ ∃ b, i = .frameOk b) : r.GrowsUnder i (r.keepByte b j) :=
  ⟨rfl, hj, List.prefix_append _ _, List.prefix_rfl, fun _ => hi, fun h => (h rfl).elim⟩

theorem Run.growsUnder_takeFramingError (cursor : Nat) (b : Byte) {j : Nat} (hj : r.i ≤ j)
    (hi : i = .stopchkErr ∨ ∃ b, i = .frameErr b) : r.GrowsUnder i (r.takeFramingError cursor b j) :=
  ⟨rfl, hj, List.prefix_rfl, List.prefix_append _ _, fun h => (h rfl).elim, fun _ => hi⟩

end

/-- Settles O40, row by row: each of the eleven is `setRun` or, at the two exits, `exitFeed`. -/
theorem microStepFrame : Obligations.MicroStepFrame := by
  intro i s t hi h
  change RowFrame i s t
  obtain rfl | rfl | rfl | rfl | rfl | rfl | rfl | rfl | rfl | ⟨b, rfl⟩ | ⟨b, rfl⟩ := hi
  · obtain ⟨ses, r, hr, -, -, -, rfl⟩ := execScanSkip_eq_next.mp h
    exact .setRun hr (by simp) (.of_outputs_eq rfl (Nat.le_succ _) rfl rfl)
  · obtain ⟨ses, r, hr, -, -, -, rfl⟩ := execScanStart_eq_next.mp h
    exact .setRun hr (by simp) (.of_outputs_eq rfl le_rfl rfl rfl)
  · obtain ⟨ses, r, hr, -, -, rfl⟩ := execScanExit_eq_next.mp h
    exact .exitFeed hr (.inl rfl) _
  · obtain ⟨ses, r, b, hr, -, -, rfl⟩ := execSample_eq_next.mp h
    exact .setRun hr (by simp) (.of_outputs_eq rfl le_rfl rfl rfl)
  · obtain ⟨ses, r, b, hr, -, -, rfl⟩ := execStopchkOk_eq_next.mp h
    exact .setRun hr (by simp) (r.growsUnder_keepByte b (Nat.le_add_right _ _) (by simp))
  · obtain ⟨ses, r, b, hr, -, -, rfl⟩ := execStopchkErr_eq_next.mp h
    exact .setRun hr (by simp) (r.growsUnder_takeFramingError _ b (Nat.le_add_right _ _) (by simp))
  · obtain ⟨ses, r, b, hr, -, -, -, rfl⟩ := execResyncHold_eq_next.mp h
    exact .setRun hr (by simp) (.of_outputs_eq rfl (Nat.le_succ _) rfl rfl)
  · obtain ⟨ses, r, b, hr, -, -, -, rfl⟩ := execResyncDone_eq_next.mp h
    exact .setRun hr (by simp) (r.growsUnder_keepByte b (Nat.le_succ _) (by simp))
  · obtain ⟨ses, r, b, hr, -, -, rfl⟩ := execResyncExit_eq_next.mp h
    exact .exitFeed hr (.inr rfl) _
  · obtain ⟨ses, r, hr, -, -, -, -, -, rfl⟩ := execFrameOk_eq_next.mp h
    exact .setRun hr (by simp) (r.growsUnder_keepByte b (Nat.le_add_right _ _) (by simp))
  · obtain ⟨ses, r, hr, -, -, -, -, -, rfl⟩ := execFrameErr_eq_next.mp h
    exact .setRun hr (by simp) (r.growsUnder_takeFramingError _ b (Nat.le_add_right _ _) (by simp))

end Sys2Proof.Machine
end

section
/-! PROOFS. How a session cuts the timeline fed to it (10_state R24, R25, R37): each FEED consumes the first
words of BUF. -/

namespace Sys2Proof.Machine

theorem Whole.andThen_eq_next {α β : Type} {x : Whole α} {k : α → Whole β} {y : β} :
    x.andThen k = .next y ↔ ∃ a, x = .next a ∧ k a = .next y := by
  cases x <;> simp [Whole.andThen]

theorem feedWhole_eq_next {p : Params} {ses : Session} {chunk : List SampleWord} {o : Outputs} :
    feedWhole p ses chunk = .next o ↔
      ses.feedFits p chunk = true ∧ ∃ e, feedLoop ses.timing ses.chan ses.cursor (ses.feedBuffer chunk) = some e
        ∧ o = ⟨ses.after (ses.feedBuffer chunk) e, [⟨e.bytes, e.ferrs, e.resyncExit⟩]⟩ := by
  unfold feedWhole
  cases ses.feedFits p chunk <;>
    cases feedLoop ses.timing ses.chan ses.cursor (ses.feedBuffer chunk) <;> simp [eq_comm]

theorem feedAll_cons_eq_next {p : Params} {ses : Session} {chunk : List SampleWord} {chunks : List (List SampleWord)}
    {o : Outputs} : feedAll p ses (chunk :: chunks) = .next o ↔
      ∃ a b, feedWhole p ses chunk = .next a ∧ feedAll p a.session chunks = .next b
        ∧ o = ⟨b.session, a.feeds ++ b.feeds⟩ := by
  simp [feedAll, Whole.andThen_eq_next, @eq_comm _ o]

/-- One FEED cuts BUF into the words CURSOR passes and the new RUMP (43_feed_decoder R172). -/
theorem feedWhole_cuts_feedBuffer {p : Params} {ses : Session} {chunk : List SampleWord} {o : Outputs}
    (hw : ses.timing.wellFormed = true) (h : feedWhole p ses chunk = .next o) :
    o.session.timing = ses.timing ∧ ∃ consumed, ses.rump ++ chunk = consumed ++ o.session.rump
      ∧ o.session.cursor = ses.cursor + consumed.length := by
  obtain ⟨-, e, he, rfl⟩ := feedWhole_eq_next.mp h
  obtain ⟨e', he', hi, -⟩ := feedLoop_total (ch := ses.chan) (cursor := ses.cursor) (buf := ses.feedBuffer chunk) hw
  obtain rfl : e' = e := Option.some.inj (he'.symm.trans he)
  exact ⟨rfl, (ses.feedBuffer chunk).take e'.i, (List.take_append_drop _ _).symm,
    by rw [List.length_take_of_le hi]; rfl⟩

/-- The FEEDs of a session cut RUMP and their chunks, joined, into the words CURSOR passes and the last RUMP. -/
theorem feedAll_cuts_timeline {p : Params} {chunks : List (List SampleWord)} : ∀ {ses : Session} {o : Outputs},
    ses.timing.wellFormed = true → feedAll p ses chunks = .next o →
    ∃ consumed, ses.rump ++ chunks.flatten = consumed ++ o.session.rump
      ∧ o.session.cursor = ses.cursor + consumed.length := by
  induction chunks with
  | nil =>
    intro ses o _ h
    obtain rfl := Host.Outcome.next.inj h
    exact ⟨[], by simp, rfl⟩
  | cons chunk chunks ih =>
    intro ses o hw h
    obtain ⟨a, b, ha, hb, rfl⟩ := feedAll_cons_eq_next.mp h
    obtain ⟨htiming, first, hfirst, hcur⟩ := feedWhole_cuts_feedBuffer hw ha
    obtain ⟨later, hlater, hcur'⟩ := ih (htiming ▸ hw) hb
    refine ⟨first ++ later, ?_, by rw [hcur', hcur, List.length_append, Nat.add_assoc]⟩
    calc ses.rump ++ (chunk :: chunks).flatten
        = first ++ (a.session.rump ++ chunks.flatten) := by
          rw [List.flatten_cons, ← List.append_assoc, hfirst, List.append_assoc]
      _ = first ++ later ++ b.session.rump := by rw [hlater, List.append_assoc]

/-- Settles O46: START leaves RUMP empty and CURSOR 0, so the cut is of the chunks alone. -/
theorem cursorAndRumpCutTheTimeline : Obligations.CursorAndRumpCutTheTimeline := by
  intro p tt ch chunks o hw h
  simpa using feedAll_cuts_timeline (ses := .fresh tt ch) hw h

end Sys2Proof.Machine
end

section
/-! PROOFS. Channel isolation (20_memory R68): a buffer is read only through its length and the levels of the selected
channel, so states that differ only on other channels answer alike. -/

namespace Sys2Proof.Machine

/-! What reads a buffer reads the same from buffers that carry the same line. -/

section
variable {ch : Nat} {a b : List SampleWord}

theorem sameLine.refl (ch : Nat) (a : List SampleWord) : sameLine ch a a := rfl

theorem sameLine.length_eq (h : sameLine ch a b) : a.length = b.length := by
  simpa using congrArg List.length h

theorem sameLine.append {c d : List SampleWord} (h : sameLine ch a b) (h' : sameLine ch c d) :
    sameLine ch (a ++ c) (b ++ d) := by
  simp only [sameLine, List.map_append] at *
  rw [h, h']

theorem sameLine.drop (h : sameLine ch a b) (i : Nat) : sameLine ch (a.drop i) (b.drop i) := by
  simp only [sameLine, List.map_drop] at *
  rw [h]

theorem level_eq_getElem?_map (ch : Nat) (buf : List SampleWord) (j : Nat) :
    level ch buf j = (buf.map fun w => w.testBit ch)[j]? := by
  simp [level, memRead, isHigh_eq_testBit]

theorem sameLine.level_eq (h : sameLine ch a b) (j : Nat) : level ch a j = level ch b j := by
  rw [level_eq_getElem?_map, level_eq_getElem?_map, h]

theorem sameLine.inBound_eq (h : sameLine ch a b) (t : TimingTable) (j : Nat) : inBound t a j = inBound t b j := by
  rw [inBound, inBound, h.length_eq]

theorem sameLine.sampleByte_eq (h : sameLine ch a b) (t : TimingTable) (i : Nat) :
    sampleByte t ch a i = sampleByte t ch b i := by
  simp only [sampleByte, h.level_eq]

theorem sameLine.resyncLoop_eq (h : sameLine ch a b) (t : TimingTable) :
    ∀ fuel i, resyncLoop t ch a fuel i = resyncLoop t ch b fuel i := by
  intro fuel
  induction fuel with
  | zero => intro i; rfl
  | succ fuel ih => intro i; simp only [resyncLoop, h.inBound_eq, h.level_eq, ih]

theorem sameLine.scanLoop_eq (h : sameLine ch a b) (t : TimingTable) (cursor : Nat) :
    ∀ fuel i bytes ferrs, scanLoop t ch cursor a fuel i bytes ferrs = scanLoop t ch cursor b fuel i bytes ferrs := by
  intro fuel
  induction fuel with
  | zero => intro i bytes ferrs; rfl
  | succ fuel ih =>
    intro i bytes ferrs
    simp only [scanLoop, h.inBound_eq, h.level_eq, h.sampleByte_eq, h.resyncLoop_eq, h.length_eq, ih]

theorem sameLine.feedLoop_eq (h : sameLine ch a b) (t : TimingTable) (cursor : Nat) :
    feedLoop t ch cursor a = feedLoop t ch cursor b := by
  rw [feedLoop, feedLoop, h.scanLoop_eq, h.length_eq]

end

/-! A session and a running FEED moved to words that carry the same line. -/

/-- The running FEED over other words. -/
def Run.over (r : Run) (buf : List SampleWord) : Run := { r with buf := buf }

/-- The session with other words in RUMP and another running FEED. -/
def Session.over (ses : Session) (rump : List SampleWord) (run : Option Run) : Session :=
  { ses with rump := rump, run := run }

theorem Run.sameLine_iff_over {ch : Nat} {r q : Run} :
    r.SameLine ch q ↔ ∃ buf, sameLine ch r.buf buf ∧ q = r.over buf := by
  constructor
  · obtain ⟨buf, phase, i, bytes, ferrs⟩ := q
    rintro ⟨hbuf, rfl, rfl, rfl, rfl⟩
    exact ⟨buf, hbuf, rfl⟩
  · rintro ⟨buf, hbuf, rfl⟩
    exact ⟨hbuf, rfl, rfl, rfl, rfl⟩

/-- Sessions on the same line: the second is the first over other words, and in both a FEED runs or in neither. -/
theorem Session.SameLine.cases {x y : Session} (h : x.SameLine y) :
    ∃ rump, sameLine x.chan x.rump rump ∧
      ((x.run = none ∧ y = x.over rump none)
        ∨ ∃ r buf, x.run = some r ∧ sameLine x.chan r.buf buf ∧ y = x.over rump (some (r.over buf))) := by
  obtain ⟨timing, chan, cursor, rump, run⟩ := y
  obtain ⟨rfl, rfl, rfl, hrump, hrun⟩ := h
  refine ⟨rump, hrump, ?_⟩
  cases hx : x.run with
  | none =>
    cases run with
    | none => exact .inl ⟨rfl, rfl⟩
    | some q => simp [hx] at hrun
  | some r =>
    cases run with
    | none => simp [hx] at hrun
    | some q =>
      simp only [hx] at hrun
      obtain ⟨buf, hbuf, rfl⟩ := Run.sameLine_iff_over.mp hrun
      exact .inr ⟨r, buf, rfl, hbuf, rfl⟩

theorem Session.sameLine_over_none {x : Session} {rump : List SampleWord} (hrun : x.run = none)
    (hrump : sameLine x.chan x.rump rump) : x.SameLine (x.over rump none) :=
  ⟨rfl, rfl, rfl, hrump, by simp [hrun, Session.over]⟩

theorem Session.sameLine_over_some {x : Session} {r : Run} {rump buf : List SampleWord} (hrun : x.run = some r)
    (hrump : sameLine x.chan x.rump rump) (hbuf : sameLine x.chan r.buf buf) :
    x.SameLine (x.over rump (some (r.over buf))) :=
  ⟨rfl, rfl, rfl, hrump, by simpa [hrun, Session.over] using Run.sameLine_iff_over.mpr ⟨buf, hbuf, rfl⟩⟩

theorem Session.SameLine.refl (x : Session) : x.SameLine x := by
  cases hx : x.run with
  | none =>
    have h := Session.sameLine_over_none hx (sameLine.refl x.chan x.rump)
    rwa [show x.over x.rump none = x by rw [← hx]; rfl] at h
  | some r =>
    have h := Session.sameLine_over_some hx (sameLine.refl x.chan x.rump) (sameLine.refl x.chan r.buf)
    rwa [show x.over x.rump (some (r.over r.buf)) = x by rw [show r.over r.buf = r from rfl, ← hx]; rfl] at h

@[simp] theorem Run.over_buf (r : Run) (buf : List SampleWord) : (r.over buf).buf = buf := rfl
@[simp] theorem Run.over_phase (r : Run) (buf : List SampleWord) : (r.over buf).phase = r.phase := rfl
@[simp] theorem Run.over_i (r : Run) (buf : List SampleWord) : (r.over buf).i = r.i := rfl

section
variable {ses : Session} {rump : List SampleWord} {run : Option Run}

@[simp] theorem Session.over_timing : (ses.over rump run).timing = ses.timing := rfl
@[simp] theorem Session.over_chan : (ses.over rump run).chan = ses.chan := rfl
@[simp] theorem Session.over_cursor : (ses.over rump run).cursor = ses.cursor := rfl

variable {r : Run} {buf : List SampleWord} (h : sameLine ses.chan r.buf buf)
include h

theorem sameLine.selector_eq : selector (ses.over rump run) (r.over buf) = selector ses r := by
  cases hp : r.phase <;> simp [selector, probedSelector, hp, h.inBound_eq, h.level_eq]

theorem sameLine.sampledFrame_eq : sampledFrame (ses.over rump run) (r.over buf) = sampledFrame ses r := by
  simp only [sampledFrame, Session.over_timing, Session.over_chan, Run.over_buf, Run.over_i, h.level_eq,
    h.sampleByte_eq]

theorem sameLine.nextRow_eq (g : Grain) : nextRow g (ses.over rump run) (r.over buf) = nextRow g ses r := by
  simp only [nextRow, h.selector_eq, h.sampledFrame_eq]

end

/-- The size test of a sized build sees the buffer only through its line (92 D6). -/
theorem sameLine.feedFits_eq {p : Params} {ses : Session} {rump c d : List SampleWord} (run : Option Run)
    (hrump : sameLine ses.chan ses.rump rump) (hc : sameLine ses.chan c d) :
    (ses.over rump run).feedFits p d = ses.feedFits p c := by
  have hbuf : sameLine ses.chan (ses.feedBuffer c) ((ses.over rump run).feedBuffer d) := hrump.append hc
  rw [Session.feedFits, Session.feedFits, ← hbuf.length_eq, Session.over_timing, Session.over_chan,
    Session.over_cursor, ← hbuf.feedLoop_eq]

/-! The operations on the state keep the sameness. -/

section
variable {s t : State}

theorem State.SameLine.cases (h : s.SameLine t) :
    (s.session = none ∧ t.session = none)
      ∨ ∃ x y, s.session = some x ∧ t.session = some y ∧ x.SameLine y := by
  obtain ⟨-, -, -, -, hses⟩ := h
  split at hses
  next hs ht => exact .inl ⟨hs, ht⟩
  next x y hs ht => exact .inr ⟨x, y, hs, ht, hses⟩
  next => exact hses.elim

theorem State.SameLine.params_eq (h : s.SameLine t) : s.params = t.params := h.1

theorem State.SameLine.grain_eq (h : s.SameLine t) : s.grain = t.grain := by
  obtain ⟨-, hg, -⟩ := h
  exact hg

theorem State.SameLine.inbox_eq (h : s.SameLine t) : s.inbox = t.inbox := by
  obtain ⟨-, -, hi, -⟩ := h
  exact hi

theorem State.SameLine.withInbox (h : s.SameLine t) (rest : List Command) :
    State.SameLine { s with inbox := rest } { t with inbox := rest } := by
  obtain ⟨hp, hg, -, ho, hses⟩ := h
  exact ⟨hp, hg, rfl, ho, hses⟩

theorem State.SameLine.deliver (h : s.SameLine t) (x : Reply) : (s.deliver x).SameLine (t.deliver x) := by
  obtain ⟨hp, hg, hi, ho, hses⟩ := h
  exact ⟨hp, hg, hi, congrArg (· ++ [x]) ho, hses⟩

theorem State.SameLine.closeSession (h : s.SameLine t) : s.closeSession.SameLine t.closeSession := by
  obtain ⟨hp, hg, hi, ho, -⟩ := h
  exact ⟨hp, hg, hi, ho, trivial⟩

theorem State.SameLine.openSession {x y : Session} (h : s.SameLine t) (hx : x.SameLine y) :
    (s.openSession x).SameLine (t.openSession y) := by
  obtain ⟨hp, hg, hi, ho, -⟩ := h
  exact ⟨hp, hg, hi, ho, hx⟩

variable {ses : Session} {r : Run} {rump buf : List SampleWord} {run : Option Run}

theorem State.SameLine.setRun (h : s.SameLine t) (hrump : sameLine ses.chan ses.rump rump)
    (hbuf : sameLine ses.chan r.buf buf) :
    (s.setRun ses r).SameLine (t.setRun (ses.over rump run) (r.over buf)) :=
  h.openSession (Session.sameLine_over_some (x := { ses with run := some r }) rfl hrump hbuf)

theorem State.SameLine.exitFeed (h : s.SameLine t) (hbuf : sameLine ses.chan r.buf buf) (j : Nat) :
    (s.exitFeed ses r j).SameLine (t.exitFeed (ses.over rump run) (r.over buf) j) :=
  (h.openSession (Session.sameLine_over_none (x := { ses with rump := r.buf.drop j, cursor := ses.cursor + j, run := none })
    rfl (hbuf.drop j))).deliver (.fed r.bytes r.ferrs)

/-! The tests of an operation lead to the same kind of answer. -/

theorem State.SameLine.feeding_eq (h : s.SameLine t) : s.feeding = t.feeding := by
  obtain ⟨hs, ht⟩ | ⟨x, y, hs, ht, hxy⟩ := h.cases
  · simp [State.feeding, hs, ht]
  · obtain ⟨rump, -, ⟨hx, rfl⟩ | ⟨r, buf, hx, -, rfl⟩⟩ := hxy.cases <;>
      simp [State.feeding, hs, ht, hx, Session.over]

/-- Where a FEED runs in the one state, it runs in the other over words that carry the same line. -/
theorem State.SameLine.of_runs (h : s.SameLine t) (hr : s.Runs ses r) :
    ∃ rump buf, sameLine ses.chan ses.rump rump ∧ sameLine ses.chan r.buf buf
      ∧ t.Runs (ses.over rump (some (r.over buf))) (r.over buf) := by
  obtain ⟨hs, hrun⟩ := hr
  obtain ⟨hs', -⟩ | ⟨x, y, hs', ht, hxy⟩ := h.cases
  · simp [hs] at hs'
  · obtain rfl : ses = x := Option.some.inj (hs.symm.trans hs')
    obtain ⟨rump, hrump, ⟨hx, -⟩ | ⟨r', buf, hx, hbuf, rfl⟩⟩ := hxy.cases
    · simp [hrun] at hx
    · obtain rfl : r = r' := Option.some.inj (hrun.symm.trans hx)
      exact ⟨rump, buf, hrump, hbuf, ht, rfl⟩

theorem onFeed_of_not_feeding (h : s.feeding = false) (k : Session → Run → Answer) :
    s.onFeed k = .fault .noValue := by
  cases hs : s.session with
  | none => simp [State.onFeed, hs]
  | some ses => simp [State.onFeed, hs, s.feeding_eq_false_iff.mp h ses hs]

theorem require_sameLine {c c' : Bool} {k k' : Answer} (hc : c = c') (hk : k.SameLine k') :
    (require c k).SameLine (require c' k') := by
  subst hc
  cases c
  · rfl
  · exact hk

theorem withRead_sameLine {α : Type} {v v' : Option α} {k k' : α → Answer} (hv : v = v')
    (hk : ∀ x, (k x).SameLine (k' x)) : (withRead v k).SameLine (withRead v' k') := by
  subst hv
  cases v with
  | none => rfl
  | some x => exact hk x

theorem requireLevel_sameLine {j : Nat} {high : Bool} {k k' : Answer} (hbuf : sameLine ses.chan r.buf buf)
    (hk : k.SameLine k') :
    (requireLevel ses r j high k).SameLine (requireLevel (ses.over rump run) (r.over buf) j high k') :=
  withRead_sameLine (hbuf.level_eq j) fun _ => require_sameLine rfl hk

theorem State.SameLine.betweenOperations {k k' : Answer} (h : s.SameLine t) (hk : k.SameLine k') :
    (s.betweenOperations k).SameLine (t.betweenOperations k') := by
  rw [State.betweenOperations, State.betweenOperations, ← h.feeding_eq]
  split
  · rfl
  · exact hk

theorem State.SameLine.onFeed {k k' : Session → Run → Answer} (h : s.SameLine t)
    (hk : ∀ ses r rump buf, sameLine ses.chan ses.rump rump → sameLine ses.chan r.buf buf →
      (k ses r).SameLine (k' (ses.over rump (some (r.over buf))) (r.over buf))) :
    (s.onFeed k).SameLine (t.onFeed k') := by
  cases hf : s.feeding with
  | false =>
    rw [onFeed_of_not_feeding hf, onFeed_of_not_feeding (h.feeding_eq ▸ hf)]
    rfl
  | true =>
    obtain ⟨ses, r, hr⟩ := s.feeding_iff_runs.mp hf
    obtain ⟨rump, buf, hrump, hbuf, ht⟩ := h.of_runs hr
    rw [onFeed_of_runs hr, onFeed_of_runs ht]
    exact hk ses r rump buf hrump hbuf

end

/-! Each row answers alike. -/

section
variable {s t : State}

theorem execBuild_sameLine (h : s.SameLine t) (sr br : Number) :
    Answer.SameLine (execBuild sr br s) (execBuild sr br t) := by
  rw [execBuild, execBuild, ← h.params_eq]
  split
  · exact h.deliver _
  · exact h.deliver _

theorem execIshigh_sameLine (h : s.SameLine t) (w : SampleWord) (ch : Nat) :
    Answer.SameLine (execIshigh w ch s) (execIshigh w ch t) := by
  rw [execIshigh, execIshigh, ← h.params_eq]
  split
  · exact h.deliver _
  · rfl

theorem execStart_sameLine (h : s.SameLine t) (tt : TimingTable) (ch : Nat) :
    Answer.SameLine (execStart tt ch s) (execStart tt ch t) := by
  refine h.betweenOperations ?_
  rw [← h.params_eq]
  split
  · exact (h.openSession (.refl _)).deliver _
  · exact h.closeSession.deliver _

theorem execFinish_sameLine (h : s.SameLine t) : Answer.SameLine (execFinish s) (execFinish t) := by
  refine h.betweenOperations ?_
  obtain ⟨hs, ht⟩ | ⟨x, y, hs, ht, -⟩ := h.cases
  · rw [hs, ht]
    exact h.deliver _
  · rw [hs, ht]
    exact h.closeSession.deliver _

/-- FEEDs of chunks that carry the same line form buffers that carry the same line (43_feed_decoder R161). -/
theorem execFeed_sameLine (h : s.SameLine t) {c d : List SampleWord}
    (hc : ∀ ses, s.session = some ses → sameLine ses.chan c d) :
    Answer.SameLine (execFeed c s) (execFeed d t) := by
  refine h.betweenOperations ?_
  obtain ⟨hs, ht⟩ | ⟨x, y, hs, ht, hxy⟩ := h.cases
  · simp only [State.inSession, hs, ht]
    exact h.deliver _
  · obtain ⟨rump, run, hrump, rfl⟩ : ∃ rump run, sameLine x.chan x.rump rump ∧ y = x.over rump run := by
      obtain ⟨rump, hrump, ⟨-, rfl⟩ | ⟨r, buf, -, -, rfl⟩⟩ := hxy.cases <;> exact ⟨rump, _, hrump, rfl⟩
    simp only [State.inSession, hs, ht]
    rw [hrump.feedFits_eq run (hc x hs), ← h.params_eq]
    split
    · exact h.openSession (Session.sameLine_over_some (x := x.enterFeed c) rfl hrump (hrump.append (hc x hs)))
    · rfl

theorem execScanSkip_sameLine (h : s.SameLine t) : Answer.SameLine (execScanSkip s) (execScanSkip t) :=
  h.onFeed fun _ r _ _ hrump hbuf =>
    require_sameLine (by simp [hbuf.inBound_eq]) <| requireLevel_sameLine hbuf <|
      h.setRun (r := { r with i := r.i + 1 }) hrump hbuf

theorem execScanStart_sameLine (h : s.SameLine t) : Answer.SameLine (execScanStart s) (execScanStart t) :=
  h.onFeed fun _ r _ _ hrump hbuf =>
    require_sameLine (by simp [hbuf.inBound_eq]) <| requireLevel_sameLine hbuf <|
      h.setRun (r := { r with phase := .sample }) hrump hbuf

theorem execScanExit_sameLine (h : s.SameLine t) : Answer.SameLine (execScanExit s) (execScanExit t) :=
  h.onFeed fun _ r _ _ _ hbuf => require_sameLine (by simp [hbuf.inBound_eq]) (h.exitFeed hbuf r.i)

theorem execSample_sameLine (h : s.SameLine t) : Answer.SameLine (execSample s) (execSample t) :=
  h.onFeed fun ses r _ _ hrump hbuf =>
    require_sameLine rfl <| withRead_sameLine (hbuf.sampleByte_eq ses.timing r.i) fun b =>
      h.setRun (r := { r with phase := .stopchk b }) hrump hbuf

theorem execStopchkOk_sameLine (h : s.SameLine t) : Answer.SameLine (execStopchkOk s) (execStopchkOk t) := by
  refine h.onFeed fun ses r rump buf hrump hbuf => ?_
  rw [Run.over_phase]
  split
  next b _ =>
    exact requireLevel_sameLine hbuf <| h.setRun (r := r.keepByte b (r.i + ses.timing.stop)) hrump hbuf
  next => rfl

theorem execStopchkErr_sameLine (h : s.SameLine t) : Answer.SameLine (execStopchkErr s) (execStopchkErr t) := by
  refine h.onFeed fun ses r rump buf hrump hbuf => ?_
  rw [Run.over_phase]
  split
  next b _ =>
    exact requireLevel_sameLine hbuf <|
      h.setRun (r := r.takeFramingError ses.cursor b (r.i + ses.timing.stop)) hrump hbuf
  next => rfl

theorem execResyncHold_sameLine (h : s.SameLine t) : Answer.SameLine (execResyncHold s) (execResyncHold t) := by
  refine h.onFeed fun ses r rump buf hrump hbuf => ?_
  rw [Run.over_phase]
  split
  next =>
    exact require_sameLine (hbuf.inBound_eq _ _) <| requireLevel_sameLine hbuf <|
      h.setRun (r := { r with i := r.i + 1 }) hrump hbuf
  next => rfl

theorem execResyncDone_sameLine (h : s.SameLine t) : Answer.SameLine (execResyncDone s) (execResyncDone t) := by
  refine h.onFeed fun ses r rump buf hrump hbuf => ?_
  rw [Run.over_phase]
  split
  next b _ =>
    exact require_sameLine (hbuf.inBound_eq _ _) <| requireLevel_sameLine hbuf <|
      h.setRun (r := r.returnFromFramingError b (r.i + 1)) hrump hbuf
  next => rfl

theorem execResyncExit_sameLine (h : s.SameLine t) : Answer.SameLine (execResyncExit s) (execResyncExit t) := by
  refine h.onFeed fun ses r rump buf hrump hbuf => ?_
  rw [Run.over_phase]
  split
  next => exact require_sameLine (congrArg (!·) (hbuf.inBound_eq _ _)) (h.exitFeed hbuf (r.i + 1))
  next => rfl

/-- A frame row finds the same ten levels on the same line. -/
theorem State.SameLine.onFrame {levels : BitVec 10} {k k' : Session → Run → Answer} (h : s.SameLine t)
    (hk : ∀ ses r rump buf, sameLine ses.chan ses.rump rump → sameLine ses.chan r.buf buf →
      (k ses r).SameLine (k' (ses.over rump (some (r.over buf))) (r.over buf))) :
    (Machine.onFrame s levels k).SameLine (Machine.onFrame t levels k') :=
  h.onFeed fun ses r rump buf hrump hbuf =>
    require_sameLine (by simp [hbuf.inBound_eq]) <| withRead_sameLine hbuf.sampledFrame_eq.symm fun _ =>
      require_sameLine rfl (hk ses r rump buf hrump hbuf)

theorem execFrameOk_sameLine (h : s.SameLine t) (b : Byte) :
    Answer.SameLine (execFrameOk b s) (execFrameOk b t) :=
  h.onFrame fun ses r _ _ hrump hbuf => h.setRun (r := r.keepByte b (r.i + ses.timing.stop)) hrump hbuf

theorem execFrameErr_sameLine (h : s.SameLine t) (b : Byte) :
    Answer.SameLine (execFrameErr b s) (execFrameErr b t) :=
  h.onFrame fun ses r _ _ hrump hbuf =>
    h.setRun (r := r.takeFramingError ses.cursor b (r.i + ses.timing.stop)) hrump hbuf

theorem exec_sameLine (h : s.SameLine t) (i : Instr) : Answer.SameLine (exec i s) (exec i t) := by
  cases i with
  | build sr br => exact execBuild_sameLine h sr br
  | ishigh w ch => exact execIshigh_sameLine h w ch
  | start tt ch => exact execStart_sameLine h tt ch
  | feed chunk => exact execFeed_sameLine h fun ses _ => .refl ses.chan chunk
  | finish => exact execFinish_sameLine h
  | scanSkip => exact execScanSkip_sameLine h
  | scanStart => exact execScanStart_sameLine h
  | scanExit => exact execScanExit_sameLine h
  | sample => exact execSample_sameLine h
  | stopchkOk => exact execStopchkOk_sameLine h
  | stopchkErr => exact execStopchkErr_sameLine h
  | resyncHold => exact execResyncHold_sameLine h
  | resyncDone => exact execResyncDone_sameLine h
  | resyncExit => exact execResyncExit_sameLine h
  | frameOk b => exact execFrameOk_sameLine h b
  | frameErr b => exact execFrameErr_sameLine h b

/-! The step. -/

/-- Two fetches find the same to do, an instruction in states on the same line. -/
inductive Fetched.SameLine : Fetched → Fetched → Prop
  | idle : SameLine .idle .idle
  | instr (i : Instr) {u v : State} : u.SameLine v → SameLine (.instr i u) (.instr i v)
  | refused (q : Refusal) : SameLine (.refused q) (.refused q)
  | fault (f : Fault) : SameLine (.fault f) (.fault f)

theorem fetchCommand_sameLine (h : s.SameLine t) (c : Command) (rest : List Command) :
    (fetchCommand s c rest).SameLine (fetchCommand t c rest) := by
  unfold fetchCommand
  cases decode (.cmd c) with
  | error e => cases e <;> exact .refused _
  | ok i =>
    have hw : i.wellFormed t.params = i.wellFormed s.params := by rw [h.params_eq]
    simp only [hw]
    split
    · exact .instr i (h.withInbox rest)
    · exact .refused _

theorem fetchInbox_sameLine (h : s.SameLine t) : (fetchInbox s).SameLine (fetchInbox t) := by
  rw [fetchInbox, fetchInbox, ← h.inbox_eq]
  cases s.inbox with
  | nil => exact .idle
  | cons c rest => exact fetchCommand_sameLine h c rest

theorem fetchRow_sameLine (h : s.SameLine t) (row : Option Encoded) :
    (fetchRow s row).SameLine (fetchRow t row) := by
  cases row with
  | none => exact .fault _
  | some e =>
    simp only [fetchRow]
    split
    · exact .instr _ h
    · exact .refused _

theorem State.SameLine.fetch (h : s.SameLine t) : s.fetch.SameLine t.fetch := by
  cases hf : s.feeding with
  | false =>
    rw [fetch_of_not_feeding hf, fetch_of_not_feeding (h.feeding_eq ▸ hf)]
    exact fetchInbox_sameLine h
  | true =>
    obtain ⟨ses, r, hr⟩ := s.feeding_iff_runs.mp hf
    obtain ⟨rump, buf, -, hbuf, ht⟩ := h.of_runs hr
    rw [fetch_of_runs hr, fetch_of_runs ht, hbuf.nextRow_eq, ← h.grain_eq]
    exact fetchRow_sameLine h _

theorem step_sameLine (h : s.SameLine t) : Answer.SameLine (step s) (step t) := by
  have hf := h.fetch
  rw [step, step]
  generalize s.fetch = a, t.fetch = b at hf
  cases hf with
  | idle => exact h
  | instr i huv => exact exec_sameLine huv i
  | refused q => rfl
  | fault f => rfl

end

/-- Settles O52: `exec` of every row answers alike on states on the same line, the step fetches the same row there, and
FEED forms buffers on the same line. -/
theorem otherChannelsDoNotMatter : Obligations.OtherChannelsDoNotMatter :=
  ⟨fun _ _ h => step_sameLine h, fun _ _ _ _ h hc => execFeed_sameLine h hc⟩

end Sys2Proof.Machine
end

section
/-! PROOFS. The loop of FEED as a relation (43_feed_decoder R173), without fuel: a proof about the outputs of a FEED is
an induction over the turns it makes. -/

namespace Sys2Proof.Machine

/-- The loop over `buf`, at index `i` with the outputs so far, leaves at `e`. -/
inductive Scans (t : TimingTable) (ch cursor : Nat) (buf : List SampleWord) :
    Nat → List Byte → List Nat → FeedEnd → Prop
  | exit {i bytes ferrs} (hb : inBound t buf i = false) : Scans t ch cursor buf i bytes ferrs ⟨i, bytes, ferrs, false⟩
  | skip {i bytes ferrs e} (hb : inBound t buf i = true) (hl : level ch buf i = some true)
      (hnext : Scans t ch cursor buf (i + 1) bytes ferrs e) : Scans t ch cursor buf i bytes ferrs e
  | valid {i bytes ferrs e} (byte : Byte) (hb : inBound t buf i = true) (hl : level ch buf i = some false)
      (hbyte : sampleByte t ch buf i = some byte) (hstop : level ch buf (i + t.stop) = some true)
      (hnext : Scans t ch cursor buf (i + t.stop) (bytes ++ [byte]) ferrs e) : Scans t ch cursor buf i bytes ferrs e
  | done {i bytes ferrs e} (byte : Byte) (j : Nat) (hb : inBound t buf i = true) (hl : level ch buf i = some false)
      (hbyte : sampleByte t ch buf i = some byte) (hstop : level ch buf (i + t.stop) = some false)
      (hend : resyncLoop t ch buf (buf.length + 1) (i + t.stop) = some (.kept j))
      (hnext : Scans t ch cursor buf j (bytes ++ [byte]) (ferrs ++ [cursor + (i + t.stop)]) e) :
      Scans t ch cursor buf i bytes ferrs e
  | resyncExit {i bytes ferrs} (byte : Byte) (j : Nat) (hb : inBound t buf i = true) (hl : level ch buf i = some false)
      (hbyte : sampleByte t ch buf i = some byte) (hstop : level ch buf (i + t.stop) = some false)
      (hend : resyncLoop t ch buf (buf.length + 1) (i + t.stop) = some (.exhausted j)) :
      Scans t ch cursor buf i bytes ferrs ⟨j, bytes, ferrs ++ [cursor + (i + t.stop)], true⟩

section
variable {t : TimingTable} {ch cursor : Nat} {buf : List SampleWord}

theorem scans_of_scanLoop {e : FeedEnd} : ∀ {fuel i bytes ferrs},
    scanLoop t ch cursor buf fuel i bytes ferrs = some e → Scans t ch cursor buf i bytes ferrs e := by
  intro fuel
  induction fuel with
  | zero => intro i bytes ferrs h; simp [scanLoop] at h
  | succ fuel ih =>
    intro i bytes ferrs h
    unfold scanLoop at h
    split at h
    next hb =>
      split at h
      next => cases h
      next hl => exact .skip hb hl (ih h)
      next hl =>
        split at h
        next byte hbyte hstop => exact .valid byte hb hl hbyte hstop (ih h)
        next byte hbyte hstop =>
          split at h
          next j hend => exact .done byte j hb hl hbyte hstop hend (ih h)
          next j hend => cases h; exact .resyncExit byte j hb hl hbyte hstop hend
          next => cases h
        next => cases h
    next hb => cases h; exact .exit ((Bool.not_eq_true _).mp hb)

theorem Scans.exists_scanLoop {i : Nat} {bytes : List Byte} {ferrs : List Nat} {e : FeedEnd}
    (h : Scans t ch cursor buf i bytes ferrs e) : ∃ fuel, scanLoop t ch cursor buf fuel i bytes ferrs = some e := by
  induction h with
  | exit hb => exact ⟨1, by simp [scanLoop, hb]⟩
  | skip hb hl _ ih =>
    obtain ⟨fuel, ih⟩ := ih
    exact ⟨fuel + 1, by simp only [scanLoop, hb, hl, ih, if_true]⟩
  | valid byte hb hl hbyte hstop _ ih =>
    obtain ⟨fuel, ih⟩ := ih
    exact ⟨fuel + 1, by simp only [scanLoop, hb, hl, hbyte, hstop, ih, if_true]⟩
  | done byte j hb hl hbyte hstop hend _ ih =>
    obtain ⟨fuel, ih⟩ := ih
    exact ⟨fuel + 1, by simp only [scanLoop, hb, hl, hbyte, hstop, hend, ih, if_true]⟩
  | resyncExit byte j hb hl hbyte hstop hend =>
    exact ⟨1, by simp only [scanLoop, hb, hl, hbyte, hstop, hend, if_true]⟩

/-- The loop is a function of where it stands. -/
theorem Scans.unique {i : Nat} {bytes : List Byte} {ferrs : List Nat} {e e' : FeedEnd}
    (h : Scans t ch cursor buf i bytes ferrs e) (h' : Scans t ch cursor buf i bytes ferrs e') : e = e' := by
  obtain ⟨fuel, he⟩ := h.exists_scanLoop
  obtain ⟨fuel', he'⟩ := h'.exists_scanLoop
  exact Option.some.inj ((scanLoop_mono he (le_max_left _ fuel')).symm.trans (scanLoop_mono he' (le_max_right fuel _)))

theorem scans_of_feedLoop {e : FeedEnd} (h : feedLoop t ch cursor buf = some e) : Scans t ch cursor buf 0 [] [] e :=
  scans_of_scanLoop h

/-- RESYNC keeps the byte at a later index only. -/
theorem lt_of_resyncLoop_kept {j : Nat} : ∀ {fuel i}, resyncLoop t ch buf fuel i = some (.kept j) → i < j := by
  intro fuel
  induction fuel with
  | zero => intro i h; simp [resyncLoop] at h
  | succ fuel ih =>
    intro i h
    unfold resyncLoop at h
    split at h
    · split at h
      · cases h
      · cases h; exact Nat.lt_succ_self i
      · have := ih h; omega
    · cases h

end

/-! The events of a FEED (20_memory R57). -/

/-- The events stay in order and their number within that of the bytes through every turn of the loop; only the event
of RESYNC.EXIT goes without a byte (43_feed_decoder R183). -/
theorem Scans.events {ses : Session} {buf : List SampleWord} {i : Nat} {bytes : List Byte} {ferrs : List Nat}
    {e : FeedEnd} (h : Scans ses.timing ses.chan ses.cursor buf i bytes ferrs e)
    (hev : Run.EventsOk ses ⟨buf, .scan, i, bytes, ferrs⟩) :
    e.ferrs.Pairwise (· < ·) ∧ (∀ a ∈ e.ferrs, ses.cursor ≤ a)
      ∧ e.ferrs.length ≤ e.bytes.length + (if e.resyncExit then 1 else 0) := by
  induction h with
  | exit hb =>
    obtain ⟨hsorted, hrange, hcount⟩ := hev
    exact ⟨hsorted, fun a ha => (hrange a ha).1, hcount⟩
  | skip hb hl _ ih => exact ih (hev.of_ferrs_eq rfl (Nat.le_succ _) le_rfl)
  | valid byte hb hl hbyte hstop _ ih =>
    exact ih (hev.of_ferrs_eq rfl (Nat.le_add_right _ _) (by simp))
  | done byte j hb hl hbyte hstop hend _ ih =>
    have hj := lt_of_resyncLoop_kept hend
    refine ih ((hev.takeFramingError (b := byte) rfl (Nat.le_add_right _ _)).of_ferrs_eq rfl ?_ ?_)
    · simpa [Phase.isResync] using hj
    · simp [Phase.isResync]
  | resyncExit byte j hb hl hbyte hstop hend =>
    obtain ⟨hsorted, hrange, hcount⟩ := hev.takeFramingError (b := byte) rfl (Nat.le_add_right _ _)
    exact ⟨hsorted, fun a ha => (hrange a ha).1, hcount⟩

/-- Settles O48: the loop starts with no event, and each event is at the absolute index of a word of BUF. -/
theorem eventsAreOrdered : Obligations.EventsAreOrdered := by
  intro p ses chunk o _ h
  obtain ⟨-, e, he, rfl⟩ := feedWhole_eq_next.mp h
  obtain ⟨hsorted, hlower, hcount⟩ := (scans_of_feedLoop he).events ⟨.nil, by simp, le_rfl⟩
  refine ⟨by simpa [Outputs.ferrs] using hsorted, fun a ha => ?_, ?_⟩
  · have ha : a ∈ e.ferrs := by simpa [Outputs.ferrs] using ha
    obtain ⟨j, hj, rfl⟩ := mem_ferrs_of_feedLoop he ha
    exact ⟨hlower _ ha, Nat.add_lt_add_left hj _⟩
  · simpa [Outputs.ferrs, Outputs.bytes, Outputs.resyncExits] using hcount

end Sys2Proof.Machine
end

section
/-! PROOFS. How a session may cut its timeline (20_memory R67): the FEEDs of a session against one loop over all the
words fed. -/

namespace Sys2Proof.Machine

section
variable {t : TimingTable} {ch cursor : Nat} {buf : List SampleWord}

/-! Words fed later are not read by a turn that stays in bounds. -/

theorem inBound_append {j : Nat} (more : List SampleWord) (h : inBound t buf j = true) :
    inBound t (buf ++ more) j = true := by
  rw [inBound_iff] at *
  rw [List.length_append]
  omega

theorem level_append {j : Nat} {l : Bool} (more : List SampleWord) (h : level ch buf j = some l) :
    level ch (buf ++ more) j = some l := by
  rw [← h]
  simp only [level, memRead, List.getElem?_append_left (lt_of_level h)]

theorem sampleByte_append {i : Nat} {b : Byte} (more : List SampleWord) (h : sampleByte t ch buf i = some b) :
    sampleByte t ch (buf ++ more) i = some b := by
  rw [sampleByte_eq_some_iff] at *
  obtain ⟨l, hl, hb⟩ := h
  exact ⟨l, fun k => level_append more (hl k), hb⟩

theorem resyncLoop_append {j : Nat} (more : List SampleWord) : ∀ {fuel i},
    resyncLoop t ch buf fuel i = some (.kept j) → resyncLoop t ch (buf ++ more) fuel i = some (.kept j) := by
  intro fuel
  induction fuel with
  | zero => intro i h; simp [resyncLoop] at h
  | succ fuel ih =>
    intro i h
    unfold resyncLoop at h ⊢
    split at h
    next hb =>
      rw [if_pos (inBound_append more hb)]
      split at h
      next => cases h
      next hl => rw [level_append more hl]; exact h
      next hl => rw [level_append more hl]; exact ih h
    next => cases h

/-- A loop that leaves through SCAN.EXIT stands where the loop over a longer timeline goes on (43_feed_decoder R165). -/
theorem Scans.append {i : Nat} {bytes : List Byte} {ferrs : List Nat} {more : List SampleWord} {e e' : FeedEnd}
    (h : Scans t ch cursor buf i bytes ferrs e) (he : e.resyncExit = false)
    (h' : Scans t ch cursor (buf ++ more) e.i e.bytes e.ferrs e') :
    Scans t ch cursor (buf ++ more) i bytes ferrs e' := by
  induction h with
  | exit hb => exact h'
  | skip hb hl _ ih => exact .skip (inBound_append more hb) (level_append more hl) (ih he h')
  | valid byte hb hl hbyte hstop _ ih =>
    exact .valid byte (inBound_append more hb) (level_append more hl) (sampleByte_append more hbyte)
      (level_append more hstop) (ih he h')
  | done byte j hb hl hbyte hstop hend _ ih =>
    have hend' := resyncLoop_mono (resyncLoop_append more hend)
      (show buf.length + 1 ≤ (buf ++ more).length + 1 by rw [List.length_append]; omega)
    exact .done byte j (inBound_append more hb) (level_append more hl) (sampleByte_append more hbyte)
      (level_append more hstop) hend' (ih he h')
  | resyncExit byte j hb hl hbyte hstop hend => cases he

/-! Words already consumed only shift the indices. -/

theorem inBound_shift (pre : List SampleWord) (j : Nat) : inBound t (pre ++ buf) (pre.length + j) = inBound t buf j := by
  simp [inBound, Nat.add_assoc]

theorem level_shift (pre : List SampleWord) (j : Nat) : level ch (pre ++ buf) (pre.length + j) = level ch buf j := by
  rw [level, memRead, List.getElem?_append_right (Nat.le_add_right _ _), Nat.add_sub_cancel_left]; rfl

theorem sampleByte_shift (pre : List SampleWord) (i : Nat) :
    sampleByte t ch (pre ++ buf) (pre.length + i) = sampleByte t ch buf i := by
  simp only [sampleByte, Nat.add_assoc, level_shift]

/-- The end of RESYNC, `d` words later. -/
def ResyncEnd.shift (d : Nat) : ResyncEnd → ResyncEnd
  | .kept j => .kept (d + j)
  | .exhausted j => .exhausted (d + j)

theorem resyncLoop_shift (pre : List SampleWord) : ∀ fuel i,
    resyncLoop t ch (pre ++ buf) fuel (pre.length + i) = (resyncLoop t ch buf fuel i).map (.shift pre.length) := by
  intro fuel
  induction fuel with
  | zero => intro i; rfl
  | succ fuel ih =>
    intro i
    simp only [resyncLoop, Nat.add_assoc, inBound_shift, level_shift, ih]
    split
    · split <;> rfl
    · rfl

/-- The loop over the rest of a timeline, at the CURSOR the consumed words `pre` leave, makes the turns of the loop over
the whole of it; the outputs before it stay in front. -/
theorem Scans.shift {pre : List SampleWord} {i : Nat} {bytes : List Byte} {ferrs : List Nat} {e : FeedEnd}
    (h : Scans t ch (cursor + pre.length) buf i bytes ferrs e) (bytes₀ : List Byte) (ferrs₀ : List Nat) :
    Scans t ch cursor (pre ++ buf) (pre.length + i) (bytes₀ ++ bytes) (ferrs₀ ++ ferrs)
      ⟨pre.length + e.i, bytes₀ ++ e.bytes, ferrs₀ ++ e.ferrs, e.resyncExit⟩ := by
  have fuel_le : buf.length + 1 ≤ (pre ++ buf).length + 1 := by rw [List.length_append]; omega
  have resync {i : Nat} {x : ResyncEnd} (hend : resyncLoop t ch buf (buf.length + 1) (i + t.stop) = some x) :
      resyncLoop t ch (pre ++ buf) ((pre ++ buf).length + 1) (pre.length + i + t.stop) = some (x.shift pre.length) :=
    resyncLoop_mono (by rw [Nat.add_assoc, resyncLoop_shift, hend]; rfl) fuel_le
  induction h with
  | exit hb => exact .exit (by rwa [inBound_shift])
  | skip hb hl _ ih => exact .skip (by rwa [inBound_shift]) (by rwa [level_shift]) ih
  | valid byte hb hl hbyte hstop _ ih =>
    refine .valid byte (by rwa [inBound_shift]) (by rwa [level_shift]) (by rwa [sampleByte_shift])
      (by rwa [Nat.add_assoc, level_shift]) ?_
    simpa only [Nat.add_assoc, List.append_assoc] using ih
  | done byte j hb hl hbyte hstop hend _ ih =>
    refine .done byte (pre.length + j) (by rwa [inBound_shift]) (by rwa [level_shift]) (by rwa [sampleByte_shift])
      (by rwa [Nat.add_assoc, level_shift]) (resync hend) ?_
    simpa only [Nat.add_assoc, List.append_assoc] using ih
  | @resyncExit i bytes ferrs byte j hb hl hbyte hstop hend =>
    have := Scans.resyncExit (cursor := cursor) (bytes := bytes₀ ++ bytes) (ferrs := ferrs₀ ++ ferrs) byte
      (pre.length + j) (by rwa [inBound_shift]) (by rwa [level_shift]) (by rwa [sampleByte_shift])
      (by rwa [Nat.add_assoc, level_shift]) (resync hend)
    simpa only [Nat.add_assoc, List.append_assoc] using this

/-- What a FEED and the next one leave with, as one. -/
def FeedEnd.followedBy (e e' : FeedEnd) : FeedEnd :=
  ⟨e.i + e'.i, e.bytes ++ e'.bytes, e.ferrs ++ e'.ferrs, e'.resyncExit⟩

/-- A FEED that leaves through SCAN.EXIT and the next one, over the RUMP it saves, make the turns of one loop. -/
theorem Scans.followedBy {more : List SampleWord} {e e' : FeedEnd} (h : Scans t ch cursor buf 0 [] [] e)
    (he : e.resyncExit = false) (hi : e.i ≤ buf.length)
    (h' : Scans t ch (cursor + e.i) (buf.drop e.i ++ more) 0 [] [] e') :
    Scans t ch cursor (buf ++ more) 0 [] [] (e.followedBy e') := by
  have hlen : (buf.take e.i).length = e.i := List.length_take_of_le hi
  refine h.append he ?_
  rw [← hlen] at h'
  have hshift := h'.shift e.bytes e.ferrs
  rwa [← List.append_assoc, hlen, List.take_append_drop, Nat.add_zero, List.append_nil, List.append_nil] at hshift

end

theorem Session.after_after {ses : Session} {buf more : List SampleWord} {e e' : FeedEnd} (hi : e.i ≤ buf.length) :
    (ses.after buf e).after (buf.drop e.i ++ more) e' = ses.after (buf ++ more) (e.followedBy e') := by
  rw [← List.drop_append_of_le_length hi]
  simp [Session.after, FeedEnd.followedBy, Nat.add_assoc]

/-! A session as one loop over its timeline (20_memory R67). -/

/-- A FEED leaves fewer than SPARE words (43_feed_decoder R176). -/
theorem length_drop_lt_spare {t : TimingTable} {buf : List SampleWord} {i : Nat} (hi : i ≤ buf.length)
    (h : inBound t buf i = false) : (buf.drop i).length < t.spare := by
  have := (not_inBound_iff _ _ _).mp h
  rw [List.length_drop]
  omega

theorem feedAll_feeds_length {p : Params} {chunks : List (List SampleWord)} : ∀ {ses : Session} {o : Outputs},
    feedAll p ses chunks = .next o → o.feeds.length = chunks.length := by
  induction chunks with
  | nil => intro ses o h; cases h; rfl
  | cons chunk chunks ih =>
    intro ses o h
    obtain ⟨a, b, ha, hb, rfl⟩ := feedAll_cons_eq_next.mp h
    obtain ⟨-, e, -, rfl⟩ := feedWhole_eq_next.mp ha
    simp [ih hb]

/-- With RUMP shorter than SPARE and no FEED but the last leaving through RESYNC.EXIT, the FEEDs of a session do what one
loop over RUMP and all their chunks does. -/
theorem feedAll_scans_timeline {p : Params} {chunks : List (List SampleWord)} : ∀ {ses : Session} {o : Outputs},
    ses.timing.wellFormed = true → ses.rump.length < ses.timing.spare → ses.run = none →
    feedAll p ses chunks = .next o → (∀ x ∈ o.resyncExits.dropLast, x = false) →
    ∃ e, Scans ses.timing ses.chan ses.cursor (ses.rump ++ chunks.flatten) 0 [] [] e
      ∧ o.bytes = e.bytes ∧ o.ferrs = e.ferrs ∧ o.session = ses.after (ses.rump ++ chunks.flatten) e := by
  induction chunks with
  | nil =>
    intro ses o _ hshort hrun h _
    obtain rfl := Host.Outcome.next.inj h
    refine ⟨_, .exit ((not_inBound_iff _ _ _).mpr (by simpa using hshort)), rfl, rfl, ?_⟩
    simp [Session.after, ← hrun]
  | cons chunk chunks ih =>
    intro ses o hw hshort hrun h hexits
    obtain ⟨a, b, ha, hb, rfl⟩ := feedAll_cons_eq_next.mp h
    obtain ⟨-, e, he, rfl⟩ := feedWhole_eq_next.mp ha
    obtain ⟨e₁, he₁, hi, hout⟩ := feedLoop_total (ch := ses.chan) (cursor := ses.cursor) (buf := ses.feedBuffer chunk) hw
    obtain rfl : e₁ = e := Option.some.inj (he₁.symm.trans he)
    cases chunks with
    | nil =>
      obtain rfl := Host.Outcome.next.inj hb
      rw [List.flatten_singleton]
      exact ⟨e₁, scans_of_feedLoop he, by simp [Outputs.bytes], by simp [Outputs.ferrs], rfl⟩
    | cons chunk' chunks =>
      have hne : b.resyncExits ≠ [] := by
        simp [Outputs.resyncExits, ← List.length_eq_zero_iff, feedAll_feeds_length hb]
      have hcons : (e₁.resyncExit :: b.resyncExits).dropLast = e₁.resyncExit :: b.resyncExits.dropLast :=
        List.dropLast_cons_of_ne_nil hne
      obtain ⟨hexit, hexits⟩ := List.forall_mem_cons.mp (hcons ▸ hexits)
      obtain ⟨e', hscans, hbytes, hferrs, hsession⟩ := ih (ses := ses.after (ses.feedBuffer chunk) e₁) hw
        (length_drop_lt_spare hi hout) rfl hb hexits
      rw [List.flatten_cons, ← List.append_assoc]
      refine ⟨e₁.followedBy e', (scans_of_feedLoop he).followedBy hexit hi hscans, ?_, ?_, ?_⟩
      · simpa [Outputs.bytes, FeedEnd.followedBy] using hbytes
      · simpa [Outputs.ferrs, FeedEnd.followedBy] using hferrs
      · exact hsession.trans (Session.after_after hi)

/-- Settles O51: either session does what the one loop over the timeline does, and that loop is a function. -/
theorem chunkBoundariesDoNotMatter : Obligations.ChunkBoundariesDoNotMatter := by
  intro p t ch cs ds a b hw hflat ha hb hexitsA hexitsB
  have hspare : ([] : List SampleWord).length < t.spare := Nat.zero_lt_of_lt ((TimingTable.wellFormed_iff t).mp hw).2
  obtain ⟨e, he, hbytesA, hferrsA, hsesA⟩ := feedAll_scans_timeline (ses := .fresh t ch) hw hspare rfl ha hexitsA
  obtain ⟨e', he', hbytesB, hferrsB, hsesB⟩ := feedAll_scans_timeline (ses := .fresh t ch) hw hspare rfl hb hexitsB
  rw [hflat] at he hsesA
  obtain rfl := he.unique he'
  exact ⟨hbytesA.trans hbytesB.symm, hferrsA.trans hferrsB.symm, hsesA.trans hsesB.symm⟩

end Sys2Proof.Machine
end

section
/-! PROOFS. The session registers are latched (20_memory R65, 10_state R24): what each row can do to the table, the
channel, CURSOR and the session itself. -/

namespace Sys2Proof.Machine

/-- `t` has a session with the table and channel of `a` and no smaller CURSOR. -/
def Session.LatchedIn (a : Session) (t : State) : Prop :=
  ∃ b, t.session = some b ∧ b.timing = a.timing ∧ b.chan = a.chan ∧ a.cursor ≤ b.cursor

section
variable {s t : State} {a : Session} {i : Instr}

theorem Session.latchedIn_of_session_eq (h : t.session = some a) : a.LatchedIn t := ⟨a, h, rfl, rfl, le_rfl⟩

/-- At an exit CURSOR grows by the final `I` (43_feed_decoder R172). -/
theorem Session.latchedIn_exitFeed (s : State) (a : Session) (r : Run) (j : Nat) : a.LatchedIn (s.exitFeed a r j) :=
  ⟨_, State.exitFeed_session s a r j, rfl, rfl, Nat.le_add_right _ _⟩

/-- A row of a running FEED that is no exit leaves CURSOR as it is. -/
theorem RowFrame.latchedIn (h : RowFrame i s t) (hi : ¬(i = .scanExit ∨ i = .resyncExit)) (ha : s.session = some a) :
    a.LatchedIn t := by
  obtain ⟨-, -, -, ses, r, ⟨hses, -⟩, b, hb, htiming, hchan, hrest⟩ := h
  rw [if_neg hi] at hrest
  obtain ⟨-, hcursor, -⟩ := hrest
  obtain rfl : ses = a := Option.some.inj (hses.symm.trans ha)
  exact ⟨b, hb, htiming, hchan, hcursor.ge⟩

/-- Every row but START and FINISH keeps the session latched. -/
theorem exec_latches (ha : s.session = some a) (h : exec i s = .next t) :
    a.LatchedIn t ∨ s.feeding = false ∧ ((∃ tt ch, i = .start tt ch) ∨ (i = .finish ∧ t.session = none)) := by
  cases i with
  | build sr br =>
    obtain ⟨x, rfl⟩ := eq_deliver_of_execBuild h
    exact .inl (Session.latchedIn_of_session_eq ha)
  | ishigh w ch =>
    obtain ⟨-, rfl⟩ := execIshigh_eq_next.mp h
    exact .inl (Session.latchedIn_of_session_eq ha)
  | start tt ch => exact .inr ⟨(execStart_eq_next.mp h).1, .inl ⟨tt, ch, rfl⟩⟩
  | feed chunk =>
    obtain ⟨-, ⟨hnone, -⟩ | ⟨ses, hses, -, rfl⟩⟩ := execFeed_eq_next.mp h
    · simp [ha] at hnone
    · obtain rfl : ses = a := Option.some.inj (hses.symm.trans ha)
      exact .inl ⟨_, State.openSession_session _ _, rfl, rfl, le_rfl⟩
  | finish =>
    obtain ⟨hidle, ⟨hnone, -⟩ | ⟨-, rfl⟩⟩ := execFinish_eq_next.mp h
    · simp [ha] at hnone
    · exact .inr ⟨hidle, .inr ⟨rfl, rfl⟩⟩
  | scanExit =>
    obtain ⟨ses, r, ⟨hses, -⟩, -, -, rfl⟩ := execScanExit_eq_next.mp h
    obtain rfl : ses = a := Option.some.inj (hses.symm.trans ha)
    exact .inl (Session.latchedIn_exitFeed s ses r _)
  | resyncExit =>
    obtain ⟨ses, r, b, ⟨hses, -⟩, -, -, rfl⟩ := execResyncExit_eq_next.mp h
    obtain rfl : ses = a := Option.some.inj (hses.symm.trans ha)
    exact .inl (Session.latchedIn_exitFeed s ses r _)
  | _ =>
    have hframe := microStepFrame _ s t (by simp) h
    exact .inl (RowFrame.latchedIn hframe (by simp) ha)

end

/-- Settles O26: an idle step keeps the state, and every other step is one row, issued or of the running FEED. -/
theorem sessionIsLatched : Obligations.SessionIsLatched := by
  intro s t a h ha
  obtain ⟨-, -, rfl⟩ | ⟨hidle, c, rest, i, hinbox, hdecode, -, hexec⟩ | ⟨ses, r, e, i, hr, -, -, hexec⟩ :=
    step_next_cases h
  · exact .inl (Session.latchedIn_of_session_eq ha)
  · obtain hlatched | ⟨-, htaken⟩ := exec_latches (s := { s with inbox := rest }) ha hexec
    · exact .inl hlatched
    · refine .inr ⟨hidle, c, rest, hinbox, ?_⟩
      obtain ⟨tt, ch, rfl⟩ | ⟨rfl, hnone⟩ := htaken
      · exact .inl ⟨tt, ch, hdecode⟩
      · exact .inr ⟨hdecode, hnone⟩
  · obtain hlatched | ⟨hidle, -⟩ := exec_latches ha hexec
    · exact .inl hlatched
    · simp [State.feeding_of_runs hr] at hidle

end Sys2Proof.Machine
end

section
/-! PROOFS. No step reads outside BUF or a register without a value (20_memory R58, 43_feed_decoder R175, 10_state
R35): from the invariant every read of the running FEED lies inside BUF. -/

namespace Sys2Proof.Machine

theorem Phase.isSample_iff {ph : Phase} : ph.isSample = true ↔ ph = .sample := by
  cases ph <;> simp [Phase.isSample]

/-! Where the shared operations do not fault. -/

section
variable {s : State} {f : Fault}

theorem betweenOperations_ne_fault {k : Answer} (h : k ≠ .fault f) : s.betweenOperations k ≠ .fault f := by
  unfold State.betweenOperations
  split
  · nofun
  · exact h

theorem require_ne_fault {c : Bool} {k : Answer} (h : c = true → k ≠ .fault f) : require c k ≠ .fault f := by
  cases c
  · nofun
  · exact h rfl

theorem withRead_ne_fault {α : Type} {v : Option α} {k : α → Answer} (hv : v.isSome = true)
    (hk : ∀ x, k x ≠ .fault f) : withRead v k ≠ .fault f := by
  obtain ⟨x, rfl⟩ := Option.isSome_iff_exists.mp hv
  exact hk x

theorem requireLevel_ne_fault {ses : Session} {r : Run} {j : Nat} {high : Bool} {k : Answer} (hj : j < r.buf.length)
    (hk : k ≠ .fault f) : requireLevel ses r j high k ≠ .fault f :=
  withRead_ne_fault ((level_isSome_iff _ _ _).mpr hj) fun _ => require_ne_fault fun _ => hk

end

/-! Under the invariant every index a running FEED reads lies inside BUF. -/

section
variable {p : Params} {ses : Session} {r : Run} {b : Byte}

theorem Session.Inv.lt_length_of_inBound (hses : ses.Inv p) {j : Nat} (hb : inBound ses.timing r.buf j = true) :
    j < r.buf.length := by
  have := (inBound_iff _ _ _).mp hb
  have := hses.offsets_lt_spare.1
  omega

/-- The stop sample of a frame whose start index is in bounds. -/
theorem Session.Inv.stop_lt_length (hses : ses.Inv p) (hb : inBound ses.timing r.buf r.i = true) :
    r.i + ses.timing.stop < r.buf.length := by
  have := (inBound_iff _ _ _).mp hb
  have := hses.offsets_lt_spare.1
  omega

theorem Session.Inv.sampleByte_isSome (hses : ses.Inv p) (hb : inBound ses.timing r.buf r.i = true) :
    (sampleByte ses.timing ses.chan r.buf r.i).isSome = true :=
  Option.isSome_iff_exists.mpr (sampleByte_of_inBound ses.chan hses.1 hb)

theorem Session.Inv.sampledFrame_isSome (hses : ses.Inv p) (hb : inBound ses.timing r.buf r.i = true) :
    (sampledFrame ses r).isSome = true := by
  obtain ⟨first, hfirst⟩ := level_of_lt ses.chan r.buf r.i (hses.lt_length_of_inBound hb)
  obtain ⟨b, hbyte⟩ := Option.isSome_iff_exists.mp (hses.sampleByte_isSome hb)
  obtain ⟨last, hlast⟩ := level_of_lt ses.chan r.buf (r.i + ses.timing.stop) (hses.stop_lt_length hb)
  simp [sampledFrame, hfirst, hbyte, hlast]

/-- In SAMPLE and STOPCHK the start index is in bounds (43_feed_decoder R175). -/
theorem Run.Inv.inBound_of_sample (hr : r.Inv p ses) (hp : r.phase = .sample) :
    inBound ses.timing r.buf r.i = true := by
  have h := hr.phaseOk
  simp only [Run.phaseOk, hp, Bool.and_eq_true] at h
  exact h.1

theorem Run.Inv.inBound_of_stopchk (hr : r.Inv p ses) (hp : r.phase = .stopchk b) :
    inBound ses.timing r.buf r.i = true := by
  have h := hr.phaseOk
  simp only [Run.phaseOk, hp, Bool.and_eq_true] at h
  obtain ⟨⟨hb, -⟩, -⟩ := h
  exact hb

/-- A probe whose bound is tested first reads inside BUF (30_encoding R88). -/
theorem Session.Inv.probedSelector_isSome (hses : ses.Inv p) (probe : Nat) :
    (probedSelector ses r probe).isSome = true := by
  unfold probedSelector
  split
  next hb => simpa using (level_isSome_iff _ _ _).mpr (hses.lt_length_of_inBound hb)
  next => rfl

theorem Session.Inv.selector_isSome (hses : ses.Inv p) (hr : r.Inv p ses) : (selector ses r).isSome = true := by
  unfold selector
  cases hp : r.phase with
  | scan => exact hses.probedSelector_isSome r.i
  | sample => rfl
  | stopchk b => simpa using (level_isSome_iff _ _ _).mpr (hses.stop_lt_length (hr.inBound_of_stopchk hp))
  | resync b => exact hses.probedSelector_isSome (r.i + 1)

/-- Only SCAN has a selector with these bits (30_encoding R88). -/
theorem selectorBits_eq_scanStart {ph : Phase} {b l : Bool} (h : selectorBits ph b l = 0b0010#4) :
    ph = .scan ∧ b = true := by
  have key : ∀ (c : BitVec 2) (b l : Bool), c ++ BitVec.ofBool b ++ BitVec.ofBool l = 0b0010#4 → c = 0b00#2 ∧ b = true := by
    decide
  obtain ⟨hcode, hb⟩ := key ph.code b l h
  cases ph with
  | scan => exact ⟨rfl, hb⟩
  | sample => simp [Phase.code] at hcode
  | stopchk byte => simp [Phase.code] at hcode
  | resync byte => simp [Phase.code] at hcode

/-- A probed selector carries the bound of its probe. -/
theorem probedSelector_eq_some {probe : Nat} {v : BitVec 4} (h : probedSelector ses r probe = some v) :
    ∃ l, v = selectorBits r.phase (inBound ses.timing r.buf probe) l := by
  unfold probedSelector at h
  split at h
  next hb =>
    obtain ⟨l, -, rfl⟩ := Option.map_eq_some_iff.mp h
    exact ⟨l, by rw [hb]⟩
  next hb =>
    cases h
    exact ⟨false, by rw [(Bool.not_eq_true _).mp hb]⟩

theorem selector_eq_some {v : BitVec 4} (h : selector ses r = some v) : ∃ b l, v = selectorBits r.phase b l := by
  unfold selector at h
  split at h
  next => exact ⟨_, probedSelector_eq_some h⟩
  next => cases h; exact ⟨false, false, rfl⟩
  next => obtain ⟨l, -, rfl⟩ := Option.map_eq_some_iff.mp h; exact ⟨false, l, rfl⟩
  next => exact ⟨_, probedSelector_eq_some h⟩

theorem inBound_of_selector_scanStart (h : selector ses r = some 0b0010#4) :
    inBound ses.timing r.buf r.i = true := by
  obtain ⟨b, l, hv⟩ := selector_eq_some h
  have hscan : r.phase = .scan := (selectorBits_eq_scanStart hv.symm).1
  simp only [selector, hscan] at h
  obtain ⟨l, hv⟩ := probedSelector_eq_some h
  exact (selectorBits_eq_scanStart hv.symm).2

/-- In either grain the row a running FEED is at can be read. -/
theorem Session.Inv.nextRow_isSome (hses : ses.Inv p) (hr : r.Inv p ses) (g : Grain) :
    (nextRow g ses r).isSome = true := by
  obtain ⟨v, hv⟩ := Option.isSome_iff_exists.mp (hses.selector_isSome hr)
  cases g with
  | micro => simp [nextRow, hv]
  | frame =>
    simp only [nextRow, hv]
    split
    next hstart =>
      rw [Option.isSome_map]
      exact hses.sampledFrame_isSome (inBound_of_selector_scanStart (hstart ▸ hv))
    next => rfl

end

/-! Each row, and the step. -/

section
variable {s : State} {f : Fault}

theorem execBuild_ne_fault (sr br : Number) : execBuild sr br s ≠ .fault f := by
  unfold execBuild
  split <;> nofun

theorem execIshigh_ne_fault (w : SampleWord) (ch : Nat) : execIshigh w ch s ≠ .fault f := by
  unfold execIshigh
  split <;> nofun

theorem execStart_ne_fault (tt : TimingTable) (ch : Nat) : execStart tt ch s ≠ .fault f := by
  refine betweenOperations_ne_fault ?_
  split <;> nofun

theorem execFeed_ne_fault (chunk : List SampleWord) : execFeed chunk s ≠ .fault f := by
  refine betweenOperations_ne_fault ?_
  cases hs : s.session with
  | none =>
    simp only [State.inSession, hs]
    nofun
  | some ses =>
    simp only [State.inSession, hs]
    split <;> nofun

theorem execFinish_ne_fault : execFinish s ≠ .fault f := by
  refine betweenOperations_ne_fault ?_
  split <;> nofun

theorem onFrame_ne_fault {ses : Session} {r : Run} {levels : BitVec 10} {k : Session → Run → Answer} (hs : s.Inv)
    (hr : s.Runs ses r) (hk : ∀ ses r, k ses r ≠ .fault f) : onFrame s levels k ≠ .fault f := by
  obtain ⟨hses, -⟩ := hs.of_runs hr
  rw [onFrame, onFeed_of_runs hr]
  refine require_ne_fault fun hc => withRead_ne_fault (hses.sampledFrame_isSome ?_) fun _ =>
    require_ne_fault fun _ => hk ses r
  exact (Bool.and_eq_true_iff.mp hc).2

/-- A row of a running FEED reads after its bound is tested, or in a phase in which the invariant gives the bound. -/
theorem exec_ne_fault_of_runs {ses : Session} {r : Run} (hs : s.Inv) (hr : s.Runs ses r) (i : Instr) :
    exec i s ≠ .fault f := by
  obtain ⟨hses, hrun⟩ := hs.of_runs hr
  cases i with
  | build sr br => exact execBuild_ne_fault sr br
  | ishigh w ch => exact execIshigh_ne_fault w ch
  | start tt ch => exact execStart_ne_fault tt ch
  | feed chunk => exact execFeed_ne_fault chunk
  | finish => exact execFinish_ne_fault
  | scanSkip =>
    rw [exec, execScanSkip, onFeed_of_runs hr]
    refine require_ne_fault fun hc => requireLevel_ne_fault (hses.lt_length_of_inBound ?_) nofun
    exact (Bool.and_eq_true_iff.mp hc).2
  | scanStart =>
    rw [exec, execScanStart, onFeed_of_runs hr]
    refine require_ne_fault fun hc => requireLevel_ne_fault (hses.lt_length_of_inBound ?_) nofun
    exact (Bool.and_eq_true_iff.mp hc).2
  | scanExit =>
    rw [exec, execScanExit, onFeed_of_runs hr]
    exact require_ne_fault fun _ => nofun
  | sample =>
    rw [exec, execSample, onFeed_of_runs hr]
    refine require_ne_fault fun hc => withRead_ne_fault (hses.sampleByte_isSome ?_) fun _ => nofun
    exact hrun.inBound_of_sample (Phase.isSample_iff.mp hc)
  | stopchkOk =>
    rw [exec, execStopchkOk, onFeed_of_runs hr]
    split
    next b hp => exact requireLevel_ne_fault (hses.stop_lt_length (hrun.inBound_of_stopchk hp)) nofun
    next => nofun
  | stopchkErr =>
    rw [exec, execStopchkErr, onFeed_of_runs hr]
    split
    next b hp => exact requireLevel_ne_fault (hses.stop_lt_length (hrun.inBound_of_stopchk hp)) nofun
    next => nofun
  | resyncHold =>
    rw [exec, execResyncHold, onFeed_of_runs hr]
    split
    next => exact require_ne_fault fun hb => requireLevel_ne_fault (hses.lt_length_of_inBound hb) nofun
    next => nofun
  | resyncDone =>
    rw [exec, execResyncDone, onFeed_of_runs hr]
    split
    next => exact require_ne_fault fun hb => requireLevel_ne_fault (hses.lt_length_of_inBound hb) nofun
    next => nofun
  | resyncExit =>
    rw [exec, execResyncExit, onFeed_of_runs hr]
    split
    next => exact require_ne_fault fun _ => nofun
    next => nofun
  | frameOk b => exact onFrame_ne_fault hs hr fun _ _ => nofun
  | frameErr b => exact onFrame_ne_fault hs hr fun _ _ => nofun

/-- An issued operation reads nothing of BUF and no register of a FEED. -/
theorem exec_ne_fault_of_command {c : Command} {i : Instr} (hd : decode (.cmd c) = .ok i) : exec i s ≠ .fault f := by
  simp only [decode, decodeCommand] at hd
  split at hd
  next => cases hd; exact execBuild_ne_fault _ _
  next => cases hd; exact execIshigh_ne_fault _ _
  next => cases hd; exact execStart_ne_fault _ _
  next => cases hd; exact execFeed_ne_fault _
  next => cases hd; exact execFinish_ne_fault
  next => split at hd <;> cases hd

theorem fetchInbox_eq_instr {i : Instr} {u : State} :
    fetchInbox s = .instr i u ↔ ∃ c rest, s.inbox = c :: rest ∧ fetchCommand s c rest = .instr i u := by
  cases hi : s.inbox <;> simp [fetchInbox, hi]

theorem fetchInbox_ne_fault : fetchInbox s ≠ .fault f := by
  unfold fetchInbox fetchCommand
  split
  · nofun
  · split
    · split <;> nofun
    all_goals nofun

/-- Everything a step that ends in a fault can have done. -/
theorem step_fault_cases (h : step s = .fault f) :
    (∃ c rest i, decode (.cmd c) = .ok i ∧ exec i { s with inbox := rest } = .fault f)
      ∨ ∃ ses r, s.Runs ses r ∧ (nextRow s.grain ses r = none ∨ ∃ i, exec i s = .fault f) := by
  unfold step at h
  cases hf : s.feeding with
  | false =>
    rw [fetch_of_not_feeding hf] at h
    split at h
    next => cases h
    next i u hfetch =>
      obtain ⟨c, rest, -, hc⟩ := fetchInbox_eq_instr.mp hfetch
      obtain ⟨hd, -, rfl⟩ := fetchCommand_eq_instr.mp hc
      exact .inl ⟨c, rest, i, hd, h⟩
    next => cases h
    next hfetch => exact (fetchInbox_ne_fault hfetch).elim
  | true =>
    obtain ⟨ses, r, hr⟩ := s.feeding_iff_runs.mp hf
    refine .inr ⟨ses, r, hr, ?_⟩
    rw [fetch_of_runs hr] at h
    cases hrow : nextRow s.grain ses r with
    | none => exact .inl rfl
    | some e =>
      simp only [fetchRow, hrow] at h
      cases hd : decode e with
      | error err => simp [hd] at h
      | ok i => exact .inr ⟨i, by simpa [hd] using h⟩

end

/-- Settles O4: an issued operation never faults, and under the invariant neither does the fetch of a row of a running
FEED nor the row. -/
theorem noStepFaults : Obligations.NoStepFaults := by
  intro s f hs h
  obtain ⟨c, rest, i, hd, hexec⟩ | ⟨ses, r, hr, hnone | ⟨i, hexec⟩⟩ := step_fault_cases h
  · exact exec_ne_fault_of_command hd hexec
  · obtain ⟨hses, hrun⟩ := hs.of_runs hr
    simpa [hnone] using hses.nextRow_isSome hrun s.grain
  · exact exec_ne_fault_of_runs hs hr i hexec

end Sys2Proof.Machine
end

section
/-! PROOFS. The three formats (30_encoding R82, R83, R87, R88): decoding what is encoded, and encoding what
is decoded. -/

namespace Sys2Proof.Machine

open Laws.RowPattern (codeBits mask pattern Statement)

/-! Frames. -/

/-- The ten levels of a frame decode to FRAME.OK where the stop level is high, else to FRAME.ERR (30_encoding R83). -/
theorem decodeFrame_frameLevels (b : Byte) (stop : Bool) :
    decodeFrame (frameLevels b stop) = .ok (if stop then .frameOk b else .frameErr b) := by
  unfold decodeFrame
  rw [getLsbD_frameLevels_nine, getLsbD_frameLevels_zero, frameByte_frameLevels]
  cases stop <;> rfl

/-- Ten levels with a low first one are the frame of their byte and stop level. -/
theorem frameLevels_frameByte :
    ∀ v : BitVec 10, v.getLsbD 9 = false → frameLevels (frameByte v) (v.getLsbD 0) = v := by
  decide

theorem encode_of_decodeFrame {v : BitVec 10} {i : Instr} (h : decodeFrame v = .ok i) : encode i = .sf v := by
  unfold decodeFrame at h
  split at h
  next => cases h
  next hstart hstop => cases h; rw [encode, ← hstop, frameLevels_frameByte v hstart]
  next hstart hstop => cases h; rw [encode, ← hstop, frameLevels_frameByte v hstart]

/-! Commands. -/

theorem Command.eq_mk {c : Command} {code : BitVec 3} {operands : List Operand} (hcode : c.code.toNat = code.toNat)
    (hops : c.operands = operands) : c = ⟨code, operands⟩ := by
  rw [← hops, ← BitVec.eq_of_toNat_eq hcode]

theorem encode_of_decodeCommand {c : Command} {i : Instr} (h : decodeCommand c = .ok i) : encode i = .cmd c := by
  unfold decodeCommand at h
  split at h
  next hcode hops => cases h; exact congrArg _ (Command.eq_mk hcode hops).symm
  next hcode hops => cases h; exact congrArg _ (Command.eq_mk hcode hops).symm
  next hcode hops => cases h; exact congrArg _ (Command.eq_mk hcode hops).symm
  next hcode hops => cases h; exact congrArg _ (Command.eq_mk hcode hops).symm
  next hcode hops => cases h; exact congrArg _ (Command.eq_mk hcode hops).symm
  next => split at h <;> cases h

/-! Selectors. -/

/-- A selector is its row's encoding in the bits the row evaluates (30_encoding R88). -/
theorem encode_decodeSelector : ∀ v : BitVec 4, ∃ u,
    encode (decodeSelector v) = .sel u ∧ v.toNat &&& mask (decodeSelector v) = u.toNat := by
  decide

/-! Both directions, over all rows. -/

/-- The encoding of every instruction matches the pattern of its row in opcode_table.json. -/
theorem encode_matches_row (i : Instr) : Statement i := by
  cases i with
  | build sr br => exact Laws.RowPattern.build sr br
  | ishigh w ch => exact Laws.RowPattern.ishigh w ch
  | start t ch => exact Laws.RowPattern.start t ch
  | feed ws => exact Laws.RowPattern.feed ws
  | finish => exact Laws.RowPattern.finish
  | scanSkip => exact Laws.RowPattern.scanSkip
  | scanStart => exact Laws.RowPattern.scanStart
  | scanExit => exact Laws.RowPattern.scanExit
  | sample => exact Laws.RowPattern.sample
  | stopchkOk => exact Laws.RowPattern.stopchkOk
  | stopchkErr => exact Laws.RowPattern.stopchkErr
  | resyncHold => exact Laws.RowPattern.resyncHold
  | resyncDone => exact Laws.RowPattern.resyncDone
  | resyncExit => exact Laws.RowPattern.resyncExit
  | frameOk b => exact Laws.RowPattern.frameOk b
  | frameErr b => exact Laws.RowPattern.frameErr b

/-- An accepted word agrees with the encoding of what it decodes to in every bit its row evaluates. -/
theorem codeBits_masked_of_decode {e : Encoded} {i : Instr} (h : decode e = .ok i) :
    codeBits e &&& mask i = codeBits (encode i) &&& mask i := by
  cases e with
  | cmd c => rw [encode_of_decodeCommand h]
  | sf v => rw [encode_of_decodeFrame h]
  | sel v =>
    cases h
    obtain ⟨u, hu, hmask⟩ := encode_decodeSelector v
    rw [hu]
    change v.toNat &&& _ = u.toNat &&& _
    rw [← hmask, Nat.and_assoc, Nat.and_self]

/-- Settles O9, row by row: an operation's code and a selector spell their row as they are written; a frame's ten levels
give back its byte and stop level. -/
theorem decodeOfEncode : Obligations.DecodeOfEncode := by
  intro i
  cases i with
  | frameOk b => exact decodeFrame_frameLevels b true
  | frameErr b => exact decodeFrame_frameLevels b false
  | _ => rfl

/-- Settles O10: the encoding of the decoded row is the accepted word, in a selector up to the bits outside the row's
mask, and every encoding matches its row. -/
theorem encodeOfDecode : Obligations.EncodeOfDecode := by
  refine ⟨fun c i h => encode_of_decodeCommand h, fun v i h => encode_of_decodeFrame h, fun v i h => ?_,
    fun e i h => ?_⟩
  · cases h
    exact encode_decodeSelector v
  · exact (codeBits_masked_of_decode h).trans (encode_matches_row i)

/-- Settles O12: each word is one evaluation of the decoder. -/
theorem writtenWordsDecode : Obligations.WrittenWordsDecode :=
  ⟨rfl, rfl, rfl, rfl, rfl, rfl, rfl, rfl⟩

end Sys2Proof.Machine
end

section
/-! PROOFS. The selector of a running FEED (30_encoding R88): which micro-step its bits name, phase by phase. -/

namespace Sys2Proof.Machine

/-! The bits of each phase. BYTE is no part of them, so any byte stands for all. -/

@[simp] theorem decodeSelector_scan_outOfBounds (l : Bool) :
    decodeSelector (selectorBits .scan false l) = .scanExit := by
  cases l <;> rfl

@[simp] theorem decodeSelector_scan_inBound (l : Bool) :
    decodeSelector (selectorBits .scan true l) = if l then .scanSkip else .scanStart := by cases l <;> rfl

@[simp] theorem decodeSelector_sample (b l : Bool) : decodeSelector (selectorBits .sample b l) = .sample := by
  cases b <;> cases l <;> rfl

@[simp] theorem decodeSelector_stopchk (x : Byte) (b l : Bool) :
    decodeSelector (selectorBits (.stopchk x) b l) = if l then .stopchkOk else .stopchkErr := by
  change decodeSelector (selectorBits (.stopchk 0) b l) = _
  cases b <;> cases l <;> rfl

@[simp] theorem decodeSelector_resync_outOfBounds (x : Byte) (l : Bool) :
    decodeSelector (selectorBits (.resync x) false l) = .resyncExit := by
  change decodeSelector (selectorBits (.resync 0) false l) = _
  cases l <;> rfl

@[simp] theorem decodeSelector_resync_inBound (x : Byte) (l : Bool) :
    decodeSelector (selectorBits (.resync x) true l) = if l then .resyncDone else .resyncHold := by
  change decodeSelector (selectorBits (.resync 0) true l) = _
  cases l <;> rfl

/-! The selector of each phase. -/

section
variable {ses : Session} {r : Run} {v : BitVec 4}

/-- A probe out of bounds selects without a level; one in bounds, with the level read there. -/
theorem probedSelector_eq_some_iff {probe : Nat} : probedSelector ses r probe = some v ↔
    (inBound ses.timing r.buf probe = false ∧ v = selectorBits r.phase false false)
      ∨ (inBound ses.timing r.buf probe = true
          ∧ ∃ l, level ses.chan r.buf probe = some l ∧ v = selectorBits r.phase true l) := by
  unfold probedSelector
  cases inBound ses.timing r.buf probe <;> simp [eq_comm]

theorem selector_scan_iff (hp : r.phase = .scan) : selector ses r = some v ↔
    (inBound ses.timing r.buf r.i = false ∧ v = selectorBits .scan false false)
      ∨ (inBound ses.timing r.buf r.i = true
          ∧ ∃ l, level ses.chan r.buf r.i = some l ∧ v = selectorBits .scan true l) := by
  simp only [selector, hp, probedSelector_eq_some_iff]

theorem selector_sample_iff (hp : r.phase = .sample) :
    selector ses r = some v ↔ v = selectorBits .sample false false := by
  simp only [selector, hp, Option.some.injEq, eq_comm]

theorem selector_stopchk_iff {x : Byte} (hp : r.phase = .stopchk x) : selector ses r = some v ↔
    ∃ l, level ses.chan r.buf (r.i + ses.timing.stop) = some l ∧ v = selectorBits (.stopchk x) false l := by
  simp only [selector, hp, Option.map_eq_some_iff, @eq_comm _ v]

theorem selector_resync_iff {x : Byte} (hp : r.phase = .resync x) : selector ses r = some v ↔
    (inBound ses.timing r.buf (r.i + 1) = false ∧ v = selectorBits (.resync x) false false)
      ∨ (inBound ses.timing r.buf (r.i + 1) = true
          ∧ ∃ l, level ses.chan r.buf (r.i + 1) = some l ∧ v = selectorBits (.resync x) true l) := by
  simp only [selector, hp, probedSelector_eq_some_iff]

end

/-- Settles O13: the phase fixes the two high bits, and in it the bound and the level that were read fix the row; every
other row needs another phase, bound or level. -/
theorem selectorNamesItsMicroStep : Obligations.SelectorNamesItsMicroStep := by
  intro ses r v h
  cases hp : r.phase with
  | scan =>
    obtain ⟨hb, rfl⟩ | ⟨hb, l, hl, rfl⟩ := (selector_scan_iff hp).mp h
    · simp [hb]
    · cases l <;> simp [hb, hl]
  | sample =>
    obtain rfl := (selector_sample_iff hp).mp h
    simp
  | stopchk x =>
    obtain ⟨l, hl, rfl⟩ := (selector_stopchk_iff hp).mp h
    cases l <;> simp [hl]
  | resync x =>
    obtain ⟨hb, rfl⟩ | ⟨hb, l, hl, rfl⟩ := (selector_resync_iff hp).mp h
    · simp [hb]
    · cases l <;> simp [hb, hl]

/-! The step on the row it finds (30_encoding R83, R88). -/

section
variable {s : State} {i : Instr}

/-- An issued operation that decodes and whose operands are values of their types runs in the state that has taken
it. -/
theorem step_of_issued {c : Command} {rest : List Command} (hidle : s.feeding = false) (hinbox : s.inbox = c :: rest)
    (hd : decode (.cmd c) = .ok i) (hw : i.wellFormed s.params = true) : step s = exec i { s with inbox := rest } := by
  simp only [step, fetch_of_not_feeding hidle, fetchInbox, hinbox, fetchCommand_eq_instr.mpr ⟨hd, hw, rfl⟩]

/-- A running FEED runs the row it is at. -/
theorem step_of_nextRow {ses : Session} {r : Run} {e : Encoded} (hr : s.Runs ses r)
    (hrow : nextRow s.grain ses r = some e) (hd : decode e = .ok i) : step s = exec i s := by
  simp only [step, fetch_of_runs hr, fetchRow, hrow, hd]

end

/-- Settles O7: each clause says which row is fetched, and the step runs that. -/
theorem stepRunsDecodedInstruction : Obligations.StepRunsDecodedInstruction := by
  refine ⟨fun s c rest i hidle hinbox hd hw => step_of_issued hidle hinbox hd hw, ?_, ?_, ?_⟩
  · intro s ses r v hr hgrain hv
    exact step_of_nextRow hr (e := .sel v) (by simp [nextRow, hgrain, hv]) rfl
  · intro s ses r v hr hgrain hv hne
    exact step_of_nextRow hr (e := .sel v) (by simp [nextRow, hgrain, hv, hne]) rfl
  · intro s ses r v i hr hgrain hsel hv hd
    exact step_of_nextRow hr (e := .sf v) (by simp [nextRow, hgrain, hsel, hv]) hd

/-- A byte is assembled from its own bits, least significant first (30_encoding R89). -/
theorem sampleByte_of_bits {t : TimingTable} {ch : Nat} {buf : List SampleWord} {i : Nat} {b : Byte}
    (h : ∀ k : Fin 8, level ch buf (i + t.off k) = some (b.getLsbD k)) : sampleByte t ch buf i = some b := by
  refine (sampleByte_eq_some_iff t ch buf i b).mpr ⟨fun k => b.getLsbD k, h, ?_⟩
  exact BitVec.eq_of_getLsbD_eq fun k hk => getLsbD_byteOfLevels (fun k => b.getLsbD k) ⟨k, hk⟩

/-- Settles O38: the start level, the eight data levels and the stop level are those of the row's frame. -/
theorem frameRowsRunTheFrame : Obligations.FrameRowsRunTheFrame := by
  intro s ses r b hr hp hb hl hdata
  have hbyte := sampleByte_of_bits hdata
  have hb := (inBound_iff _ _ _).mpr hb
  exact ⟨fun hstop => execFrameOk_eq_next.mpr ⟨ses, r, hr, hp, hb, hl, hbyte, hstop, rfl⟩,
    fun hstop => execFrameErr_eq_next.mpr ⟨ses, r, hr, hp, hb, hl, hbyte, hstop, rfl⟩⟩

end Sys2Proof.Machine
end

section
/-! PROOFS. A clean line decodes to its bytes (95_test_vectors section 1.2): with `skip` words a bit every sample point
of a frame falls half a bit into its bit. -/

namespace Sys2Proof.Machine

/-! The line of a frame, bit by bit. -/

/-- The ten bits of a frame in time order (30_encoding R82). -/
def frameBits (b : Byte) : List Bool := false :: (List.range 8).map b.getLsbD ++ [true]

theorem frameBits_data (b : Byte) (k : Fin 8) : (frameBits b)[k.val + 1]? = some (b.getLsbD k) := by
  fin_cases k <;> rfl

theorem map_testBit_frameWords (skip : Nat) (b : Byte) :
    (frameWords skip b).map (fun w => Nat.testBit w 0) = (frameBits b).flatMap (List.replicate skip) := by
  have hbit (k : Nat) : Nat.testBit (if b.getLsbD k then 1 else 0) 0 = b.getLsbD k := by cases b.getLsbD k <;> rfl
  simp only [frameWords, frameBits, List.map_append, List.map_flatMap, List.map_replicate, hbit, List.flatMap_append,
    List.flatMap_cons, List.flatMap_map, List.flatMap_nil, List.append_nil]
  rfl

theorem length_flatMap_replicate {α : Type} (n : Nat) (l : List α) :
    (l.flatMap (List.replicate n)).length = l.length * n := by simp [List.length_flatMap]

theorem getElem?_flatMap_replicate {α : Type} {n j : Nat} (hj : j < n) :
    ∀ (l : List α) (k : Nat), (l.flatMap (List.replicate n))[k * n + j]? = l[k]? := by
  intro l
  induction l with
  | nil => intro k; rfl
  | cons x l ih =>
    intro k
    rw [List.flatMap_cons]
    cases k with
    | zero => simp [hj, List.getElem?_append_left]
    | succ k =>
      rw [List.getElem?_append_right (by rw [List.length_replicate, Nat.succ_mul]; omega), List.length_replicate,
        show (k + 1) * n + j - n = k * n + j by rw [Nat.succ_mul]; omega, ih]
      rfl

/-- Past its stop sample a frame is high to its end. -/
theorem drop_flatMap_frameBits (b : Byte) (skip i : Nat) (hi : 9 * skip ≤ i) :
    ((frameBits b).flatMap (List.replicate skip)).drop i = List.replicate (10 * skip - i) true := by
  have hlen : ((false :: (List.range 8).map b.getLsbD).flatMap (List.replicate skip)).length = 9 * skip := by
    rw [length_flatMap_replicate]; rfl
  rw [frameBits, List.flatMap_append, List.drop_append, List.drop_eq_nil_of_le (by omega), hlen]
  simp
  omega

theorem integerTable_off (skip : Nat) (k : Fin 8) :
    (integerTable skip).off k = (k.val + 1) * skip + skip / 2 := by
  fin_cases k <;> simp [integerTable, TimingTable.off] <;> omega

theorem integerTable_stop (skip : Nat) : (integerTable skip).stop = 9 * skip + skip / 2 := by
  simp only [integerTable]
  omega

theorem integerTable_wellFormed {skip : Nat} (h : 1 ≤ skip) : (integerTable skip).wellFormed = true := by
  refine (TimingTable.wellFormed_iff _).mpr ⟨fun k => ?_, ?_⟩
  · rw [integerTable_off]
    have : (k.val + 1) * skip ≤ 8 * skip := Nat.mul_le_mul_right _ k.isLt
    simp only [integerTable]
    omega
  · rw [integerTable_stop]
    simp only [integerTable]
    omega

/-! What the loop makes of the pieces of a clean line. -/

/-- The loop over `buf`, from any CURSOR, keeps these bytes and takes no event. -/
def DecodesTo (t : TimingTable) (ch : Nat) (buf : List SampleWord) (bytes : List Byte) : Prop :=
  ∀ cursor, ∃ e, Scans t ch cursor buf 0 [] [] e ∧ e.bytes = bytes ∧ e.ferrs = []

section
variable {t : TimingTable} {ch : Nat} {buf : List SampleWord} {bytes : List Byte}

/-- A high word in front is stepped over, or the buffer is too short for a frame either way. -/
theorem DecodesTo.cons_high {w : SampleWord} (hw : w.testBit ch = true) (h : DecodesTo t ch buf bytes) :
    DecodesTo t ch (w :: buf) bytes := by
  intro cursor
  cases hb : inBound t (w :: buf) 0 with
  | true =>
    obtain ⟨e, he, hbytes, hferrs⟩ := h (cursor + [w].length)
    have hl : level ch (w :: buf) 0 = some true := by simp [level_eq_getElem?_map, hw]
    exact ⟨_, .skip hb hl (he.shift [] []), hbytes, hferrs⟩
  | false =>
    obtain ⟨e, he, rfl, -⟩ := h cursor
    have hb' : inBound t buf 0 = false := by
      have := (not_inBound_iff _ _ _).mp hb
      rw [List.length_cons] at this
      exact (not_inBound_iff _ _ _).mpr (by omega)
    obtain rfl := he.unique (.exit hb')
    exact ⟨_, .exit hb, rfl, rfl⟩

theorem DecodesTo.append_high {idle : List SampleWord} {n : Nat}
    (hidle : idle.map (fun w => w.testBit ch) = List.replicate n true) (h : DecodesTo t ch buf bytes) :
    DecodesTo t ch (idle ++ buf) bytes := by
  induction idle generalizing n with
  | nil => exact h
  | cons w idle ih =>
    cases n with
    | zero => simp at hidle
    | succ n =>
      obtain ⟨hw, hidle⟩ := List.cons.inj hidle
      exact (ih hidle).cons_high hw

end

section
variable {skip ch : Nat}

/-- The words of one frame keep its byte, and the loop goes on at the stop sample. -/
theorem DecodesTo.frame (hskip : 1 ≤ skip) {frame rest : List SampleWord} {b : Byte} {bytes : List Byte}
    (hframe : frame.map (fun w => w.testBit ch) = (frameBits b).flatMap (List.replicate skip))
    (h : DecodesTo (integerTable skip) ch (frame.drop (integerTable skip).stop ++ rest) bytes) :
    DecodesTo (integerTable skip) ch (frame ++ rest) (b :: bytes) := by
  intro cursor
  have hhalf : skip / 2 < skip := by omega
  have hlength : frame.length = 10 * skip := by
    have hlen := congrArg List.length hframe
    rwa [List.length_map, length_flatMap_replicate] at hlen
  have hlevel {k j : Nat} {l : Bool} (hj : j < skip) (hk : (frameBits b)[k]? = some l) :
      level ch (frame ++ rest) (k * skip + j) = some l :=
    level_append rest (by rw [level_eq_getElem?_map, hframe, getElem?_flatMap_replicate hj, hk])
  have hb : inBound (integerTable skip) (frame ++ rest) 0 = true := by
    rw [inBound_iff, List.length_append, hlength]
    simp only [integerTable]
    omega
  have hstart : level ch (frame ++ rest) 0 = some false := by simpa using hlevel (k := 0) hskip rfl
  have hbyte : sampleByte (integerTable skip) ch (frame ++ rest) 0 = some b := by
    refine sampleByte_of_bits fun k => ?_
    rw [integerTable_off, Nat.zero_add]
    exact hlevel hhalf (frameBits_data b k)
  have hstop : level ch (frame ++ rest) (0 + (integerTable skip).stop) = some true := by
    rw [integerTable_stop, Nat.zero_add]
    exact hlevel hhalf rfl
  have htake : (frame.take (integerTable skip).stop).length = (integerTable skip).stop := by
    rw [List.length_take_of_le]
    rw [integerTable_stop]
    omega
  obtain ⟨e, he, rfl, hferrs⟩ := h (cursor + (frame.take (integerTable skip).stop).length)
  have hnext := he.shift [b] []
  rw [← List.append_assoc, List.take_append_drop, htake, Nat.add_comm _ 0] at hnext
  exact ⟨_, .valid b hb hstart hbyte hstop hnext, rfl, hferrs⟩

/-- An idle lead and frames, each followed by idle time, decode to the bytes of the frames. -/
theorem decodesTo_cleanLine (hskip : 1 ≤ skip) (fs : List (Byte × Nat)) : ∀ (lead : Nat) (ws : List SampleWord),
    ws.map (fun w => w.testBit ch) = List.replicate lead true
      ++ fs.flatMap (fun f => (frameBits f.1).flatMap (List.replicate skip) ++ List.replicate f.2 true) →
    DecodesTo (integerTable skip) ch ws (fs.map (·.1)) := by
  induction fs with
  | nil =>
    intro lead ws hws
    have hb : inBound (integerTable skip) [] 0 = false :=
      (not_inBound_iff _ _ _).mpr (by simp only [integerTable, List.length_nil]; omega)
    have hempty : DecodesTo (integerTable skip) ch [] [] := fun _ => ⟨_, .exit hb, rfl, rfl⟩
    simpa using hempty.append_high (idle := ws) (by simpa using hws)
  | cons f fs ih =>
    intro lead ws hws
    rw [List.flatMap_cons, List.append_assoc] at hws
    obtain ⟨idle, ws, rfl, hidle, hws⟩ := List.map_eq_append_iff.mp hws
    obtain ⟨frame, rest, rfl, hframe, hrest⟩ := List.map_eq_append_iff.mp hws
    refine .append_high hidle (.frame hskip hframe (ih (10 * skip - (integerTable skip).stop + f.2) _ ?_))
    rw [List.map_append, List.map_drop, hframe, hrest, drop_flatMap_frameBits _ _ _ (by rw [integerTable_stop]; omega),
      ← List.append_assoc, List.replicate_append_replicate]

end

/-- Settles O56: the words carry the line of `decodesTo_cleanLine`, and FEED leaves where that loop does. -/
theorem cleanLineDecodesToItsBytes : Obligations.CleanLineDecodesToItsBytes := by
  intro p skip lead ch fs ws hskip hfits hws
  have hline : ws.map (fun w => w.testBit ch) = List.replicate lead true
      ++ fs.flatMap (fun f => (frameBits f.1).flatMap (List.replicate skip) ++ List.replicate f.2 true) := by
    simpa only [List.map_append, List.map_flatMap, List.map_replicate, map_testBit_frameWords,
      Nat.testBit_one_zero] using hws
  obtain ⟨e, he, hbytes, hferrs⟩ := decodesTo_cleanLine hskip fs lead ws hline 0
  obtain ⟨e', hloop, -⟩ := feedLoop_total (ch := ch) (cursor := 0) (buf := ws) (integerTable_wellFormed hskip)
  obtain rfl := (scans_of_feedLoop hloop).unique he
  exact ⟨_, feedWhole_eq_next.mpr ⟨hfits, e', hloop, rfl⟩, by simpa [Outputs.bytes] using hbytes,
    by simpa [Outputs.ferrs] using hferrs⟩

end Sys2Proof.Machine
end

section
/-! PROOFS. A running FEED, step by step (43_feed_decoder R173, R174): in either grain each step goes on towards the end
of the big-step form, and it is reached. -/

namespace Sys2Proof.Machine

/-! Runs of the machine. -/

/-- `k` steps of the machine. -/
def stepN (k : Nat) (s : State) : Answer := core.run k s

section
variable {s t : State} {k : Nat}

theorem stepN_zero (s : State) : stepN 0 s = .next s := rfl

theorem stepN_succ (k : Nat) (s : State) : stepN (k + 1) s = Whole.andThen (step s) (stepN k) := by
  cases h : step s <;> simp only [stepN, Host.Core.run, show core.step s = _ from h] <;> rfl

theorem stepN_succ_of_step (h : step s = .next t) (k : Nat) : stepN (k + 1) s = stepN k t := by
  rw [stepN_succ, h]
  rfl

theorem stepN_one (s : State) : stepN 1 s = step s := by
  rw [stepN_succ]
  cases step s <;> rfl

theorem stepN_add_of_stepN (h : stepN k s = .next t) (m : Nat) : stepN (k + m) s = stepN m t := by
  induction k generalizing s with
  | zero => cases h; rw [Nat.zero_add]
  | succ k ih =>
    rw [stepN_succ, Whole.andThen_eq_next] at h
    obtain ⟨u, hstep, hrun⟩ := h
    rw [Nat.succ_add, stepN_succ_of_step hstep, ih hrun]

/-- The invariant holds along every run (10_state R37). -/
theorem State.Inv.stepN (hs : s.Inv) (h : stepN k s = .next t) : t.Inv := by
  induction k generalizing s with
  | zero => cases h; exact hs
  | succ k ih =>
    rw [stepN_succ, Whole.andThen_eq_next] at h
    obtain ⟨u, hstep, hrun⟩ := h
    exact ih (everyStepKeepsInvariant s u hs hstep) hrun

end

/-! One step of a running FEED. -/

/-- The micro-steps a frame still has to make before the next index, by phase. -/
def Phase.work : Phase → Nat
  | .scan => 3
  | .sample => 2
  | .stopchk _ => 1
  | .resync _ => 0

/-- No more micro-steps than this come before the exit: four for each word left (43_feed_decoder R174). -/
def Run.work (r : Run) : Nat := 4 * (r.buf.length - r.i) + r.phase.work

/-- `r'` is `r` some micro-steps later, on the way to the same end. -/
def Run.Advances (ses : Session) (r r' : Run) : Prop :=
  r'.buf = r.buf ∧ finishRun ses r' = finishRun ses r ∧ r'.work < r.work

section
variable {s : State} {ses : Session} {r : Run} {b : Byte}

/-- But for an in-bound low sample of SCAN, either grain runs the micro-step the selector names (log entry 5). -/
theorem step_of_selector {v : BitVec 4} (hr : s.Runs ses r) (hv : selector ses r = some v) (hne : v ≠ 0b0010#4) :
    step s = exec (decodeSelector v) s := by
  obtain ⟨-, hmicro, hframe, -⟩ := stepRunsDecodedInstruction
  cases hg : s.grain with
  | micro => exact hmicro s ses r v hr hg hv
  | frame => exact hframe s ses r v hr hg hv hne

/-- A stop sample read at another level than the start sample lies at a later index. -/
theorem lt_of_level_ne {ch : Nat} {buf : List SampleWord} {i d : Nat} (hstart : level ch buf i = some false)
    (hstop : level ch buf (i + d) = some true) : 0 < d := by
  rcases Nat.eq_zero_or_pos d with rfl | hd
  · simp [hstart] at hstop
  · exact hd

/-- A valid frame from its start index (FRAME.OK, or the three micro-steps it stands for). -/
theorem Run.advances_frameOk (hw : ses.timing.wellFormed = true) (hp : r.phase = .scan)
    (hb : inBound ses.timing r.buf r.i = true) (hl : level ses.chan r.buf r.i = some false)
    (hbyte : sampleByte ses.timing ses.chan r.buf r.i = some b)
    (hstop : level ses.chan r.buf (r.i + ses.timing.stop) = some true) :
    r.Advances ses (r.keepByte b (r.i + ses.timing.stop)) := by
  refine ⟨rfl, ?_, ?_⟩
  · calc finishRun ses (r.keepByte b (r.i + ses.timing.stop))
        = finishRun ses { r with phase := .stopchk b } :=
          finishRun_stopchkOk (r := { r with phase := .stopchk b }) rfl hstop
      _ = finishRun ses { r with phase := .sample } := finishRun_sample (r := { r with phase := .sample }) rfl hbyte
      _ = finishRun ses r := finishRun_scanStart hw hp hb hl
  · have := lt_of_level_ne hl hstop
    have := lt_of_level hstop
    simp only [Run.work, Run.keepByte_buf, Run.keepByte_i, Run.keepByte_phase, hp, Phase.work]
    omega

/-- A frame with a low stop sample (FRAME.ERR, or the three micro-steps it stands for). -/
theorem Run.advances_frameErr (hw : ses.timing.wellFormed = true) (hp : r.phase = .scan)
    (hb : inBound ses.timing r.buf r.i = true) (hl : level ses.chan r.buf r.i = some false)
    (hbyte : sampleByte ses.timing ses.chan r.buf r.i = some b)
    (hstop : level ses.chan r.buf (r.i + ses.timing.stop) = some false) :
    r.Advances ses (r.takeFramingError ses.cursor b (r.i + ses.timing.stop)) := by
  refine ⟨rfl, ?_, ?_⟩
  · calc finishRun ses (r.takeFramingError ses.cursor b (r.i + ses.timing.stop))
        = finishRun ses { r with phase := .stopchk b } :=
          finishRun_stopchkErr (r := { r with phase := .stopchk b }) rfl hstop
      _ = finishRun ses { r with phase := .sample } := finishRun_sample (r := { r with phase := .sample }) rfl hbyte
      _ = finishRun ses r := finishRun_scanStart hw hp hb hl
  · simp only [Run.work, Run.takeFramingError_buf, Run.takeFramingError_i, Run.takeFramingError_phase, hp, Phase.work]
    omega

/-- An in-bound low sample of SCAN: SCAN.START, or in grain `frame` the frame as sampled. -/
theorem step_of_startBit (hs : s.Inv) (hr : s.Runs ses r) (hp : r.phase = .scan)
    (hb : inBound ses.timing r.buf r.i = true) (hl : level ses.chan r.buf r.i = some false) :
    ∃ r', step s = .next (s.setRun ses r') ∧ r.Advances ses r' := by
  obtain ⟨hses, -⟩ := hs.of_runs hr
  obtain ⟨-, hmicro, -, hframe⟩ := stepRunsDecodedInstruction
  have hsel : selector ses r = some 0b0010#4 := (selector_scan_iff hp).mpr (.inr ⟨hb, false, hl, rfl⟩)
  cases hg : s.grain with
  | micro =>
    refine ⟨{ r with phase := .sample }, ?_, rfl, finishRun_scanStart hses.1 hp hb hl, ?_⟩
    · rw [hmicro s ses r _ hr hg hsel]
      exact execScanStart_eq_next.mpr ⟨ses, r, hr, hp, hb, hl, rfl⟩
    · simp [Run.work, hp, Phase.work]
  | frame =>
    obtain ⟨b, hbyte⟩ := sampleByte_of_inBound ses.chan hses.1 hb
    obtain ⟨l, hstop⟩ := level_of_lt _ _ _ (hses.stop_lt_length hb)
    rw [hframe s ses r _ _ hr hg hsel (sampledFrame_eq_some_iff.mpr ⟨hl, hbyte, hstop⟩)
      (decodeFrame_frameLevels b l)]
    cases l with
    | true =>
      exact ⟨_, execFrameOk_eq_next.mpr ⟨ses, r, hr, hp, hb, hl, hbyte, hstop, rfl⟩,
        Run.advances_frameOk hses.1 hp hb hl hbyte hstop⟩
    | false =>
      exact ⟨_, execFrameErr_eq_next.mpr ⟨ses, r, hr, hp, hb, hl, hbyte, hstop, rfl⟩,
        Run.advances_frameErr hses.1 hp hb hl hbyte hstop⟩

/-- A step of the running FEED goes on towards the end it is heading for, or it is the exit. -/
def State.Progresses (s : State) (ses : Session) (r : Run) : Prop :=
  (∃ r', step s = .next (s.setRun ses r') ∧ r.Advances ses r')
    ∨ ∃ j x, finishRun ses r = some ⟨j, r.bytes, r.ferrs, x⟩ ∧ step s = .next (s.exitFeed ses r j)

theorem progresses_of_scan {v : BitVec 4} (hs : s.Inv) (hr : s.Runs ses r) (hv : selector ses r = some v)
    (hp : r.phase = .scan) : s.Progresses ses r := by
  obtain ⟨hses, -⟩ := hs.of_runs hr
  obtain ⟨hb, rfl⟩ | ⟨hb, l, hl, rfl⟩ := (selector_scan_iff hp).mp hv
  · refine .inr ⟨r.i, false, finishRun_scanExit hp hb, ?_⟩
    rw [step_of_selector hr hv (by decide), decodeSelector_scan_outOfBounds]
    exact execScanExit_eq_next.mpr ⟨ses, r, hr, hp, hb, rfl⟩
  · cases l with
    | false => exact .inl (step_of_startBit hs hr hp hb hl)
    | true =>
      refine .inl ⟨{ r with i := r.i + 1 }, ?_, rfl, finishRun_scanSkip hses.1 hp hb hl, ?_⟩
      · rw [step_of_selector hr hv (by decide), decodeSelector_scan_inBound]
        exact execScanSkip_eq_next.mpr ⟨ses, r, hr, hp, hb, hl, rfl⟩
      · have := lt_of_level hl
        simp only [Run.work, hp]
        omega

theorem progresses_of_sample {v : BitVec 4} (hs : s.Inv) (hr : s.Runs ses r) (hv : selector ses r = some v)
    (hp : r.phase = .sample) : s.Progresses ses r := by
  obtain ⟨hses, hrun⟩ := hs.of_runs hr
  obtain rfl := (selector_sample_iff hp).mp hv
  obtain ⟨b, hbyte⟩ := Option.isSome_iff_exists.mp (hses.sampleByte_isSome (hrun.inBound_of_sample hp))
  refine .inl ⟨{ r with phase := .stopchk b }, ?_, rfl, finishRun_sample hp hbyte, by simp [Run.work, hp, Phase.work]⟩
  rw [step_of_selector hr hv (by decide), decodeSelector_sample]
  exact execSample_eq_next.mpr ⟨ses, r, b, hr, hp, hbyte, rfl⟩

theorem progresses_of_stopchk {v : BitVec 4} (hs : s.Inv) (hr : s.Runs ses r) (hv : selector ses r = some v)
    (hp : r.phase = .stopchk b) : s.Progresses ses r := by
  obtain ⟨-, hrun⟩ := hs.of_runs hr
  obtain ⟨l, hl, rfl⟩ := (selector_stopchk_iff hp).mp hv
  have hne {l} : selectorBits (.stopchk b) false l ≠ 0b0010#4 := fun h => nomatch (selectorBits_eq_scanStart h).1
  rw [State.Progresses, step_of_selector hr hv hne, decodeSelector_stopchk]
  cases l with
  | true =>
    refine .inl ⟨_, execStopchkOk_eq_next.mpr ⟨ses, r, b, hr, hp, hl, rfl⟩, rfl, finishRun_stopchkOk hp hl, ?_⟩
    have hstart := hrun.phaseOk
    simp only [Run.phaseOk, hp, Bool.and_eq_true, beq_iff_eq] at hstart
    obtain ⟨⟨-, hstart⟩, -⟩ := hstart
    have := lt_of_level_ne hstart hl
    have := lt_of_level hl
    simp only [Run.work, Run.keepByte_buf, Run.keepByte_i, Run.keepByte_phase, hp, Phase.work]
    omega
  | false =>
    refine .inl ⟨_, execStopchkErr_eq_next.mpr ⟨ses, r, b, hr, hp, hl, rfl⟩, rfl, finishRun_stopchkErr hp hl, ?_⟩
    simp only [Run.work, Run.takeFramingError_buf, Run.takeFramingError_i, Run.takeFramingError_phase, hp, Phase.work]
    omega

theorem progresses_of_resync {v : BitVec 4} (hs : s.Inv) (hr : s.Runs ses r) (hv : selector ses r = some v)
    (hp : r.phase = .resync b) : s.Progresses ses r := by
  obtain ⟨hses, -⟩ := hs.of_runs hr
  have hspare : 0 < ses.timing.spare := Nat.zero_lt_of_lt hses.offsets_lt_spare.1
  have hne {x l} : selectorBits (.resync b) x l ≠ 0b0010#4 := fun h => nomatch (selectorBits_eq_scanStart h).1
  obtain ⟨hb, rfl⟩ | ⟨hb, l, hl, rfl⟩ := (selector_resync_iff hp).mp hv
  · refine .inr ⟨r.i + 1, true, finishRun_resyncExit hp hb, ?_⟩
    rw [step_of_selector hr hv hne, decodeSelector_resync_outOfBounds]
    exact execResyncExit_eq_next.mpr ⟨ses, r, b, hr, hp, hb, rfl⟩
  · rw [State.Progresses, step_of_selector hr hv hne, decodeSelector_resync_inBound]
    have := lt_of_level hl
    cases l with
    | true =>
      refine .inl ⟨_, execResyncDone_eq_next.mpr ⟨ses, r, b, hr, hp, hb, hl, rfl⟩, rfl,
        finishRun_resyncDone hp hb hl, ?_⟩
      simp only [Run.work, Run.returnFromFramingError_buf, Run.returnFromFramingError_i,
        Run.returnFromFramingError_phase, hp, Phase.work]
      omega
    | false =>
      refine .inl ⟨_, execResyncHold_eq_next.mpr ⟨ses, r, b, hr, hp, hb, hl, rfl⟩, rfl,
        finishRun_resyncHold hspare hp hb hl, ?_⟩
      simp only [Run.work, hp]
      omega

/-- A running FEED has no failing path (43_feed_decoder R178). -/
theorem progresses_of_runs (hs : s.Inv) (hr : s.Runs ses r) : s.Progresses ses r := by
  obtain ⟨hses, hrun⟩ := hs.of_runs hr
  obtain ⟨v, hv⟩ := Option.isSome_iff_exists.mp (hses.selector_isSome hrun)
  cases hp : r.phase with
  | scan => exact progresses_of_scan hs hr hv hp
  | sample => exact progresses_of_sample hs hr hv hp
  | stopchk b => exact progresses_of_stopchk hs hr hv hp
  | resync b => exact progresses_of_resync hs hr hv hp

/-- A running FEED reaches the end it is heading for, within four steps for each word left and at most four more
(43_feed_decoder R172 to R174). -/
theorem stepN_to_exit (hs : s.Inv) (hr : s.Runs ses r) : ∃ k ≤ r.work + 1, ∃ e, finishRun ses r = some e
    ∧ stepN k s = .next { s with
        session := some (ses.after r.buf e)
        outbox := s.outbox ++ [.fed e.bytes e.ferrs] } := by
  induction hn : r.work using Nat.strong_induction_on generalizing s ses r with
  | _ n ih =>
    obtain ⟨r', hstep, hbuf, hend, hwork⟩ | ⟨j, x, hend, hstep⟩ := progresses_of_runs hs hr
    · obtain ⟨k, hk, e, he, hrun⟩ :=
        ih r'.work (hn ▸ hwork) (everyStepKeepsInvariant _ _ hs hstep) (s.setRun_runs ses r') rfl
      refine ⟨k + 1, by omega, e, hend ▸ he, ?_⟩
      rw [stepN_succ_of_step hstep, hrun, hbuf]
      rfl
    · exact ⟨1, by omega, _, hend, (stepN_one s).trans hstep⟩

end

end Sys2Proof.Machine
end

section
/-! PROOFS. A session and DECODE on the machine (42_session_control R147, 30_encoding R94): the operations issued one
after another do what the big-step forms do. -/

namespace Sys2Proof.Machine

/-- `s` after the FEEDs of a session gave `o`, with `rest` left to do. -/
def State.afterFeeds (s : State) (o : Outputs) (rest : List Command) : State :=
  { s with session := some o.session, inbox := rest, outbox := s.outbox ++ o.feeds.map FeedResult.reply }

section
variable {s : State} {ses : Session} {rest : List Command}

/-! One issued FEED. -/

theorem State.Rests.not_feeding (h : s.Rests ses) : s.feeding = false := by simp [State.feeding, h.1, h.2]

theorem execFeed_of_not_fits {chunk : List SampleWord} (h : s.Rests ses) (hf : ses.feedFits s.params chunk = false) :
    execFeed chunk s = .refused .feedDoesNotFit := by
  simp [execFeed, State.betweenOperations, h.not_feeding, State.inSession, h.1, hf]

theorem feedWhole_of_not_fits {p : Params} {chunk : List SampleWord} (hf : ses.feedFits p chunk = false) :
    feedWhole p ses chunk = .refused .feedDoesNotFit := by simp [feedWhole, hf]

/-- An issued FEED runs to the result of the big-step form, or stops with its refusal (43_feed_decoder R173, log
entry 9). -/
theorem stepN_feed {chunk : List SampleWord} (hs : s.Inv) (hrest : s.Rests ses)
    (hw : (Instr.feed chunk).wellFormed s.params = true) (hinbox : s.inbox = ⟨0b011, [.chunk chunk]⟩ :: rest) :
    ∃ k, stepN k s = (feedWhole s.params ses chunk).andThen fun o => .next (s.afterFeeds o rest) := by
  have hstep : step s = exec (.feed chunk) { s with inbox := rest } := step_of_issued hrest.not_feeding hinbox rfl hw
  have hrest' : State.Rests { s with inbox := rest } ses := hrest
  cases hf : ses.feedFits s.params chunk with
  | false =>
    refine ⟨1, ?_⟩
    rw [stepN_one, hstep, exec, execFeed_of_not_fits hrest' hf, feedWhole_of_not_fits hf]
    rfl
  | true =>
    have hentry := hstep.trans (execFeed_of_rests hrest' hf)
    obtain ⟨k, -, e, he, hrun⟩ := stepN_to_exit (everyStepKeepsInvariant _ _ hs hentry) ⟨rfl, rfl⟩
    refine ⟨k + 1, ?_⟩
    rw [stepN_succ_of_step hentry, hrun, feedWhole_eq_next.mpr ⟨hf, e, he, rfl⟩]
    rfl

/-! The FEEDs of a session. -/

theorem feedWhole_session_rests {p : Params} {chunk : List SampleWord} {o : Outputs}
    (h : feedWhole p ses chunk = .next o) : o.session.run = none := by
  obtain ⟨-, e, -, rfl⟩ := feedWhole_eq_next.mp h
  rfl

/-- The issued FEEDs run to the results of the big-step form, in order, or stop with its refusal. -/
theorem stepN_feeds {chunks : List (List SampleWord)} (hs : s.Inv) (hrest : s.Rests ses)
    (hw : ∀ c ∈ chunks, (Instr.feed c).wellFormed s.params = true)
    (hinbox : s.inbox = chunks.map (fun c => ⟨0b011, [.chunk c]⟩) ++ rest) :
    ∃ k, stepN k s = (feedAll s.params ses chunks).andThen fun o => .next (s.afterFeeds o rest) := by
  induction chunks generalizing s ses with
  | nil =>
    obtain rfl : s.inbox = rest := hinbox
    exact ⟨0, by simp [stepN_zero, feedAll, Whole.andThen, State.afterFeeds, ← hrest.1]⟩
  | cons c cs ih =>
    obtain ⟨hwc, hwcs⟩ := List.forall_mem_cons.mp hw
    obtain ⟨k, hk⟩ := stepN_feed hs hrest hwc hinbox
    rw [feedAll]
    cases hc : feedWhole s.params ses c with
    | fault f => exact ⟨k, by rw [hk, hc]; rfl⟩
    | refused q => exact ⟨k, by rw [hk, hc]; rfl⟩
    | next a =>
      rw [hc] at hk
      obtain ⟨m, hm⟩ := ih (hs.stepN hk) ⟨rfl, feedWhole_session_rests hc⟩ hwcs rfl
      refine ⟨k + m, ?_⟩
      rw [stepN_add_of_stepN hk, hm]
      change (feedAll s.params a.session cs).andThen _ = ((feedAll s.params a.session cs).andThen _).andThen _
      cases feedAll s.params a.session cs with
      | fault f => rfl
      | refused q => rfl
      | next b => simp [Whole.andThen, State.afterFeeds]

/-! The other issued operations. -/

/-- `s` after BUILD gave `t`, with `rest` left to do. -/
def State.afterBuild (s : State) (t : TimingTable) (rest : List Command) : State :=
  { s with inbox := rest, outbox := s.outbox ++ [.table t] }

theorem step_build_ok {sr br : Number} {t : TimingTable} (hidle : s.feeding = false)
    (hw : (Instr.build sr br).wellFormed s.params = true) (hinbox : s.inbox = ⟨0b000, [.rate sr, .rate br]⟩ :: rest)
    (h : buildTable s.params sr br = .ok t) :
    step s = .next (s.afterBuild t rest) := by
  rw [step_of_issued hidle hinbox rfl hw, exec, execBuild, h]
  rfl

theorem step_build_error {sr br : Number} {c : ErrorCode} (hidle : s.feeding = false)
    (hw : (Instr.build sr br).wellFormed s.params = true) (hinbox : s.inbox = ⟨0b000, [.rate sr, .rate br]⟩ :: rest)
    (h : buildTable s.params sr br = .error c) :
    step s = .next { s with inbox := rest, outbox := s.outbox ++ [.error c] } := by
  rw [step_of_issued hidle hinbox rfl hw, exec, execBuild, h]
  rfl

theorem step_start_ok {t : TimingTable} {ch : Nat} (hidle : s.feeding = false)
    (hinbox : s.inbox = ⟨0b010, [.table t, .natural ch]⟩ :: rest) (h : startSession s.params t ch = .ok ses) :
    step s = .next { s with session := some ses, inbox := rest, outbox := s.outbox ++ [.started] } := by
  rw [step_of_issued hidle hinbox (i := .start t ch) rfl rfl]
  exact execStart_eq_next.mpr ⟨hidle, .inl ⟨ses, h, rfl⟩⟩

theorem step_start_error {t : TimingTable} {ch : Nat} {c : ErrorCode} (hidle : s.feeding = false)
    (hinbox : s.inbox = ⟨0b010, [.table t, .natural ch]⟩ :: rest) (h : startSession s.params t ch = .error c) :
    step s = .next { s with session := none, inbox := rest, outbox := s.outbox ++ [.error c] } := by
  rw [step_of_issued hidle hinbox (i := .start t ch) rfl rfl]
  exact execStart_eq_next.mpr ⟨hidle, .inr ⟨c, h, rfl⟩⟩

theorem step_finish (hrest : s.Rests ses) (hinbox : s.inbox = ⟨0b100, []⟩ :: rest) :
    step s = .next { s with session := none, inbox := rest, outbox := s.outbox ++ [.finished] } := by
  rw [step_of_issued hrest.not_feeding hinbox (i := .finish) rfl rfl]
  exact execFinish_eq_next.mpr ⟨hrest.not_feeding, .inr ⟨by simp [hrest.1], rfl⟩⟩

/-! A whole session. -/

/-- `s` after START, the FEEDs that gave `o`, and FINISH, with `rest` left to do. -/
def State.afterSession (s : State) (o : Outputs) (rest : List Command) : State :=
  { s with
    session := none, inbox := rest
    outbox := s.outbox ++ (.started :: o.feeds.map FeedResult.reply ++ [.finished]) }

theorem State.afterBuild_afterSession (s : State) (t : TimingTable) (o : Outputs) (rest rest' : List Command) :
    (s.afterBuild t rest).afterSession o rest' = { s with
      session := none, inbox := rest'
      outbox := s.outbox ++ (.table t :: .started :: o.feeds.map FeedResult.reply ++ [.finished]) } := by
  simp [State.afterBuild, State.afterSession]

theorem feedAll_session_rests {p : Params} {chunks : List (List SampleWord)} {o : Outputs} (hrun : ses.run = none)
    (h : feedAll p ses chunks = .next o) : o.session.run = none := by
  induction chunks generalizing ses o with
  | nil => cases h; exact hrun
  | cons c cs ih =>
    obtain ⟨a, b, ha, hb, rfl⟩ := feedAll_cons_eq_next.mp h
    exact ih (o := b) (feedWhole_session_rests ha) hb

/-- START, the FEEDs and FINISH, issued in this order, run to the results of the big-step form, or stop with its
refusal (42_session_control R147). -/
theorem stepN_session {t : TimingTable} {ch : Nat} {chunks : List (List SampleWord)} (hidle : s.feeding = false)
    (hstart : startSession s.params t ch = .ok ses) (hw : ∀ c ∈ chunks, (Instr.feed c).wellFormed s.params = true)
    (hinbox : s.inbox =
      ⟨0b010, [.table t, .natural ch]⟩ :: (chunks.map (fun c => ⟨0b011, [.chunk c]⟩) ++ ⟨0b100, []⟩ :: rest)) :
    ∃ k, stepN k s = (feedAll s.params ses chunks).andThen fun o => .next (s.afterSession o rest) := by
  have hstep := step_start_ok hidle hinbox hstart
  obtain ⟨hch, -, -, hfresh⟩ := startSession_eq_ok.mp hstart
  have hrun : ses.run = none := by rw [hfresh]; rfl
  have hinv : State.Inv { s with
      session := some ses, inbox := chunks.map (fun c => ⟨0b011, [.chunk c]⟩) ++ ⟨0b100, []⟩ :: rest
      outbox := s.outbox ++ [.started] } :=
    ⟨Nat.one_le_of_lt hch, fun _ h => Option.some.inj h ▸ Session.inv_of_startSession hstart⟩
  obtain ⟨k, hk⟩ := stepN_feeds hinv ⟨rfl, hrun⟩ hw rfl
  rw [← stepN_succ_of_step hstep] at hk
  change _ = (feedAll s.params ses chunks).andThen _ at hk
  cases hfeeds : feedAll s.params ses chunks with
  | fault f => exact ⟨k + 1, by rw [hk, hfeeds]; rfl⟩
  | refused q => exact ⟨k + 1, by rw [hk, hfeeds]; rfl⟩
  | next o =>
    rw [hfeeds] at hk
    refine ⟨k + 1 + 1, ?_⟩
    rw [stepN_add_of_stepN hk, stepN_one, step_finish ⟨rfl, feedAll_session_rests hrun hfeeds⟩ rfl]
    simp [Whole.andThen, State.afterFeeds, State.afterSession]

end

/-! With a well-formed table the FEEDs of a session are refused or give their results. -/

theorem feedWhole_total {p : Params} {ses : Session} (hw : ses.timing.wellFormed = true) (chunk : List SampleWord) :
    (∃ o, feedWhole p ses chunk = .next o) ∨ feedWhole p ses chunk = .refused .feedDoesNotFit := by
  cases hf : ses.feedFits p chunk with
  | false => exact .inr (feedWhole_of_not_fits hf)
  | true =>
    obtain ⟨e, he, -⟩ := feedLoop_total (ch := ses.chan) (cursor := ses.cursor) (buf := ses.feedBuffer chunk) hw
    exact .inl ⟨_, feedWhole_eq_next.mpr ⟨hf, e, he, rfl⟩⟩

theorem feedAll_total {p : Params} {ses : Session} (hw : ses.timing.wellFormed = true)
    (chunks : List (List SampleWord)) :
    (∃ o, feedAll p ses chunks = .next o) ∨ feedAll p ses chunks = .refused .feedDoesNotFit := by
  induction chunks generalizing ses with
  | nil => exact .inl ⟨_, rfl⟩
  | cons c cs ih =>
    obtain ⟨a, ha⟩ | hrefused := feedWhole_total (p := p) hw c
    · obtain ⟨htiming, -⟩ := feedWhole_cuts_feedBuffer hw ha
      obtain ⟨b, hb⟩ | hrefused := ih (ses := a.session) (htiming ▸ hw)
      · exact .inl ⟨_, feedAll_cons_eq_next.mpr ⟨a, b, ha, hb, rfl⟩⟩
      · exact .inr (by rw [feedAll, ha]; simp only [Whole.andThen, hrefused])
    · exact .inr (by rw [feedAll, hrefused]; rfl)

/-- Settles O59: BUILD hands over its table or its error, START opens the session or reports its error, and the rest is
the session of `stepN_session`, whose results `decodeCapture` concatenates. -/
theorem decodeRunsOnTheMachine : Obligations.DecodeRunsOnTheMachine := by
  intro s sr br ch chunks rest hidle hbw hcw
  refine ⟨fun c hbuild hinbox => ⟨?_, step_build_error hidle hbw hinbox hbuild⟩, fun t hbuild => ⟨?_, ?_⟩⟩
  · simp only [decodeCapture, hbuild]
  · intro c hstart hinbox
    have hfailed := step_start_error (s := s.afterBuild t _) (rest := rest) hidle rfl hstart
    have hrun : stepN 2 s =
        .next { s with session := none, inbox := rest, outbox := s.outbox ++ [.table t, .error c] } := by
      rw [stepN_succ_of_step (step_build_ok hidle hbw hinbox hbuild), stepN_one, hfailed]
      simp [State.afterBuild]
    exact ⟨by simp only [decodeCapture, hbuild, hstart], hrun⟩
  · intro ses hstart hinbox
    rw [List.cons_append, List.cons_append] at hinbox
    obtain ⟨k, hk⟩ := stepN_session (s := s.afterBuild t _) hidle hstart hcw rfl
    rw [← stepN_succ_of_step (step_build_ok hidle hbw hinbox hbuild)] at hk
    change _ = (feedAll s.params ses chunks).andThen _ at hk
    obtain ⟨-, hw, -, rfl⟩ := startSession_eq_ok.mp hstart
    obtain ⟨o, ho⟩ | hrefused := feedAll_total (p := s.params) (ses := .fresh t ch) hw chunks
    · rw [ho] at hk
      refine .inl ⟨o.feeds.map fun f => (f.bytes, f.ferrs), ?_, ?_, k + 1, ?_⟩
      · rw [List.length_map, feedAll_feeds_length ho]
      · simp only [decodeCapture, hbuild, hstart, ho, Whole.andThen, finishSession, Outputs.bytes, Outputs.ferrs,
          List.flatMap_map]
      · rw [List.map_map]
        exact hk.trans (congrArg _ (s.afterBuild_afterSession t o _ rest))
    · rw [hrefused] at hk
      exact .inr ⟨by simp only [decodeCapture, hbuild, hstart, hrefused, Whole.andThen], k + 1, hk⟩

end Sys2Proof.Machine
end

section
/-! PROOFS. Rounding to nearest even (40_timing_model R116): measured as a rational, the rounded value does not
decrease with the numerator, and a half-integer of few enough bits is kept. -/

namespace Sys2Proof

/-! `roundEven` lies between the two neighbouring natural numbers. -/

section
variable {num num' den n : Nat}

theorem div_le_roundEven (num den : Nat) : num / den ≤ roundEven num den := by
  unfold roundEven
  dsimp only
  split_ifs <;> omega

theorem roundEven_le_div_add_one (num den : Nat) : roundEven num den ≤ num / den + 1 := by
  unfold roundEven
  dsimp only
  split_ifs <;> omega

theorem roundEven_mul_right (n : Nat) (hden : 0 < den) : roundEven (n * den) den = n := by
  simp [roundEven, hden]

theorem roundEven_mono (den : Nat) (h : num ≤ num') : roundEven num den ≤ roundEven num' den := by
  obtain hlt | heq := (Nat.div_le_div_right (c := den) h).lt_or_eq
  · exact (roundEven_le_div_add_one num den).trans (hlt.trans_le (div_le_roundEven num' den))
  · have hnum := Nat.div_add_mod num den
    have hnum' := Nat.div_add_mod num' den
    unfold roundEven
    dsimp only
    rw [heq] at hnum ⊢
    split_ifs <;> omega

theorem roundEven_le_of_le_mul (hden : 0 < den) (h : num ≤ n * den) : roundEven num den ≤ n :=
  (roundEven_mono den h).trans_eq (roundEven_mul_right n hden)

theorem le_roundEven_of_mul_le (hden : 0 < den) (h : n * den ≤ num) : n ≤ roundEven num den :=
  (roundEven_mul_right n hden).symm.trans_le (roundEven_mono den h)

end

/-! The scaling by `2 ^ e` of `roundAt` and `exponentOf`, as a comparison of rationals. -/

section
variable {num num' den n : Nat} {e : Int}

theorem two_zpow_eq_div (e : Int) : (2 : ℚ) ^ e = 2 ^ e.toNat / 2 ^ (-e).toNat := by
  rw [← zpow_natCast, ← zpow_natCast, ← zpow_sub₀ two_ne_zero, Int.toNat_sub_toNat_neg]

theorem scaled_le_iff (hden : 0 < den) :
    num * 2 ^ (-e).toNat ≤ n * (den * 2 ^ e.toNat) ↔ (num / den : ℚ) ≤ n * 2 ^ e := by
  rw [two_zpow_eq_div, ← mul_div_assoc, div_le_div_iff₀ (by positivity) (by positivity), ← Nat.cast_le (α := ℚ)]
  push_cast
  rw [mul_assoc (n : ℚ), mul_comm (den : ℚ)]

theorem le_scaled_iff (hden : 0 < den) :
    n * (den * 2 ^ e.toNat) ≤ num * 2 ^ (-e).toNat ↔ n * (2 : ℚ) ^ e ≤ num / den := by
  rw [two_zpow_eq_div, ← mul_div_assoc, div_le_div_iff₀ (by positivity) (by positivity), ← Nat.cast_le (α := ℚ)]
  push_cast
  rw [mul_assoc (n : ℚ), mul_comm (den : ℚ)]

theorem roundAt_le (hden : 0 < den) (h : (num / den : ℚ) ≤ n * 2 ^ e) : roundAt num den e ≤ n :=
  roundEven_le_of_le_mul (by positivity) ((scaled_le_iff hden).mpr h)

theorem le_roundAt (hden : 0 < den) (h : n * (2 : ℚ) ^ e ≤ num / den) : n ≤ roundAt num den e :=
  le_roundEven_of_mul_le (by positivity) ((le_scaled_iff hden).mpr h)

theorem roundAt_mono (den : Nat) (e : Int) (h : num ≤ num') : roundAt num den e ≤ roundAt num' den e :=
  roundEven_mono _ (Nat.mul_le_mul_right _ h)

theorem two_zpow_le_iff {x : ℚ} (hx : 0 < x) : (2 : ℚ) ^ e ≤ x ↔ e ≤ Int.log 2 x := by
  exact_mod_cast Int.zpow_le_iff_le_log one_lt_two hx

theorem lt_two_zpow_iff {x : ℚ} (hx : 0 < x) : x < (2 : ℚ) ^ e ↔ Int.log 2 x < e := by
  exact_mod_cast Int.lt_zpow_iff_log_lt one_lt_two hx

/-- The two bit lengths give the logarithm but for one, which `exponentOf` tests. -/
theorem exponentOf_eq_log (hnum : 0 < num) (hden : 0 < den) : exponentOf num den = Int.log 2 (num / den : ℚ) := by
  have hx : (0 : ℚ) < num / den := by positivity
  have hnumLe : (2 : ℚ) ^ num.log2 ≤ num := by exact_mod_cast Nat.log2_self_le hnum.ne'
  have hdenLe : (2 : ℚ) ^ den.log2 ≤ den := by exact_mod_cast Nat.log2_self_le hden.ne'
  have hnumLt : (num : ℚ) < 2 ^ (num.log2 + 1) := by exact_mod_cast Nat.lt_log2_self
  have hdenLt : (den : ℚ) < 2 ^ (den.log2 + 1) := by exact_mod_cast Nat.lt_log2_self
  have hupper : (num / den : ℚ) < 2 ^ (((num.log2 + 1 : ℕ) : Int) - den.log2) := by
    rw [zpow_sub₀ two_ne_zero, zpow_natCast, zpow_natCast]
    gcongr
  have hlower : (2 : ℚ) ^ ((num.log2 : Int) - (den.log2 + 1 : ℕ)) ≤ num / den := by
    rw [zpow_sub₀ two_ne_zero, zpow_natCast, zpow_natCast]
    gcongr
  rw [lt_two_zpow_iff hx] at hupper
  rw [two_zpow_le_iff hx] at hlower
  have htest := le_scaled_iff (num := num) (n := 1) (e := (num.log2 : Int) - den.log2) hden
  rw [one_mul, Nat.cast_one, one_mul, two_zpow_le_iff hx] at htest
  unfold exponentOf
  dsimp only
  split_ifs <;> omega

theorem exponentOf_mono (hnum : 0 < num) (hden : 0 < den) (h : num ≤ num') :
    exponentOf num den ≤ exponentOf num' den := by
  rw [exponentOf_eq_log hnum hden, exponentOf_eq_log (hnum.trans_le h) hden]
  exact Int.log_mono_right (by positivity) (by gcongr)

theorem two_zpow_eq_mul {x : Int} (he : e ≤ x) : (2 : ℚ) ^ x = (2 ^ (x - e).toNat : ℕ) * 2 ^ e := by
  rw [Nat.cast_pow, Nat.cast_two, ← zpow_natCast, ← zpow_add₀ two_ne_zero, Int.toNat_of_nonneg (by omega),
    sub_add_cancel]

/-- A power of two on the grid bounds the rounded value where it bounds the number. -/
theorem roundAt_mul_le_two_zpow {x : Int} (hden : 0 < den) (he : e ≤ x) (h : (num / den : ℚ) ≤ 2 ^ x) :
    roundAt num den e * (2 : ℚ) ^ e ≤ 2 ^ x := by
  rw [two_zpow_eq_mul he] at h ⊢
  exact mul_le_mul_of_nonneg_right (Nat.cast_le.mpr (roundAt_le hden h)) (by positivity)

theorem two_zpow_le_roundAt_mul {x : Int} (hden : 0 < den) (he : e ≤ x) (h : (2 : ℚ) ^ x ≤ num / den) :
    (2 : ℚ) ^ x ≤ roundAt num den e * 2 ^ e := by
  rw [two_zpow_eq_mul he] at h ⊢
  exact mul_le_mul_of_nonneg_right (Nat.cast_le.mpr (le_roundAt hden h)) (by positivity)

end

/-! The value of `roundBinary`. -/

section
variable {prec emax num num' den n : Nat}

/-- The value that a binary format rounds `num / den > 0` to, before the test for overflow. -/
def roundedValue (prec emax num den : Nat) : ℚ :=
  roundAt num den (lastPlace prec emax num den) * 2 ^ lastPlace prec emax num den

/-- Where the last place moves up from `num` to `num'`, the power of two at the exponent of `num'` lies between the two
numbers and on both grids. -/
theorem roundedValue_mono (hprec : 1 ≤ prec) (hnum : 0 < num) (hden : 0 < den) (h : num ≤ num') :
    roundedValue prec emax num den ≤ roundedValue prec emax num' den := by
  have hexp := exponentOf_mono hnum hden h
  have hle : lastPlace prec emax num den ≤ lastPlace prec emax num' den := by
    unfold lastPlace
    omega
  obtain heq | hlt := hle.eq_or_lt
  · unfold roundedValue
    rw [heq]
    exact mul_le_mul_of_nonneg_right (Nat.cast_le.mpr (roundAt_mono den _ h)) (by positivity)
  · have hexpLt : exponentOf num den < exponentOf num' den := by
      unfold lastPlace at hlt
      omega
    have hplace : lastPlace prec emax num' den ≤ exponentOf num' den := by
      unfold lastPlace at hlt ⊢
      omega
    have hbelow : (num / den : ℚ) < 2 ^ exponentOf num' den :=
      (lt_two_zpow_iff (by positivity)).mpr (exponentOf_eq_log hnum hden ▸ hexpLt)
    have habove : (2 : ℚ) ^ exponentOf num' den ≤ num' / den :=
      (two_zpow_le_iff (by have := hnum.trans_le h; positivity)).mpr (exponentOf_eq_log (hnum.trans_le h) hden).le
    exact (roundAt_mul_le_two_zpow hden (hle.trans hplace) hbelow.le).trans (two_zpow_le_roundAt_mul hden hplace habove)

@[simp] theorem roundBinary_zero (prec emax den : Nat) : roundBinary prec emax 0 den = .finite false 0 1 := rfl

/-- A finite result of rounding is not negative and its denominator is no zero. -/
theorem pos_of_roundBinary_eq_finite {s : Bool} {a b : Nat} (h : roundBinary prec emax num den = .finite s a b) :
    s = false ∧ 0 < b := by
  unfold roundBinary at h
  dsimp only at h
  split_ifs at h <;> obtain ⟨rfl, -, rfl⟩ := Number.finite.inj h <;> simp

theorem floor_roundBinary (hnum : 0 < num) (h : (roundBinary prec emax num den).floor = some n) :
    n = ⌊roundedValue prec emax num den⌋₊ := by
  unfold roundBinary at h
  rw [if_neg hnum.ne'] at h
  dsimp only at h
  split_ifs at h
  · cases h
  · rw [roundedValue, two_zpow_eq_div, ← mul_div_assoc, ← Option.some.inj h,
      ← Nat.floor_div_eq_div (K := ℚ)]
    push_cast
    rfl

theorem floor_roundBinary_mono (hprec : 1 ≤ prec) (hden : 0 < den) (hle : num ≤ num') {n' : Nat}
    (h : (roundBinary prec emax num den).floor = some n) (h' : (roundBinary prec emax num' den).floor = some n') :
    n ≤ n' := by
  obtain rfl | hnum := num.eq_zero_or_pos
  · obtain rfl : 0 = n := by simpa [Number.floor] using h
    exact Nat.zero_le n'
  · rw [floor_roundBinary hnum h, floor_roundBinary (hnum.trans_le hle) h']
    exact Nat.floor_le_floor (roundedValue_mono hprec hnum hden hle)

/-- A multiple of the last place `2 ^ -d` that does not overflow is kept. -/
theorem roundBinary_of_mul_two_pow {d : Nat} (hnum : num ≠ 0) (hden : 0 < den)
    (hplace : lastPlace prec emax num den = -(d : Int))
    (hgrid : num * 2 ^ d = n * den) (hmax : n < 2 ^ (emax + 1) * 2 ^ d) :
    roundBinary prec emax num den = .finite false n (2 ^ d) := by
  have hround : roundAt num den (-(d : Int)) = n := by
    simp [roundAt, hgrid, roundEven_mul_right n hden]
  simp [roundBinary, hnum, hplace, hround, hmax.not_ge]

/-- Half of a natural number of at most 53 bits is a binary64 value. -/
theorem roundBinary_binary64_of_half {h : Nat} (hpos : 0 < h) (hlt : h < 2 ^ 53) (hden : 0 < den)
    (hhalf : num * 2 = h * den) :
    ∃ d, roundBinary 53 1023 num den = .finite false (h * 2 ^ d) (2 * 2 ^ d) := by
  have hnum : 0 < num := by
    have := Nat.mul_pos hpos hden
    omega
  have hexp : exponentOf num den < 52 := by
    rw [exponentOf_eq_log hnum hden, ← lt_two_zpow_iff (by positivity), div_lt_iff₀ (by positivity)]
    have : num < 2 ^ 52 * den := by
      have := Nat.mul_lt_mul_of_pos_right hlt hden
      omega
    exact_mod_cast this
  obtain ⟨d, hplace⟩ : ∃ d : Nat, lastPlace 53 1023 num den = -((d + 1 : ℕ) : Int) :=
    ⟨(-lastPlace 53 1023 num den - 1).toNat, by unfold lastPlace; omega⟩
  have hgrid : num * 2 ^ (d + 1) = h * 2 ^ d * den := by
    rw [pow_succ', ← mul_assoc, hhalf, mul_right_comm]
  have hmax : h * 2 ^ d < 2 ^ (1023 + 1) * 2 ^ (d + 1) := by
    gcongr <;> omega
  exact ⟨d, (roundBinary_of_mul_two_pow hnum.ne' hden hplace hgrid hmax).trans (by rw [pow_succ'])⟩

end

/-! The two operations of a binary format, and the test of a rate. -/

@[simp] theorem Number.signed_false (x : Number) : Number.signed false x = x := by
  cases x <;> simp [Number.signed]

theorem fmul_binary (prec emax a b c d : Nat) : fmul (.binary prec emax) (.finite false a b) (.finite false c d)
    = roundBinary prec emax (a * c) (b * d) := by
  simp [fmul, multiply, FloatFmt.round]

theorem fdiv_binary (prec emax a b : Nat) {c : Nat} (hc : 0 < c) (d : Nat) :
    fdiv (.binary prec emax) (.finite false a b) (.finite false c d)
      = roundBinary prec emax (a * d) (b * c) := by
  simp [fdiv, divide, FloatFmt.round, hc.ne']

theorem Number.isPositive_iff {x : Number} : x.isPositive = true ↔ ∃ a b, x = .finite false a b ∧ 0 < a := by
  unfold Number.isPositive
  split <;> simp_all

end Sys2Proof
end

section
/-! PROOFS. BUILD (40_timing_model R110 to R119): when it hands over a table and which, that the table does not decrease,
and that it is exact for an integer skip. -/

namespace Sys2Proof.Machine

/-! What BUILD answers. -/

section
variable {p : Params} {skip sr br : Number} {t : TimingTable}

theorem samplePoint_eq_some_iff {halves n : Nat} : samplePoint p skip halves = some n ↔
    (fmul p.fmt (.finite false halves 2) skip).floor = some n ∧ p.fitsIdx n = true := by
  unfold samplePoint multiplier
  cases (fmul p.fmt (.finite false halves 2) skip).floor with
  | none => simp
  | some m =>
    simp only [Option.ite_none_right_eq_some, Option.some.injEq]
    exact ⟨fun ⟨hfits, hm⟩ => ⟨hm, hm ▸ hfits⟩, fun ⟨hm, hfits⟩ => ⟨hm ▸ hfits, hm⟩⟩

/-- The table of `skip` holds its ten sample points (40_timing_model R113 to R115). -/
theorem tableOfSkip_eq_some_iff : tableOfSkip p skip = some t ↔
    (∀ k : Fin 8, samplePoint p skip (2 * k.val + 3) = some (t.off k))
      ∧ samplePoint p skip 19 = some t.stop ∧ samplePoint p skip 20 = some t.spare := by
  simp only [tableOfSkip, Option.bind_eq_bind, Option.bind_eq_some_iff, Option.pure_def, Option.some.injEq]
  constructor
  · rintro ⟨o0, h0, o1, h1, o2, h2, o3, h3, o4, h4, o5, h5, o6, h6, o7, h7, stop, hstop, spare, hspare, rfl⟩
    refine ⟨fun k => ?_, hstop, hspare⟩
    fin_cases k <;> assumption
  · rintro ⟨hoff, hstop, hspare⟩
    exact ⟨_, hoff 0, _, hoff 1, _, hoff 2, _, hoff 3, _, hoff 4, _, hoff 5, _, hoff 6, _, hoff 7, _, hstop, _, hspare,
      rfl⟩

theorem buildTable_eq_ok_iff : buildTable p sr br = .ok t ↔
    sr.isPositive = true ∧ br.isPositive = true ∧ (fdiv p.fmt sr br).isFinite = true
      ∧ tableOfSkip p (fdiv p.fmt sr br) = some t := by
  unfold buildTable
  dsimp only
  split_ifs with hsr hbr hfin
  · cases tableOfSkip p (fdiv p.fmt sr br) <;> simp [hsr, hbr, hfin]
  · simp [hfin]
  · simp [hbr]
  · simp [hsr]

/-- The result BUILD hands over (40_timing_model R110). -/
def buildReply (p : Params) (sr br : Number) : Reply :=
  match buildTable p sr br with
  | .ok t => .table t
  | .error c => .error c

theorem buildReply_of_ok (h : buildTable p sr br = .ok t) : buildReply p sr br = .table t := by
  rw [buildReply, h]

theorem exec_build (s : State) (sr br : Number) :
    exec (.build sr br) s = .next (s.deliver (buildReply s.params sr br)) := by
  change execBuild sr br s = _
  unfold execBuild buildReply
  cases buildTable s.params sr br <;> rfl

end

/-- Settles O16: what BUILD hands over is `buildReply` of the parameters and the rates. -/
theorem buildIsPure : Obligations.BuildIsPure := by
  intro p sr br
  refine ⟨buildReply p sr br, fun s hp => ?_⟩
  subst hp
  exact exec_build s sr br

/-- Settles O14: each floor that exists and fits is its sample point. -/
theorem buildReturnsTheFloors : Obligations.BuildReturnsTheFloors := by
  intro s sr br skip o stop spare hsr hbr hskip hfin hoff hstop hstopFits hspare hspareFits
  subst hskip
  have htable : buildTable s.params sr br = .ok ⟨o 0, o 1, o 2, o 3, o 4, o 5, o 6, o 7, stop, spare⟩ := by
    refine buildTable_eq_ok_iff.mpr ⟨hsr, hbr, hfin, tableOfSkip_eq_some_iff.mpr ⟨fun k => ?_,
      samplePoint_eq_some_iff.mpr ⟨hstop, hstopFits⟩, samplePoint_eq_some_iff.mpr ⟨hspare, hspareFits⟩⟩⟩
    rw [samplePoint_eq_some_iff.mpr (hoff k)]
    fin_cases k <;> rfl
  rw [exec_build, buildReply_of_ok htable]
  rfl

/-! The table does not decrease (40_timing_model R119). -/

section
variable {fmt : FloatFmt} {sr br : Number}

/-- A finite skip of two positive rates is a quotient, in a binary format with a positive denominator. -/
theorem fdiv_eq_finite (hfmt : (∃ prec emax, fmt = .binary prec emax) ∨ fmt = .exact) (hsr : sr.isPositive = true)
    (hbr : br.isPositive = true) (hfin : (fdiv fmt sr br).isFinite = true) :
    ∃ a b, fdiv fmt sr br = .finite false a b ∧ (fmt = .exact ∨ 0 < b) := by
  obtain ⟨a, b, rfl, ha⟩ := Number.isPositive_iff.mp hsr
  obtain ⟨c, d, rfl, hc⟩ := Number.isPositive_iff.mp hbr
  obtain ⟨prec, emax, rfl⟩ | rfl := hfmt
  · rw [fdiv_binary prec emax a b hc d] at hfin ⊢
    cases hround : roundBinary prec emax (a * d) (b * c) with
    | finite s n m =>
      obtain ⟨rfl, hm⟩ := pos_of_roundBinary_eq_finite hround
      exact ⟨n, m, rfl, .inr hm⟩
    | infinite s => simp [hround, Number.isFinite] at hfin
    | nan => simp [hround, Number.isFinite] at hfin
  · exact ⟨a * d, b * c, by simp [fdiv, divide, FloatFmt.round, hc.ne'], .inl rfl⟩

/-- A product with a larger multiplier has no smaller floor. -/
theorem floor_fmul_mono (hfmt : (∃ prec emax, fmt = .binary prec emax ∧ 1 ≤ prec) ∨ fmt = .exact) {a b : Nat}
    (hden : fmt = .exact ∨ 0 < b) {halves halves' n n' : Nat} (hle : halves ≤ halves')
    (h : (fmul fmt (.finite false halves 2) (.finite false a b)).floor = some n)
    (h' : (fmul fmt (.finite false halves' 2) (.finite false a b)).floor = some n') : n ≤ n' := by
  have hnum : halves * a ≤ halves' * a := Nat.mul_le_mul_right a hle
  obtain ⟨prec, emax, rfl, hprec⟩ | rfl := hfmt
  · have hb : 0 < 2 * b := Nat.mul_pos two_pos (hden.resolve_left (by simp))
    rw [fmul_binary] at h h'
    exact floor_roundBinary_mono hprec hb hnum h h'
  · obtain rfl : halves * a / (2 * b) = n := Option.some.inj h
    obtain rfl : halves' * a / (2 * b) = n' := Option.some.inj h'
    exact Nat.div_le_div_right hnum

end

/-- Settles O18: the ten sample points are floors of products of one skip with growing multipliers. -/
theorem builtTableDoesNotDecrease : Obligations.BuiltTableDoesNotDecrease := by
  intro p sr br t hfmt h
  obtain ⟨hsr, hbr, hfin, htable⟩ := buildTable_eq_ok_iff.mp h
  obtain ⟨hoff, hstop, hspare⟩ := tableOfSkip_eq_some_iff.mp htable
  obtain ⟨a, b, hskip, hden⟩ := fdiv_eq_finite
    (hfmt.imp_left fun ⟨prec, emax, hbin, _⟩ => ⟨prec, emax, hbin⟩) hsr hbr hfin
  rw [hskip] at hoff hstop hspare
  have hmono {halves halves' n n' : Nat} (hle : halves ≤ halves')
      (hn : samplePoint p (.finite false a b) halves = some n)
      (hn' : samplePoint p (.finite false a b) halves' = some n') : n ≤ n' :=
    floor_fmul_mono hfmt hden hle (samplePoint_eq_some_iff.mp hn).1 (samplePoint_eq_some_iff.mp hn').1
  have hnext (k k' : Fin 8) (hk : k ≤ k') : t.off k ≤ t.off k' := hmono (by omega) (hoff k) (hoff k')
  exact ⟨hnext 0 1 (by decide), hnext 1 2 (by decide), hnext 2 3 (by decide), hnext 3 4 (by decide),
    hnext 4 5 (by decide), hnext 5 6 (by decide), hnext 6 7 (by decide), hmono (by decide) (hoff 7) hstop,
    hmono (by decide) hstop hspare⟩

/-! An integer skip (40_timing_model R116). -/

section
variable {k b : Nat}

/-- A skip `k` is kept by binary64, as some fraction of value `k`. -/
theorem fdiv_binary64_of_integerSkip (hk : 1 ≤ k) (hlt : k < 2 ^ 48) (hb : 1 ≤ b) :
    ∃ d, fdiv .binary64 (.ofNat (k * b)) (.ofNat b) = .finite false (2 * k * 2 ^ d) (2 * 2 ^ d) := by
  obtain ⟨d, hd⟩ := roundBinary_binary64_of_half (h := 2 * k) (num := k * b * 1) (den := 1 * b)
    (by omega) (by omega) (by omega) (by ring)
  exact ⟨d, (fdiv_binary 53 1023 (k * b) 1 hb 1).trans hd⟩

/-- Each product of the skip `k` is a half-integer below 2^52, which binary64 keeps. -/
theorem samplePoint_of_integerSkip {p : Params} (hfmt : p.fmt = .binary64) (hidx : p.idxBits = none) (hk : 1 ≤ k)
    (hlt : k < 2 ^ 48) (d : Nat) {halves : Nat} (hpos : 0 < halves) (hle : halves ≤ 20) :
    samplePoint p (.finite false (2 * k * 2 ^ d) (2 * 2 ^ d)) halves = some (halves * k / 2) := by
  have hbound : halves * k < 2 ^ 53 := by
    have := Nat.mul_le_mul_right k hle
    omega
  obtain ⟨d', hd'⟩ := roundBinary_binary64_of_half (h := halves * k) (num := halves * (2 * k * 2 ^ d))
    (den := 2 * (2 * 2 ^ d)) (Nat.mul_pos hpos hk) hbound (by positivity) (by ring)
  refine samplePoint_eq_some_iff.mpr ⟨?_, by simp [Params.fitsIdx, fitsBits, hidx]⟩
  rw [hfmt, FloatFmt.binary64, fmul_binary, hd', Number.floor,
    Nat.mul_div_mul_right _ _ (by positivity)]

end

/-- Settles O17: the quotient and the ten products are half-integers that binary64 holds, so nothing is rounded. -/
theorem buildIsExactOnIntegerSkip : Obligations.BuildIsExactOnIntegerSkip := by
  intro s k b hfmt hidx hk hlt hb
  obtain ⟨d, hskip⟩ := fdiv_binary64_of_integerSkip hk hlt hb
  have hpoint {halves : Nat} (hpos : 0 < halves) (hle : halves ≤ 20) :=
    samplePoint_of_integerSkip hfmt hidx hk hlt d hpos hle
  have htable : buildTable s.params (.ofNat (k * b)) (.ofNat b) = .ok (integerTable k) := by
    rw [buildTable_eq_ok_iff, hfmt, hskip]
    refine ⟨decide_eq_true (Nat.mul_pos hk hb), decide_eq_true hb, rfl,
      tableOfSkip_eq_some_iff.mpr ⟨fun i => ?_, ?_, ?_⟩⟩
    · have hoff : (2 * i.val + 3) * k = 2 * ((i.val + 1) * k) + k := by ring
      rw [hpoint (by omega) (by omega), integerTable_off, hoff]
      congr 1
      omega
    · exact hpoint (by decide) (by decide)
    · have hspare : (integerTable k).spare = 20 * k / 2 := by
        simp only [integerTable]
        omega
      rw [hpoint (by decide) le_rfl, hspare]
  rw [exec_build, buildReply_of_ok htable]
  rfl

end Sys2Proof.Machine
end

section
/-! PROOFS. The frame of the five host operations (40_timing_model R117, 41_channel_extractor R133, 43_feed_decoder R161,
42_session_control section 2). -/

namespace Sys2Proof.Machine

/-- Settles O43, operation by operation: each answers with one named update of the state. -/
theorem hostOperationFrame : Obligations.HostOperationFrame := by
  intro s t
  refine ⟨fun sr br h => ?build, fun w ch h => ?ishigh, fun tt ch h => ?start, fun h => ?finish,
    fun chunk ses hses h => ?feed⟩
  case build =>
    obtain ⟨x, rfl⟩ := eq_deliver_of_execBuild h
    simp
  case ishigh =>
    obtain ⟨-, rfl⟩ := execIshigh_eq_next.mp h
    simp
  case start =>
    obtain ⟨-, ⟨ses, -, rfl⟩ | ⟨c, -, rfl⟩⟩ := execStart_eq_next.mp h <;> simp
  case finish =>
    obtain ⟨-, ⟨hnone, rfl⟩ | ⟨-, rfl⟩⟩ := execFinish_eq_next.mp h
    · simp [hnone]
    · simp
  case feed =>
    obtain ⟨-, ⟨hnone, -⟩ | ⟨ses', hses', -, rfl⟩⟩ := execFeed_eq_next.mp h
    · simp [hnone] at hses
    · obtain rfl : ses = ses' := Option.some.inj (hses.symm.trans hses')
      simp

end Sys2Proof.Machine
end

section
/-! PROOFS. The Channel Extractor (41_channel_extractor R130, R132): what ISHIGH hands over for a channel of the word. -/

namespace Sys2Proof.Machine

/-- For a channel of the word ISHIGH hands over the bit of that weight (41_channel_extractor R130). -/
theorem exec_ishigh_of_lt {s : State} {ch : Nat} (h : ch < s.params.w) (word : SampleWord) :
    exec (.ishigh word ch) s = .next (s.deliver (.level (word.testBit ch))) :=
  execIshigh_eq_next.mpr ⟨h, by rw [isHigh_eq_testBit]⟩

/-- Settles O19: ISHIGH's mask and test is the bit at the channel's position, and only `outbox` takes it up. -/
theorem ishighReturnsTheBit : Obligations.IshighReturnsTheBit :=
  fun _ word _ h => exec_ishigh_of_lt h word

end Sys2Proof.Machine
end

section
/-! PROOFS. The FEEDs of a session compose, and the machine runs them (42_session_control R147). -/

namespace Sys2Proof.Machine

/-! `Whole.andThen` obeys the laws of a bind. -/

section
variable {α β γ : Type}

@[simp] theorem Whole.next_andThen (a : α) (k : α → Whole β) : Whole.andThen (.next a) k = k a := rfl

theorem Whole.andThen_next (x : Whole α) : x.andThen .next = x := by cases x <;> rfl

theorem Whole.andThen_assoc (x : Whole α) (k : α → Whole β) (l : β → Whole γ) :
    (x.andThen k).andThen l = x.andThen fun a => (k a).andThen l := by cases x <;> rfl

end

section
variable (p : Params) (ses : Session)

theorem feedAll_singleton (c : List SampleWord) : feedAll p ses [c] = feedWhole p ses c := by
  simp only [feedAll, Whole.next_andThen, List.append_nil]
  exact Whole.andThen_next _

/-- The stops of the first list come first, and the results join by associativity (42_session_control R147). -/
theorem feedAll_append (cs ds : List (List SampleWord)) : feedAll p ses (cs ++ ds) =
    (feedAll p ses cs).andThen fun a =>
      (feedAll p a.session ds).andThen fun b => .next { session := b.session, feeds := a.feeds ++ b.feeds } := by
  induction cs generalizing ses with
  | nil => exact (Whole.andThen_next _).symm
  | cons c cs ih => simp [feedAll, ih, Whole.andThen_assoc]

end

/-- Settles O58: the FEEDs are bound one after another, and binding is associative. -/
theorem sessionsCompose : Obligations.SessionsCompose :=
  fun p ses => ⟨feedAll_singleton p ses, feedAll_append p ses⟩

/-- Settles O50: START's conditions open the fresh session, the rest is the run of `stepN_session`, and with a
well-formed table `feedAll` gives its results or a refusal. -/
theorem machineRunsTheSession : Obligations.MachineRunsTheSession := by
  intro s t ch chunks rest hidle hch hw hfits hcw hinbox
  have hstart : startSession s.params t ch = .ok (.fresh t ch) := startSession_eq_ok.mpr ⟨hch, hw, hfits, rfl⟩
  obtain ⟨k, hk⟩ := stepN_session hidle hstart hcw hinbox
  refine ⟨fun o ho => ⟨feedAll_feeds_length ho, k, ?_⟩, fun q hq => ⟨k, ?_⟩, fun f hf => ?_⟩
  · rw [ho] at hk
    exact hk
  · rw [hq] at hk
    exact hk
  · obtain ⟨o, ho⟩ | hrefused := feedAll_total (p := s.params) (ses := .fresh t ch) hw chunks
    · cases ho.symm.trans hf
    · cases hrefused.symm.trans hf

end Sys2Proof.Machine
end

section
/-! PROOFS. FEED entry and six of its micro-steps, each under the condition of its row (43_feed_decoder R161 to
R168). -/

namespace Sys2Proof.Machine

/-- With a session open and no FEED running, FEED enters exactly where the size test passes (43_feed_decoder R161). -/
theorem execFeed_eq_next_iff_of_rests {s t : State} {ses : Session} {chunk : List SampleWord} (h : s.Rests ses) :
    execFeed chunk s = .next t ↔
      ses.feedFits s.params chunk = true ∧ t = s.openSession (ses.enterFeed chunk) := by
  cases hf : ses.feedFits s.params chunk with
  | true => simp [execFeed_of_rests h hf, eq_comm]
  | false => simp [execFeed_of_not_fits h hf]

/-- Settles O27: the two hypotheses on the sizes are FEED's size test, and the rest is its entry. -/
theorem feedEntersScan : Obligations.FeedEntersScan := by
  intro s ses chunk hrest hidx hcur
  rw [← List.length_append] at hidx
  have hfits : ses.feedFits s.params chunk = true := by
    refine feedFits_iff.mpr ⟨hidx, fun e he => ?_⟩
    obtain ⟨hexit, hevents⟩ := hcur e he
    exact Bool.and_eq_true_iff.mpr ⟨hexit, List.all_eq_true.mpr hevents⟩
  exact execFeed_of_rests hrest hfits

/-- Settles O29 by SCAN.SKIP's law. -/
theorem scanSkipStepsOver : Obligations.ScanSkipStepsOver :=
  fun _ ses r hr hp hb hl => execScanSkip_eq_next.mpr ⟨ses, r, hr, hp, (inBound_iff _ _ _).mpr hb, hl, rfl⟩

/-- Settles O30 by SCAN.START's law. -/
theorem scanStartFindsTheStartBit : Obligations.ScanStartFindsTheStartBit :=
  fun _ ses r hr hp hb hl => execScanStart_eq_next.mpr ⟨ses, r, hr, hp, (inBound_iff _ _ _).mpr hb, hl, rfl⟩

/-- Settles O31 by SCAN.EXIT's law. -/
theorem scanExitSavesTheRump : Obligations.ScanExitSavesTheRump :=
  fun _ ses r hr hp hb => execScanExit_eq_next.mpr ⟨ses, r, hr, hp, (not_inBound_iff _ _ _).mpr hb, rfl⟩

/-- Settles O32: the byte SAMPLE assembles from the eight levels has them as its bits. -/
theorem sampleReadsEightLevels : Obligations.SampleReadsEightLevels := by
  intro s ses r l hr hp hl
  have hbyte := (sampleByte_eq_some_iff _ _ _ _ _).mpr ⟨l, hl, rfl⟩
  exact ⟨_, getLsbD_byteOfLevels l, execSample_eq_next.mpr ⟨ses, r, _, hr, hp, hbyte, rfl⟩⟩

/-- Settles O33 by STOPCHK.OK's law. -/
theorem stopchkOkKeepsTheByte : Obligations.StopchkOkKeepsTheByte :=
  fun _ ses r b hr hp hl => execStopchkOk_eq_next.mpr ⟨ses, r, b, hr, hp, hl, rfl⟩

/-- Settles O34 by STOPCHK.ERR's law. -/
theorem stopchkErrTakesTheEvent : Obligations.StopchkErrTakesTheEvent :=
  fun _ ses r b hr hp hl => execStopchkErr_eq_next.mpr ⟨ses, r, b, hr, hp, hl, rfl⟩

/-- Settles O55: in a buffer shorter than SPARE the index 0 is out of bounds, so the selector of the entry names
SCAN.EXIT, which leaves at 0. -/
theorem shortBufferIsKept : Obligations.ShortBufferIsKept := by
  intro s t ses chunk hrest hshort h
  obtain ⟨-, rfl⟩ := (execFeed_eq_next_iff_of_rests hrest).mp h
  have hr : (s.openSession (ses.enterFeed chunk)).Runs (ses.enterFeed chunk) ⟨ses.rump ++ chunk, .scan, 0, [], []⟩ :=
    ⟨rfl, rfl⟩
  have hout : inBound ses.timing (ses.rump ++ chunk) 0 = false := (not_inBound_iff _ _ _).mpr (by omega)
  rw [step_of_selector hr ((selector_scan_iff rfl).mpr (.inl ⟨hout, rfl⟩)) (by decide)]
  exact execScanExit_eq_next.mpr ⟨_, _, hr, rfl, hout, rfl⟩

end Sys2Proof.Machine
end

section
/-! PROOFS. FEED in the large (43_feed_decoder R176, R178, R181): it cannot fail, it leaves fewer than SPARE words, and
what it makes of a line that never changes. -/

namespace Sys2Proof.Machine

/-- Settles O5: a step that goes on and the exit both answer a next state. -/
theorem runningFeedNeverStops : Obligations.RunningFeedNeverStops := by
  intro s hs hf
  obtain ⟨ses, r, hr⟩ := s.feeding_iff_runs.mp hf
  obtain ⟨r', hstep, -⟩ | ⟨j, x, -, hstep⟩ := progresses_of_runs hs hr
  · exact ⟨_, hstep⟩
  · exact ⟨_, hstep⟩

theorem feedWhole_rump_lt_spare {p : Params} {ses : Session} {chunk : List SampleWord} {o : Outputs}
    (hw : ses.timing.wellFormed = true) (h : feedWhole p ses chunk = .next o) :
    o.session.rump.length < ses.timing.spare := by
  obtain ⟨-, e, he, rfl⟩ := feedWhole_eq_next.mp h
  obtain ⟨e', he', hi, hout⟩ := feedLoop_total (ch := ses.chan) (cursor := ses.cursor) (buf := ses.feedBuffer chunk) hw
  obtain rfl : e' = e := Option.some.inj (he'.symm.trans he)
  exact length_drop_lt_spare hi hout

/-- Settles O47: with no chunk RUMP is as it was, and each FEED leaves a short one. -/
theorem rumpStaysShort : Obligations.RumpStaysShort := by
  intro p ses chunks o hw hshort h
  induction chunks generalizing ses o with
  | nil => cases h; exact hshort
  | cons chunk chunks ih =>
    obtain ⟨a, b, ha, hb, rfl⟩ := feedAll_cons_eq_next.mp h
    obtain ⟨htiming, -⟩ := feedWhole_cuts_feedBuffer hw ha
    have hshort' := feedWhole_rump_lt_spare hw ha
    rw [← htiming] at hw hshort' ⊢
    exact ih a.session b hw hshort' hb

/-! A line that never changes (43_feed_decoder R181). -/

/-- A FEED that fits leaves where its loop does. -/
theorem feedWhole_of_scans {p : Params} {ses : Session} {chunk : List SampleWord} {e : FeedEnd}
    (hw : ses.timing.wellFormed = true) (hfits : ses.feedFits p chunk = true)
    (h : Scans ses.timing ses.chan ses.cursor (ses.rump ++ chunk) 0 [] [] e) :
    feedWhole p ses chunk =
      .next ⟨ses.after (ses.rump ++ chunk) e, [⟨e.bytes, e.ferrs, e.resyncExit⟩]⟩ := by
  obtain ⟨e', he', -⟩ := feedLoop_total (ch := ses.chan) (cursor := ses.cursor) (buf := ses.rump ++ chunk) hw
  obtain rfl := (scans_of_feedLoop he').unique h
  exact feedWhole_eq_next.mpr ⟨hfits, e', he', rfl⟩

section
variable {t : TimingTable} {ch cursor : Nat} {buf : List SampleWord}

/-- On a line of one level every read gives that level. -/
theorem level_of_constantLine {l : Bool} (hline : ∀ w ∈ buf, w.testBit ch = l) {j : Nat} (hj : j < buf.length) :
    level ch buf j = some l := by
  rw [level_eq_getElem?_map, List.getElem?_map, List.getElem?_eq_getElem hj, Option.map_some,
    hline _ (List.getElem_mem hj)]

/-- SCAN steps over a high line to its first index out of bounds. -/
theorem scans_of_highLine (hspare : 0 < t.spare) (hline : ∀ w ∈ buf, w.testBit ch = true) (bytes : List Byte)
    (ferrs : List Nat) {i : Nat} (hi : i ≤ buf.length + 1 - t.spare) :
    Scans t ch cursor buf i bytes ferrs ⟨buf.length + 1 - t.spare, bytes, ferrs, false⟩ := by
  induction hi using Nat.decreasingInduction with
  | self => exact .exit ((not_inBound_iff _ _ _).mpr (by omega))
  | of_succ i hlt ih =>
    exact .skip ((inBound_iff _ _ _).mpr (by omega)) (level_of_constantLine hline (by omega)) ih

/-- RESYNC on a low line finds no high sample and leaves out of bounds. -/
theorem resyncLoop_of_lowLine (hspare : 0 < t.spare) (hline : ∀ w ∈ buf, w.testBit ch = false) {i : Nat}
    (hi : i < buf.length) : ∃ j, resyncLoop t ch buf (buf.length + 1) i = some (.exhausted j) := by
  obtain ⟨x, hx, hfrom⟩ := resyncLoop_total (ch := ch) hspare (buf.length + 1) i hi (by omega)
  cases x with
  | exhausted j => exact ⟨j, hx⟩
  | kept j =>
    obtain ⟨-, -, hhigh⟩ := hfrom
    simp [level_of_constantLine hline (lt_of_level hhigh)] at hhigh

end

/-- Settles O53: the loop steps over every in-bound word and leaves at index `N + 1 - SPARE`. -/
theorem idleLineGivesNothing : Obligations.IdleLineGivesNothing := by
  intro p ses chunk hw hfits hline
  have hspare : 0 < ses.timing.spare := Nat.zero_lt_of_lt ((TimingTable.wellFormed_iff _).mp hw).2
  have hscan := scans_of_highLine (cursor := ses.cursor) hspare hline [] [] (Nat.zero_le _)
  exact ⟨_, feedWhole_of_scans hw hfits hscan, rfl, rfl, rfl, fun _ => rfl⟩

/-- Settles O54: index 0 is a low start sample in bounds, its stop sample is low, and RESYNC finds no high one. -/
theorem lowLineGivesOneEvent : Obligations.LowLineGivesOneEvent := by
  intro p ses chunk hw hfits hline hlen
  have hstopSpare := ((TimingTable.wellFormed_iff _).mp hw).2
  have hb : inBound ses.timing (ses.rump ++ chunk) 0 = true := (inBound_iff _ _ _).mpr (by omega)
  obtain ⟨b, hbyte⟩ := sampleByte_of_inBound ses.chan hw hb
  obtain ⟨j, hend⟩ := resyncLoop_of_lowLine (t := ses.timing) (i := 0 + ses.timing.stop) (by omega) hline (by omega)
  have hscan := Scans.resyncExit (cursor := ses.cursor) (bytes := []) (ferrs := []) b j hb
    (level_of_constantLine hline (by omega)) hbyte (level_of_constantLine hline (by omega)) hend
  exact ⟨_, feedWhole_of_scans hw hfits hscan, rfl, by simp [Outputs.ferrs], rfl⟩

end Sys2Proof.Machine
end

section
/-! PROOFS. The transitions of a running FEED as one relation (43_feed_decoder R182): what a step does, where a FEED can
end, and how each phase is entered. -/

namespace Sys2Proof.Machine

/-- What a row makes of a running FEED: it goes on, or it ends with this `I`. -/
inductive Move where
  | goOn (r : Run)
  | exit (i : Nat)

/-- The state after a move of the FEED that runs as `r` in `s`. -/
def Move.apply (s : State) (ses : Session) (r : Run) : Move → State
  | .goOn r' => s.setRun ses r'
  | .exit i => s.exitFeed ses r i

/-- Where the running FEED stands, the row makes this move: the nine transitions of 43_feed_decoder R182 and the two
frames as sampled (30_encoding R83). -/
inductive Run.Moves (t : TimingTable) (ch cursor : Nat) (r : Run) : Instr → Move → Prop
  | scanSkip (hp : r.phase = .scan) (hb : inBound t r.buf r.i = true) (hl : level ch r.buf r.i = some true) :
      Moves t ch cursor r .scanSkip (.goOn { r with i := r.i + 1 })
  | scanStart (hp : r.phase = .scan) (hb : inBound t r.buf r.i = true) (hl : level ch r.buf r.i = some false) :
      Moves t ch cursor r .scanStart (.goOn { r with phase := .sample })
  | scanExit (hp : r.phase = .scan) (hb : inBound t r.buf r.i = false) : Moves t ch cursor r .scanExit (.exit r.i)
  | sample (b : Byte) (hp : r.phase = .sample) (hbyte : sampleByte t ch r.buf r.i = some b) :
      Moves t ch cursor r .sample (.goOn { r with phase := .stopchk b })
  | stopchkOk (b : Byte) (hp : r.phase = .stopchk b) (hl : level ch r.buf (r.i + t.stop) = some true) :
      Moves t ch cursor r .stopchkOk (.goOn (r.keepByte b (r.i + t.stop)))
  | stopchkErr (b : Byte) (hp : r.phase = .stopchk b) (hl : level ch r.buf (r.i + t.stop) = some false) :
      Moves t ch cursor r .stopchkErr (.goOn (r.takeFramingError cursor b (r.i + t.stop)))
  | resyncHold (b : Byte) (hp : r.phase = .resync b) (hb : inBound t r.buf (r.i + 1) = true)
      (hl : level ch r.buf (r.i + 1) = some false) : Moves t ch cursor r .resyncHold (.goOn { r with i := r.i + 1 })
  | resyncDone (b : Byte) (hp : r.phase = .resync b) (hb : inBound t r.buf (r.i + 1) = true)
      (hl : level ch r.buf (r.i + 1) = some true) :
      Moves t ch cursor r .resyncDone (.goOn (r.returnFromFramingError b (r.i + 1)))
  | resyncExit (b : Byte) (hp : r.phase = .resync b) (hb : inBound t r.buf (r.i + 1) = false) :
      Moves t ch cursor r .resyncExit (.exit (r.i + 1))
  | frameOk (b : Byte) (hp : r.phase = .scan) (hb : inBound t r.buf r.i = true) (hl : level ch r.buf r.i = some false)
      (hbyte : sampleByte t ch r.buf r.i = some b) (hstop : level ch r.buf (r.i + t.stop) = some true) :
      Moves t ch cursor r (.frameOk b) (.goOn (r.keepByte b (r.i + t.stop)))
  | frameErr (b : Byte) (hp : r.phase = .scan) (hb : inBound t r.buf r.i = true) (hl : level ch r.buf r.i = some false)
      (hbyte : sampleByte t ch r.buf r.i = some b) (hstop : level ch r.buf (r.i + t.stop) = some false) :
      Moves t ch cursor r (.frameErr b) (.goOn (r.takeFramingError cursor b (r.i + t.stop)))

section
variable {s t : State} {ses : Session} {r : Run} {i : Instr} {m m' : Move}

theorem Move.apply_inj (h : Move.apply s ses r m = Move.apply s ses r m') : m = m' := by
  have hsession := congrArg State.session h
  cases m with
  | goOn r₁ => cases m' with
    | goOn r₂ => simpa [Move.apply] using hsession
    | exit j => simp [Move.apply] at hsession
  | exit i => cases m' with
    | goOn r₂ => simp [Move.apply] at hsession
    | exit j =>
      obtain ⟨rfl, -⟩ : i = j ∧ _ := by simpa [Move.apply] using hsession
      rfl

/-- A row whose condition holds makes its move. -/
theorem Run.Moves.exec (h : r.Moves ses.timing ses.chan ses.cursor i m) (hr : s.Runs ses r) :
    exec i s = .next (m.apply s ses r) := by
  cases h with
  | scanSkip hp hb hl => exact execScanSkip_eq_next.mpr ⟨ses, r, hr, hp, hb, hl, rfl⟩
  | scanStart hp hb hl => exact execScanStart_eq_next.mpr ⟨ses, r, hr, hp, hb, hl, rfl⟩
  | scanExit hp hb => exact execScanExit_eq_next.mpr ⟨ses, r, hr, hp, hb, rfl⟩
  | sample b hp hbyte => exact execSample_eq_next.mpr ⟨ses, r, b, hr, hp, hbyte, rfl⟩
  | stopchkOk b hp hl => exact execStopchkOk_eq_next.mpr ⟨ses, r, b, hr, hp, hl, rfl⟩
  | stopchkErr b hp hl => exact execStopchkErr_eq_next.mpr ⟨ses, r, b, hr, hp, hl, rfl⟩
  | resyncHold b hp hb hl => exact execResyncHold_eq_next.mpr ⟨ses, r, b, hr, hp, hb, hl, rfl⟩
  | resyncDone b hp hb hl => exact execResyncDone_eq_next.mpr ⟨ses, r, b, hr, hp, hb, hl, rfl⟩
  | resyncExit b hp hb => exact execResyncExit_eq_next.mpr ⟨ses, r, b, hr, hp, hb, rfl⟩
  | frameOk b hp hb hl hbyte hstop => exact execFrameOk_eq_next.mpr ⟨ses, r, hr, hp, hb, hl, hbyte, hstop, rfl⟩
  | frameErr b hp hb hl hbyte hstop => exact execFrameErr_eq_next.mpr ⟨ses, r, hr, hp, hb, hl, hbyte, hstop, rfl⟩

/-- A row that is no command and answers a next state has made its move. -/
theorem moves_of_exec (hi : ∀ c, encode i ≠ .cmd c) (h : exec i s = .next t) :
    ∃ ses r m, s.Runs ses r ∧ r.Moves ses.timing ses.chan ses.cursor i m ∧ t = m.apply s ses r := by
  cases i with
  | build sr br => exact absurd rfl (hi _)
  | ishigh w ch => exact absurd rfl (hi _)
  | start tt ch => exact absurd rfl (hi _)
  | feed chunk => exact absurd rfl (hi _)
  | finish => exact absurd rfl (hi _)
  | scanSkip =>
    obtain ⟨ses, r, hr, hp, hb, hl, rfl⟩ := execScanSkip_eq_next.mp h
    exact ⟨ses, r, _, hr, .scanSkip hp hb hl, rfl⟩
  | scanStart =>
    obtain ⟨ses, r, hr, hp, hb, hl, rfl⟩ := execScanStart_eq_next.mp h
    exact ⟨ses, r, _, hr, .scanStart hp hb hl, rfl⟩
  | scanExit =>
    obtain ⟨ses, r, hr, hp, hb, rfl⟩ := execScanExit_eq_next.mp h
    exact ⟨ses, r, _, hr, .scanExit hp hb, rfl⟩
  | sample =>
    obtain ⟨ses, r, b, hr, hp, hbyte, rfl⟩ := execSample_eq_next.mp h
    exact ⟨ses, r, _, hr, .sample b hp hbyte, rfl⟩
  | stopchkOk =>
    obtain ⟨ses, r, b, hr, hp, hl, rfl⟩ := execStopchkOk_eq_next.mp h
    exact ⟨ses, r, _, hr, .stopchkOk b hp hl, rfl⟩
  | stopchkErr =>
    obtain ⟨ses, r, b, hr, hp, hl, rfl⟩ := execStopchkErr_eq_next.mp h
    exact ⟨ses, r, _, hr, .stopchkErr b hp hl, rfl⟩
  | resyncHold =>
    obtain ⟨ses, r, b, hr, hp, hb, hl, rfl⟩ := execResyncHold_eq_next.mp h
    exact ⟨ses, r, _, hr, .resyncHold b hp hb hl, rfl⟩
  | resyncDone =>
    obtain ⟨ses, r, b, hr, hp, hb, hl, rfl⟩ := execResyncDone_eq_next.mp h
    exact ⟨ses, r, _, hr, .resyncDone b hp hb hl, rfl⟩
  | resyncExit =>
    obtain ⟨ses, r, b, hr, hp, hb, rfl⟩ := execResyncExit_eq_next.mp h
    exact ⟨ses, r, _, hr, .resyncExit b hp hb, rfl⟩
  | frameOk b =>
    obtain ⟨ses, r, hr, hp, hb, hl, hbyte, hstop, rfl⟩ := execFrameOk_eq_next.mp h
    exact ⟨ses, r, _, hr, .frameOk b hp hb hl hbyte hstop, rfl⟩
  | frameErr b =>
    obtain ⟨ses, r, hr, hp, hb, hl, hbyte, hstop, rfl⟩ := execFrameErr_eq_next.mp h
    exact ⟨ses, r, _, hr, .frameErr b hp hb hl hbyte hstop, rfl⟩

/-- A running FEED is at a selector or, in grain `frame` alone, at a frame as sampled (log entry 5). -/
theorem nextRow_cases {g : Grain} {e : Encoded} (h : nextRow g ses r = some e) :
    (∃ v, e = .sel v) ∨ g = .frame ∧ ∃ v, e = .sf v := by
  unfold nextRow at h
  split at h
  · cases h
  · cases h; exact .inl ⟨_, rfl⟩
  · split at h
    · obtain ⟨v, -, rfl⟩ := Option.map_eq_some_iff.mp h
      exact .inr ⟨rfl, v, rfl⟩
    · cases h; exact .inl ⟨_, rfl⟩

/-- The row a running FEED is at is no command, and a frame only in grain `frame`. -/
theorem encode_of_nextRow {g : Grain} {e : Encoded} (h : nextRow g ses r = some e) (hd : decode e = .ok i) :
    (∃ v, encode i = .sel v) ∨ g = .frame ∧ ∃ v, encode i = .sf v := by
  obtain ⟨-, hsf, hsel, -⟩ := encodeOfDecode
  obtain ⟨v, rfl⟩ | ⟨hg, v, rfl⟩ := nextRow_cases h
  · obtain ⟨u, hu, -⟩ := hsel v i hd
    exact .inl ⟨u, hu⟩
  · exact .inr ⟨hg, v, hsf v i hd⟩

/-- Everything a step of a running FEED can do: the move of the row it is at. -/
theorem step_eq_next_iff_of_runs (hr : s.Runs ses r) : step s = .next t ↔
    ∃ e i m, nextRow s.grain ses r = some e ∧ decode e = .ok i ∧ r.Moves ses.timing ses.chan ses.cursor i m
      ∧ t = m.apply s ses r := by
  constructor
  · intro h
    obtain ⟨hidle, -⟩ | ⟨hidle, -⟩ | ⟨ses', r', e, i, hr', hrow, hd, hexec⟩ := step_next_cases h
    · simp [State.feeding_of_runs hr] at hidle
    · simp [State.feeding_of_runs hr] at hidle
    · have hcmd : ∀ c, encode i ≠ .cmd c := by
        intro c hc
        obtain ⟨v, hv⟩ | ⟨-, v, hv⟩ := encode_of_nextRow hrow hd <;> cases hc.symm.trans hv
      obtain ⟨ses₁, r₁, m, hr₁, hm, rfl⟩ := moves_of_exec hcmd hexec
      obtain ⟨rfl, rfl⟩ := hr.unique hr'
      obtain ⟨rfl, rfl⟩ := hr'.unique hr₁
      exact ⟨e, i, m, hrow, hd, hm, rfl⟩
  · rintro ⟨e, i, m, hrow, hd, hm, rfl⟩
    exact (step_of_nextRow hr hrow hd).trans (hm.exec hr)

theorem Move.feeding_apply : (Move.apply s ses r m).feeding = true ↔ ∃ r', m = .goOn r' := by
  cases m <;> simp [Move.apply, State.feeding]

end

/-- Settles O45: of the moves of a running FEED only those of SCAN.EXIT and RESYNC.EXIT end it. -/
theorem feedEndsOnlyAtTheTwoExits : Obligations.FeedEndsOnlyAtTheTwoExits := by
  intro s t ses r hr h hend
  obtain ⟨-, i, m, -, -, hm, rfl⟩ := (step_eq_next_iff_of_runs hr).mp h
  cases m with
  | goOn r' => simp [Move.feeding_apply.mpr ⟨r', rfl⟩] at hend
  | exit j =>
    cases hm with
    | scanExit hp hb => exact ⟨_, .inl ⟨hp, rfl⟩, (not_inBound_iff _ _ _).mp hb, rfl⟩
    | resyncExit b hp hb => exact ⟨_, .inr ⟨⟨b, hp⟩, rfl⟩, (not_inBound_iff _ _ _).mp hb, rfl⟩

/-- Settles O42, move by move: in grain `micro` no frame row is selected, and each micro-step leaves in the phase of
its line of R182. -/
theorem phasesFollowTheTable : Obligations.PhasesFollowTheTable := by
  intro s t a b r q hgrain hr h ht
  obtain ⟨e, i, m, hrow, hd, hm, rfl⟩ := (step_eq_next_iff_of_runs hr).mp h
  obtain ⟨r', rfl⟩ := Move.feeding_apply.mp (State.feeding_of_runs ht)
  obtain ⟨rfl, rfl⟩ := (s.setRun_runs a r').unique ht
  have hmicro : ∃ v, encode i = .sel v := by
    obtain hsel | ⟨hframe, -⟩ := encode_of_nextRow hrow hd
    · exact hsel
    · cases hgrain.symm.trans hframe
  cases hm with
  | scanSkip hp hb hl => simp [hp]
  | scanStart hp hb hl => simp [hp, hb, hl]
  | sample x hp hbyte => simp [hp]
  | stopchkOk x hp hl => simp
  | stopchkErr x hp hl => simp [hp, hl]
  | resyncHold x hp hb hl => simp [hp, hl]
  | resyncDone x hp hb hl => simp
  | frameOk x hp hb hl hbyte hstop => simp [encode] at hmicro
  | frameErr x hp hb hl hbyte hstop => simp [encode] at hmicro

end Sys2Proof.Machine
end

section
/-! PROOFS. The small steps of a FEED reach its big-step form (43_feed_decoder R173, R174) whether or not the block
meets the invariant: a running FEED reads neither the parameters nor RUMP, so it runs as in a block that does. -/

namespace Sys2Proof.Machine

/-- Unbounded parameters with words wide enough for channel `ch` and for every word of `buf`. -/
def holdingParams (ch : Nat) (buf : List SampleWord) : Params :=
  { w := ch + 1 + buf.sum, chunkMax := none, idxBits := none, curBits := none, fmt := .exact }

/-- The session in which only the FEED `r` runs, with no RUMP. -/
def Session.runningAlone (ses : Session) (r : Run) : Session := { ses with rump := [], run := some r }

/-- `s` with the FEED `r` running alone under the parameters `p`. -/
def State.twin (s : State) (p : Params) (ses : Session) (r : Run) : State :=
  { s with params := p, session := some (ses.runningAlone r) }

section
variable {s : State} {p : Params} {ses : Session} {r : Run}

theorem fitsCur_holdingParams (ch : Nat) (buf : List SampleWord) (n : Nat) :
    (holdingParams ch buf).fitsCur n = true := rfl

theorem Memory.wf_holdingParams (ch : Nat) (buf : List SampleWord) : Memory.wf (holdingParams ch buf) buf = true := by
  simp only [Memory.wf, List.all_eq_true, wordFits, decide_eq_true_eq]
  intro w hw
  have hle : w ≤ (holdingParams ch buf).w := (List.le_sum_of_mem hw).trans (Nat.le_add_left _ _)
  exact hle.trans_lt Nat.lt_two_pow_self

/-- A FEED that enters with a well-formed table meets the invariant under parameters that hold its buffer. -/
theorem Session.inv_runningAlone_entry (hw : ses.timing.wellFormed = true) (buf : List SampleWord) :
    (ses.runningAlone ⟨buf, .scan, 0, [], []⟩).Inv (holdingParams ses.chan buf) := by
  have hspare : 0 < ses.timing.spare := Nat.zero_lt_of_lt ((TimingTable.wellFormed_iff _).mp hw).2
  refine ⟨hw, rfl, ?_, hspare, rfl, rfl, fun r hr => ?_⟩
  · simp only [Session.runningAlone, holdingParams]
    omega
  · obtain rfl := Option.some.inj hr
    exact ⟨Nat.zero_le _, rfl, List.nil_prefix, Memory.wf_holdingParams _ _, ⟨.nil, by simp, le_rfl⟩, rfl,
      fun e _ => by simp [FeedEnd.fits, fitsCur_holdingParams]⟩

theorem State.inv_twin (s : State) (h : (ses.runningAlone r).Inv p) : (s.twin p ses r).Inv := by
  have ⟨_, _, hch, _⟩ := h
  exact ⟨Nat.one_le_of_lt hch, fun _ heq => Option.some.inj heq ▸ h⟩

theorem State.twin_runs : (s.twin p ses r).Runs (ses.runningAlone r) r := ⟨rfl, rfl⟩

/-- A running FEED moves as its twin does. -/
theorem step_of_step_twin {m : Move} (hr : s.Runs ses r)
    (h : step (s.twin p ses r) = .next (m.apply (s.twin p ses r) (ses.runningAlone r) r)) :
    step s = .next (m.apply s ses r) := by
  obtain ⟨e, i, m', hrow, hd, hm, heq⟩ := (step_eq_next_iff_of_runs State.twin_runs).mp h
  obtain rfl := Move.apply_inj heq
  exact (step_eq_next_iff_of_runs hr).mpr ⟨e, i, m, hrow, hd, hm, rfl⟩

/-- As `stepN_to_exit`, for a state of which only the running FEED is sound. -/
theorem stepN_to_exit_of_runningAlone (h : (ses.runningAlone r).Inv p) (hr : s.Runs ses r) :
    ∃ k ≤ r.work + 1, ∃ e, finishRun ses r = some e
      ∧ stepN k s = .next { s with
          session := some (ses.after r.buf e)
          outbox := s.outbox ++ [.fed e.bytes e.ferrs] } := by
  induction hn : r.work using Nat.strong_induction_on generalizing s ses r with
  | _ n ih =>
    have hinv := s.inv_twin h
    obtain ⟨r', hstep, hbuf, hend, hwork⟩ | ⟨j, x, hend, hstep⟩ := progresses_of_runs hinv State.twin_runs
    · have hinv' := (everyStepKeepsInvariant _ _ hinv hstep).2 _ rfl
      obtain ⟨k, hk, e, he, hrun⟩ :=
        ih r'.work (hn ▸ hwork) (ses := { ses with run := some r' }) hinv' (s.setRun_runs ses r') rfl
      refine ⟨k + 1, by omega, e, hend ▸ he, ?_⟩
      rw [stepN_succ_of_step (step_of_step_twin (m := .goOn r') hr hstep), Move.apply, hrun, hbuf]
      rfl
    · exact ⟨1, by omega, _, hend, (stepN_one s).trans (step_of_step_twin (m := .exit j) hr hstep)⟩

end

/-- Settles O49: the FEED enters with `4 N + 3` micro-steps of work at most, heading for the end of the loop. -/
theorem smallStepsReachTheBigStep : Obligations.SmallStepsReachTheBigStep := by
  intro s t ses chunk hrest hw h
  obtain ⟨hfits, rfl⟩ := (execFeed_eq_next_iff_of_rests hrest).mp h
  obtain ⟨k, hk, e, he, hrun⟩ := stepN_to_exit_of_runningAlone (s := s.openSession (ses.enterFeed chunk))
    (ses := ses.enterFeed chunk) (Session.inv_runningAlone_entry hw (ses.rump ++ chunk)) ⟨rfl, rfl⟩
  exact ⟨k, _, _, hk, feedWhole_eq_next.mpr ⟨hfits, e, he, rfl⟩, hrun⟩

end Sys2Proof.Machine
end

section
/-! PROOFS. Where a micro-step or a frame row stops (43_feed_decoder R182, 10_state R35): with no FEED running, or not
being the row selected. -/

namespace Sys2Proof.Machine

/-- The nine rows of format SEL. -/
def microSteps : List Instr :=
  [.scanSkip, .scanStart, .scanExit, .sample, .stopchkOk, .stopchkErr, .resyncHold, .resyncDone, .resyncExit]

theorem decodeSelector_mem_microSteps : ∀ v, decodeSelector v ∈ microSteps := by decide

section
variable {s : State} {ses : Session} {r : Run} {levels : BitVec 10} {k : Session → Run → Answer}

theorem exec_microStep_of_not_feeding (h : s.feeding = false) : ∀ i ∈ microSteps, exec i s = .fault .noValue := by
  simp [microSteps, exec, execScanSkip, execScanStart, execScanExit, execSample, execStopchkOk, execStopchkErr,
    execResyncHold, execResyncDone, execResyncExit, onFeed_of_not_feeding h]

theorem Phase.isScan_iff {ph : Phase} : ph.isScan = true ↔ ph = .scan := by
  cases ph <;> simp [Phase.isScan]

@[simp] theorem require_false (k : Answer) : require false k = .refused .notSelected := rfl

@[simp] theorem require_true (k : Answer) : require true k = k := rfl

theorem requireLevel_of_level {j : Nat} {l : Bool} (h : level ses.chan r.buf j = some l) (high : Bool) (k : Answer) :
    requireLevel ses r j high k = require (l == high) k := by rw [requireLevel, h, withRead]

/-- The selector fixes the phase and, where the row tests them, the bound and the level: every micro-step but the one it
names fails one of these tests. -/
theorem exec_microStep_of_unselected {u : BitVec 4} (hr : s.Runs ses r) (hsel : selector ses r = some u) :
    ∀ i ∈ microSteps, decodeSelector u ≠ i → exec i s = .refused .notSelected := by
  simp only [microSteps, exec, execScanSkip, execScanStart, execScanExit, execSample, execStopchkOk, execStopchkErr,
    execResyncHold, execResyncDone, execResyncExit, onFeed_of_runs hr]
  cases hp : r.phase with
  | scan =>
    obtain ⟨hb, rfl⟩ | ⟨hb, l, hl, rfl⟩ := (selector_scan_iff hp).mp hsel
    · simp [hb, Phase.isScan, Phase.isSample]
    · cases l <;> simp [hb, requireLevel_of_level hl, Phase.isScan, Phase.isSample]
  | sample =>
    obtain rfl := (selector_sample_iff hp).mp hsel
    simp [Phase.isScan]
  | stopchk b =>
    obtain ⟨l, hl, rfl⟩ := (selector_stopchk_iff hp).mp hsel
    cases l <;> simp [requireLevel_of_level hl, Phase.isScan, Phase.isSample]
  | resync b =>
    obtain ⟨hb, rfl⟩ | ⟨hb, l, hl, rfl⟩ := (selector_resync_iff hp).mp hsel
    · simp [hb, Phase.isScan, Phase.isSample]
    · cases l <;> simp [hb, requireLevel_of_level hl, Phase.isScan, Phase.isSample]

theorem onFrame_of_not_scan_inBound (hr : s.Runs ses r) (h : r.phase ≠ .scan ∨ inBound ses.timing r.buf r.i = false) :
    onFrame s levels k = .refused .notSelected := by
  have hcond : (r.phase.isScan && inBound ses.timing r.buf r.i) = false :=
    Bool.and_eq_false_iff.mpr (h.imp_left fun hp => Bool.eq_false_iff.mpr (hp ∘ Phase.isScan_iff.mp))
  rw [onFrame, onFeed_of_runs hr, hcond, require_false]

theorem onFrame_of_other_levels {v : BitVec 10} (hr : s.Runs ses r) (hp : r.phase = .scan)
    (hb : inBound ses.timing r.buf r.i = true) (hv : sampledFrame ses r = some v) (hne : levels ≠ v) :
    onFrame s levels k = .refused .notSelected := by
  have hlevels : (v == levels) = false := beq_false_of_ne hne.symm
  simp [onFrame, onFeed_of_runs hr, hp, hb, hv, hlevels, Phase.isScan, withRead]

end

/-- Settles O41: with no FEED running the read of its registers faults; in a running one the tests of the row fail. -/
theorem microStepsStopOutOfPlace : Obligations.MicroStepsStopOutOfPlace := by
  constructor
  · rintro i v s rfl
    have hrow := decodeSelector_mem_microSteps v
    exact ⟨fun hidle => exec_microStep_of_not_feeding hidle _ hrow,
      fun ses r u hr hsel hne => exec_microStep_of_unselected hr hsel _ hrow hne⟩
  · intro b s
    refine ⟨fun hidle => ⟨onFeed_of_not_feeding hidle _, onFeed_of_not_feeding hidle _⟩, fun ses r hr =>
      ⟨fun hout => ⟨onFrame_of_not_scan_inBound hr hout, onFrame_of_not_scan_inBound hr hout⟩,
        fun v hp hb hv => ⟨fun hne => ?_, fun hne => ?_⟩⟩⟩
    · exact onFrame_of_other_levels hr hp hb hv fun h => hne (congrArg _ h)
    · exact onFrame_of_other_levels hr hp hb hv fun h => hne (congrArg _ h)

end Sys2Proof.Machine
end

section
/-! PROOFS. What a step hands over and what it never changes (60_exceptions R206, R207), and the idle block (R216). -/

namespace Sys2Proof.Machine

/-- From `s` to `t` one result is handed over at most, after the earlier ones, and parameters and grain stay: the
conclusion of `Obligations.StepHandsOverAtMostOneResult`. -/
def State.HandsOverAtMostOne (s t : State) : Prop :=
  t.params = s.params ∧ t.grain = s.grain ∧ (t.outbox = s.outbox ∨ ∃ x, t.outbox = s.outbox ++ [x])

section
variable {s t : State} {i : Instr}

theorem State.HandsOverAtMostOne.of_outbox_eq (hp : t.params = s.params) (hg : t.grain = s.grain)
    (ho : t.outbox = s.outbox) : s.HandsOverAtMostOne t := ⟨hp, hg, .inl ho⟩

/-- An operation that returns with its result, whatever it made of the session. -/
theorem State.HandsOverAtMostOne.deliver (hp : t.params = s.params) (hg : t.grain = s.grain)
    (ho : t.outbox = s.outbox) (x : Reply) : s.HandsOverAtMostOne (t.deliver x) :=
  ⟨hp, hg, .inr ⟨x, by rw [State.deliver_outbox, ho]⟩⟩

/-- A running FEED hands over its result when it ends, and nothing before. -/
theorem Move.handsOverAtMostOne_apply (s : State) (ses : Session) (r : Run) (m : Move) :
    s.HandsOverAtMostOne (m.apply s ses r) := by
  cases m with
  | goOn r' => exact .of_outbox_eq rfl rfl rfl
  | exit j => exact ⟨rfl, rfl, .inr ⟨_, rfl⟩⟩

/-- Each host operation returns at once with one result, but a FEED that enters, which hands over nothing yet; every
other row is a move of the running FEED. -/
theorem exec_handsOverAtMostOne (h : exec i s = .next t) : s.HandsOverAtMostOne t := by
  cases i with
  | build sr br =>
    obtain ⟨x, rfl⟩ := eq_deliver_of_execBuild h
    exact .deliver rfl rfl rfl x
  | ishigh w ch =>
    obtain ⟨-, rfl⟩ := execIshigh_eq_next.mp h
    exact .deliver rfl rfl rfl _
  | start tt ch =>
    obtain ⟨-, ⟨ses, -, rfl⟩ | ⟨c, -, rfl⟩⟩ := execStart_eq_next.mp h
    · exact .deliver rfl rfl rfl _
    · exact .deliver rfl rfl rfl _
  | feed chunk =>
    obtain ⟨-, ⟨-, rfl⟩ | ⟨ses, -, -, rfl⟩⟩ := execFeed_eq_next.mp h
    · exact .deliver rfl rfl rfl _
    · exact .of_outbox_eq rfl rfl rfl
  | finish =>
    obtain ⟨-, ⟨-, rfl⟩ | ⟨-, rfl⟩⟩ := execFinish_eq_next.mp h
    · exact .deliver rfl rfl rfl _
    · exact .deliver rfl rfl rfl _
  | _ =>
    obtain ⟨ses, r, m, -, -, rfl⟩ := moves_of_exec (by simp [encode]) h
    exact m.handsOverAtMostOne_apply s ses r

end

/-- Settles O44: an idle step hands over nothing, and any other is `exec` of one row, in a state that differs from `s`
in the inbox at most. -/
theorem stepHandsOverAtMostOneResult : Obligations.StepHandsOverAtMostOneResult := by
  intro s t h
  change s.HandsOverAtMostOne t
  obtain ⟨-, -, rfl⟩ | ⟨-, c, rest, i, -, -, -, hexec⟩ | ⟨ses, r, e, i, -, -, -, hexec⟩ := step_next_cases h
  · exact .of_outbox_eq rfl rfl rfl
  · exact exec_handsOverAtMostOne (s := { s with inbox := rest }) hexec
  · exact exec_handsOverAtMostOne hexec

/-- Settles O8: with no FEED running the inbox is fetched from, and the empty one gives nothing to do. -/
theorem idleBlockKeepsState : Obligations.IdleBlockKeepsState := by
  intro s hidle hinbox
  have hfetch : s.fetch = .idle := by rw [fetch_of_not_feeding hidle, fetchInbox, hinbox]
  rw [step, hfetch]

end Sys2Proof.Machine
end

section
/-! PROOFS. RESYNC, each of its three micro-steps under the condition of its row (43_feed_decoder R169 to R171). -/

namespace Sys2Proof.Machine

/-- Settles O35 by RESYNC.HOLD's law. -/
theorem resyncHoldWaits : Obligations.ResyncHoldWaits :=
  fun _ ses r b hr hp hb hl => execResyncHold_eq_next.mpr ⟨ses, r, b, hr, hp, (inBound_iff _ _ _).mpr hb, hl, rfl⟩

/-- Settles O36 by RESYNC.DONE's law. -/
theorem resyncDoneKeepsTheByte : Obligations.ResyncDoneKeepsTheByte :=
  fun _ ses r b hr hp hb hl => execResyncDone_eq_next.mpr ⟨ses, r, b, hr, hp, (inBound_iff _ _ _).mpr hb, hl, rfl⟩

/-- Settles O37 by RESYNC.EXIT's law. -/
theorem resyncExitDropsTheByte : Obligations.ResyncExitDropsTheByte :=
  fun _ ses r b hr hp hb => execResyncExit_eq_next.mpr ⟨ses, r, b, hr, hp, (not_inBound_iff _ _ _).mpr hb, rfl⟩

end Sys2Proof.Machine
end

section
/-! PROOFS. BUILD's errors (40_timing_model R111, 60_exceptions R207): which rates and quotients give which. -/

namespace Sys2Proof.Machine

section
variable {p : Params} {skip sr br : Number} {t : TimingTable} {c : ErrorCode}

theorem buildReply_of_error (h : buildTable p sr br = .error c) : buildReply p sr br = .error c := by
  rw [buildReply, h]

theorem buildTable_of_bad_samplerate (hsr : sr.isPositive = false) :
    buildTable p sr br = .error .samplerateInvalid := by
  simp [buildTable, hsr]

theorem buildTable_of_bad_baudrate (hsr : sr.isPositive = true) (hbr : br.isPositive = false) :
    buildTable p sr br = .error .baudrateInvalid := by
  simp [buildTable, hsr, hbr]

/-- With two positive rates BUILD's only error is a skip that is not finite or has no table. -/
theorem buildTable_of_no_table (hsr : sr.isPositive = true) (hbr : br.isPositive = true)
    (h : ¬ ((fdiv p.fmt sr br).isFinite = true ∧ ∃ t, tableOfSkip p (fdiv p.fmt sr br) = some t)) :
    buildTable p sr br = .error .timingMalformed := by
  cases hfin : (fdiv p.fmt sr br).isFinite with
  | false => simp [buildTable, hsr, hbr, hfin]
  | true =>
    have hnone : tableOfSkip p (fdiv p.fmt sr br) = none :=
      Option.eq_none_iff_forall_ne_some.mpr fun t ht => h ⟨hfin, t, ht⟩
    simp [buildTable, hsr, hbr, hfin, hnone]

/-- A table has all its ten sample points (40_timing_model R113 to R115). -/
theorem exists_samplePoint_of_tableOfSkip (h : tableOfSkip p skip = some t) :
    ∀ halves ∈ [3, 5, 7, 9, 11, 13, 15, 17, 19, 20], ∃ n, samplePoint p skip halves = some n := by
  obtain ⟨hoff, hstop, hspare⟩ := tableOfSkip_eq_some_iff.mp h
  simp only [List.forall_mem_cons]
  exact ⟨⟨_, hoff 0⟩, ⟨_, hoff 1⟩, ⟨_, hoff 2⟩, ⟨_, hoff 3⟩, ⟨_, hoff 4⟩, ⟨_, hoff 5⟩, ⟨_, hoff 6⟩, ⟨_, hoff 7⟩,
    ⟨_, hstop⟩, ⟨_, hspare⟩, by simp⟩

end

/-- Settles O15: a bad rate is found by its own test; a sample point without a floor that fits leaves no table. -/
theorem buildRefusesBadRates : Obligations.BuildRefusesBadRates := by
  intro s sr br
  have handsOver {c : ErrorCode} (h : buildTable s.params sr br = .error c) :
      exec (.build sr br) s = .next (s.deliver (.error c)) := by rw [exec_build, buildReply_of_error h]
  refine ⟨fun hsr => handsOver (buildTable_of_bad_samplerate hsr),
    fun hsr hbr => handsOver (buildTable_of_bad_baudrate hsr hbr),
    fun hsr hbr hbad => handsOver (buildTable_of_no_table hsr hbr ?_)⟩
  rintro ⟨hfin, t, ht⟩
  obtain hinfinite | ⟨halves, hmem, hunfit⟩ := hbad
  · simp [hfin] at hinfinite
  · obtain ⟨n, hn⟩ := exists_samplePoint_of_tableOfSkip ht halves hmem
    obtain ⟨hfloor, hfits⟩ := samplePoint_eq_some_iff.mp hn
    simp [hunfit n hfloor] at hfits

end Sys2Proof.Machine
end

section
/-! PROOFS. What the host operations refuse and which errors they report (41_channel_extractor R131, 42_session_control,
60_exceptions R205, 70_reset_and_hazards R244). -/

namespace Sys2Proof.Machine

section
variable {s : State} {q : Refusal}

/-! When an operation is refused. -/

theorem betweenOperations_eq_refused {k : Answer} : s.betweenOperations k = .refused q ↔
    (s.feeding = true ∧ q = .overlappingOperation) ∨ (s.feeding = false ∧ k = .refused q) := by
  cases h : s.feeding <;> simp [State.betweenOperations, h, eq_comm]

theorem inSession_eq_refused {k : Session → Answer} : s.inSession k = .refused q ↔
    ∃ ses, s.session = some ses ∧ k ses = .refused q := by
  cases h : s.session <;> simp [State.inSession, State.raise, h]

theorem execIshigh_eq_refused {w : SampleWord} {ch : Nat} : execIshigh w ch s = .refused q ↔
    s.params.w ≤ ch ∧ q = .channelOutsideWord := by
  by_cases h : ch < s.params.w
  · simp [execIshigh, h]
  · simp [execIshigh, h, Nat.le_of_not_lt h, eq_comm]

theorem execStart_eq_refused {tt : TimingTable} {ch : Nat} : execStart tt ch s = .refused q ↔
    s.feeding = true ∧ q = .overlappingOperation := by
  rw [execStart, betweenOperations_eq_refused]
  cases startSession s.params tt ch <;> simp [State.raise]

theorem execFeed_eq_refused {chunk : List SampleWord} : execFeed chunk s = .refused q ↔
    (s.feeding = true ∧ q = .overlappingOperation)
      ∨ (s.feeding = false ∧ ∃ ses, s.session = some ses ∧ ses.feedFits s.params chunk = false
          ∧ q = .feedDoesNotFit) := by
  rw [execFeed, betweenOperations_eq_refused, inSession_eq_refused]
  refine or_congr_right (and_congr_right fun _ => exists_congr fun ses => and_congr_right fun _ => ?_)
  cases ses.feedFits s.params chunk <;> simp [eq_comm]

theorem execFinish_eq_refused : execFinish s = .refused q ↔ s.feeding = true ∧ q = .overlappingOperation := by
  rw [execFinish, betweenOperations_eq_refused]
  cases s.session <;> simp [finishSession, State.raise]

/-! START's two errors. -/

theorem startSession_of_channel_outside {p : Params} {ch : Nat} (h : p.w ≤ ch) (tt : TimingTable) :
    startSession p tt ch = .error .channelOutOfRange := if_neg (Nat.not_lt.mpr h)

theorem startSession_of_malformed {p : Params} {tt : TimingTable} {ch : Nat} (hch : ch < p.w)
    (h : ¬ (tt.wellFormed = true ∧ tt.fits p = true)) : startSession p tt ch = .error .timingMalformed := by
  rw [startSession, if_pos hch, if_neg (by rwa [Bool.and_eq_true])]

theorem execStart_of_error {tt : TimingTable} {ch : Nat} {c : ErrorCode} (hidle : s.feeding = false)
    (h : startSession s.params tt ch = .error c) :
    execStart tt ch s = .next (s.closeSession.deliver (.error c)) :=
  execStart_eq_next.mpr ⟨hidle, .inr ⟨c, h, rfl⟩⟩

end

/-- Settles O20 by what ISHIGH refuses. -/
theorem ishighRefusesOutsideTheWord : Obligations.IshighRefusesOutsideTheWord :=
  fun _ _ _ h => execIshigh_eq_refused.mpr ⟨h, rfl⟩

/-- Settles O22: a table with an offset not below its `spare` is not well formed. -/
theorem failedStartLeavesNoSession : Obligations.FailedStartLeavesNoSession := by
  intro s tt ch hidle
  refine ⟨fun hch => execStart_of_error hidle (startSession_of_channel_outside hch tt),
    fun hch hbad => execStart_of_error hidle (startSession_of_malformed hch ?_)⟩
  rintro ⟨hw, hfits⟩
  obtain ⟨hoff, hstop⟩ := (TimingTable.wellFormed_iff tt).mp hw
  obtain ⟨k, hk⟩ | hk | hunfit := hbad
  · exact Nat.not_lt.mpr hk (hoff k)
  · exact Nat.not_lt.mpr hk hstop
  · simp [hunfit] at hfits

/-- Settles O23: FINISH finds the session and drops it. -/
theorem finishEndsTheSession : Obligations.FinishEndsTheSession :=
  fun _ _ hrest => execFinish_eq_next.mpr ⟨hrest.not_feeding, .inr ⟨by simp [hrest.1], rfl⟩⟩

/-- Settles O24: without a session no FEED runs, and the first test of FEED and FINISH fails. -/
theorem noSessionIsReported : Obligations.NoSessionIsReported := by
  intro s hnone
  have hidle : s.feeding = false := by simp [State.feeding, hnone]
  exact ⟨fun chunk => execFeed_eq_next.mpr ⟨hidle, .inl ⟨hnone, rfl⟩⟩,
    execFinish_eq_next.mpr ⟨hidle, .inl ⟨hnone, rfl⟩⟩⟩

/-- Settles O25 by what the three operations refuse while a FEED runs. -/
theorem overlapHasNoMeaning : Obligations.OverlapHasNoMeaning :=
  fun _ hf => ⟨fun _ _ => execStart_eq_refused.mpr ⟨hf, rfl⟩, fun _ => execFeed_eq_refused.mpr (.inl ⟨hf, rfl⟩),
    execFinish_eq_refused.mpr ⟨hf, rfl⟩⟩

/-- Settles O28: each disjunct is a clause of FEED's size test that fails. -/
theorem sizedBuildRefusesTheFeed : Obligations.SizedBuildRefusesTheFeed := by
  intro s ses chunk hrest hbad
  refine execFeed_of_not_fits hrest (Bool.eq_false_iff.mpr fun hfits => ?_)
  obtain ⟨hidx, hend⟩ := feedFits_iff.mp hfits
  rw [List.length_append] at hidx
  obtain hunfit | ⟨e, he, hcur⟩ := hbad
  · simp [hunfit] at hidx
  · obtain ⟨hexit, hevents⟩ := Bool.and_eq_true_iff.mp (hend e he)
    obtain hunfit | ⟨a, ha, hunfit⟩ := hcur
    · simp [hunfit] at hexit
    · simp [List.all_eq_true.mp hevents a ha] at hunfit

end Sys2Proof.Machine
end

section
/-! PROOFS. What a step refuses (30_encoding R87, 60_exceptions), and the block at power-on (70_reset_and_hazards
section 1). -/

namespace Sys2Proof.Machine

section
variable {s : State} {q : Refusal}

theorem decode_of_unused_code {code : BitVec 3} (h : 5 ≤ code.toNat) (ops : List Operand) :
    decode (.cmd ⟨code, ops⟩) = .error (.noOperation code) := by
  change decodeCommand ⟨code, ops⟩ = _
  unfold decodeCommand
  dsimp only
  split
  iterate 5 next hcode => simp [hcode] at h
  · exact if_neg (Nat.not_lt.mpr h)

/-- An issued operation that is refused between operations is an ISHIGH outside the word or a FEED that does not fit. -/
theorem exec_eq_refused_of_command {c : Command} {i : Instr} (hi : encode i = .cmd c) (hidle : s.feeding = false)
    (h : exec i s = .refused q) :
    (∃ word ch, i = .ishigh word ch ∧ s.params.w ≤ ch)
      ∨ ∃ chunk ses, i = .feed chunk ∧ s.session = some ses ∧ ses.feedFits s.params chunk = false := by
  cases i with
  | build sr br => rw [exec_build] at h; cases h
  | ishigh word ch => exact .inl ⟨word, ch, rfl, (execIshigh_eq_refused.mp h).1⟩
  | start tt ch => simp [(execStart_eq_refused.mp h).1] at hidle
  | feed chunk =>
    obtain ⟨hf, -⟩ | ⟨-, ses, hses, hfits, -⟩ := execFeed_eq_refused.mp h
    · simp [hf] at hidle
    · exact .inr ⟨chunk, ses, rfl, hses, hfits⟩
  | finish => simp [(execFinish_eq_refused.mp h).1] at hidle
  | _ => cases hi

end

/-- Settles O11: the decoder knows no operation of the code, so the fetch refuses it. -/
theorem unusedCodesAreRefused : Obligations.UnusedCodesAreRefused := by
  intro s code ops rest hcode hidle hinbox
  have hd := decode_of_unused_code hcode ops
  exact ⟨hd, by simp only [step, fetch_of_not_feeding hidle, fetchInbox, hinbox, fetchCommand, hd]⟩

/-- Settles O6: a running FEED never stops and the idle block keeps its state, so an operation is issued; where it
decodes to well-formed operands the step runs it. -/
theorem stepRefusesOnlyImpossibleOperations : Obligations.StepRefusesOnlyImpossibleOperations := by
  intro s q hs h
  have hidle : s.feeding = false := by
    refine Bool.eq_false_iff.mpr fun hf => ?_
    obtain ⟨t, ht⟩ := runningFeedNeverStops s hs hf
    cases ht.symm.trans h
  refine ⟨hidle, ?_⟩
  cases hinbox : s.inbox with
  | nil => cases (idleBlockKeepsState s hidle hinbox).symm.trans h
  | cons c rest =>
    refine ⟨c, rest, rfl, ?_⟩
    cases hd : decode (.cmd c) with
    | error e => exact .inl ⟨e, rfl⟩
    | ok i =>
      cases hw : i.wellFormed s.params with
      | false => exact .inr (.inl ⟨i, rfl, hw⟩)
      | true =>
        rw [step_of_issued hidle hinbox hd hw] at h
        obtain ⟨word, ch, rfl, hch⟩ | ⟨chunk, ses, rfl, hses, hfits⟩ :=
          exec_eq_refused_of_command (s := { s with inbox := rest }) (encode_of_decodeCommand hd) hidle h
        · exact .inr (.inr (.inl ⟨word, ch, rfl, hch⟩))
        · exact .inr (.inr (.inr ⟨chunk, ses, rfl, hses, hfits⟩))

/-- START between operations opens a session or reports an error; it always returns. -/
theorem exists_execStart_eq_next {s : State} (hidle : s.feeding = false) (tt : TimingTable) (ch : Nat) :
    ∃ t, execStart tt ch s = .next t := by
  cases h : startSession s.params tt ch with
  | ok ses => exact ⟨_, execStart_eq_next.mpr ⟨hidle, .inl ⟨ses, h, rfl⟩⟩⟩
  | error c => exact ⟨_, execStart_of_error hidle h⟩

/-- Settles O1: the reset state has no session and nothing issued, so each clause is the operation's law there. -/
theorem powerOnState : Obligations.PowerOnState := by
  obtain ⟨hfeed, hfinish⟩ := noSessionIsReported State.reset rfl
  exact ⟨rfl, rfl, idleBlockKeepsState State.reset rfl rfl, hfeed, hfinish,
    fun sr br => ⟨_, exec_build State.reset sr br⟩, fun word _ hch => exec_ishigh_of_lt hch word,
    exists_execStart_eq_next rfl⟩

end Sys2Proof.Machine
end
